-- ==== Sys2Proof/Word.lean ====
section
/-! DEFINITION. The words of the Huffman core: bytes, 32-bit registers, bit strings and symbols
(00_scope.md R7, R10, R11). -/

namespace Sys2Proof

/-- A byte of a channel's medium, a byte value `0..255`, an opcode (R7, R80). -/
abbrev Byte := BitVec 8

/-- A 32-bit host register or command word (R7 `REG_W`). -/
abbrev Word := BitVec 32

/-- A bit string in stream order: the head is sent or read first (R11). -/
abbrev Bits := List Bool

/-- A symbol `0..256` (R7 `ALPHA` = 257, R19). -/
abbrev Symbol := Fin 257

end Sys2Proof
end

