-- ==== Sys2Proof/Syntax.lean ====
section
/-! DEFINITION. The commands of the core: one constructor per row of spec/opcode_table.json
(30_encoding.md R82). -/

namespace Sys2Proof

/-- A command. `CNTSYM` and `ENCSYM` carry the 9-bit `ARG` field as it stands in the word (R81); which
values are legal is `Instr.wf`. -/
inductive Instr where
  /-- R180 -/
  | nop
  /-- R181 -/
  | clr
  /-- R182 -/
  | rewind
  /-- R183 -/
  | close
  /-- R100: count the byte `b` -/
  | cntsym (b : BitVec 9)
  /-- R101 -/
  | count
  /-- R110 -/
  | build
  /-- R120 -/
  | wmagic
  /-- R121 -/
  | wtree
  /-- R125 -/
  | rmagic
  /-- R130 -/
  | rtree
  /-- R140 -/
  | gencode
  /-- R150: encode the symbol `a` -/
  | encsym (a : BitVec 9)
  /-- R151 -/
  | encode
  /-- R161 -/
  | decsym
  /-- R162 -/
  | decode
  /-- R170 -/
  | compress
  /-- R171 -/
  | decompress
  deriving DecidableEq, Repr

end Sys2Proof
end

