-- ==== Sys2Proof/WellFormed.lean ====
section
/-! DEFINITION. Which commands are well formed: the operand ranges of 30_encoding.md R81 and R83. -/

namespace Sys2Proof

/-- `CNTSYM` takes `0..255` and `ENCSYM` takes `0..256`; the other commands have no operand (R83). -/
def Instr.wf : Instr → Bool
  | .cntsym b => b.toNat ≤ 255
  | .encsym a => a.toNat ≤ 256
  | .nop | .clr | .rewind | .close | .count | .build | .wmagic | .wtree | .rmagic | .rtree
  | .gencode | .encode | .decsym | .decode | .compress | .decompress => true

end Sys2Proof
end

