-- ==== Sys2Proof/Decode.lean ====
section
/-! DEFINITION. Decoding a command word, total on every word and refusing by name, and the encoder
(30_encoding.md R80 to R86). -/

namespace Sys2Proof

/-- `OPC`, bits 7:0 (R80). -/
def fieldOpc (w : Word) : Byte := w.extractLsb' 0 8

/-- `ARG`, bits 16:8, used as is (R80, R81). -/
def fieldArg (w : Word) : BitVec 9 := w.extractLsb' 8 9

/-- `RSV`, bits 31:17 (R80). -/
def fieldRsv (w : Word) : BitVec 15 := w.extractLsb' 17 15

/-- Why a word is not legal (R84). Each case raises `ILLEGAL` when the word is accepted. -/
inductive Illegal where
  /-- A nonzero `RSV` field. -/
  | reservedBits
  /-- An opcode not listed in R82 (R85). -/
  | reservedOpcode
  /-- An `ARG` outside the opcode's range (R83). -/
  | argRange
  deriving DecidableEq, Repr

/-- An operand-free command needs `ARG` = 0 (R83). -/
def noOperand (arg : BitVec 9) (i : Instr) : Except Illegal Instr :=
  if arg = 0 then .ok i else .error .argRange

/-- A command with an operand: the operand must be in its range (R83). -/
def withOperand (i : Instr) : Except Illegal Instr :=
  if i.wf then .ok i else .error .argRange

/-- The opcode map of R82, given the operand field. -/
def decodeOpc (opc : Byte) (arg : BitVec 9) : Except Illegal Instr :=
  match opc.toNat with
  | 0x00 => noOperand arg .nop
  | 0x01 => noOperand arg .clr
  | 0x02 => noOperand arg .rewind
  | 0x03 => noOperand arg .close
  | 0x10 => withOperand (.cntsym arg)
  | 0x11 => noOperand arg .count
  | 0x20 => noOperand arg .build
  | 0x30 => noOperand arg .wmagic
  | 0x31 => noOperand arg .wtree
  | 0x32 => noOperand arg .rmagic
  | 0x33 => noOperand arg .rtree
  | 0x40 => noOperand arg .gencode
  | 0x50 => withOperand (.encsym arg)
  | 0x51 => noOperand arg .encode
  | 0x60 => noOperand arg .decsym
  | 0x61 => noOperand arg .decode
  | 0x70 => noOperand arg .compress
  | 0x71 => noOperand arg .decompress
  | _    => .error .reservedOpcode

/-- The decoder (R80 to R85). -/
def decode (w : Word) : Except Illegal Instr :=
  if fieldRsv w = 0 then decodeOpc (fieldOpc w) (fieldArg w) else .error .reservedBits

/-- The opcode of a command (R82). -/
def opcode : Instr → Byte
  | .nop        => 0x00
  | .clr        => 0x01
  | .rewind     => 0x02
  | .close      => 0x03
  | .cntsym _   => 0x10
  | .count      => 0x11
  | .build      => 0x20
  | .wmagic     => 0x30
  | .wtree      => 0x31
  | .rmagic     => 0x32
  | .rtree      => 0x33
  | .gencode    => 0x40
  | .encsym _   => 0x50
  | .encode     => 0x51
  | .decsym     => 0x60
  | .decode     => 0x61
  | .compress   => 0x70
  | .decompress => 0x71

/-- The operand a command carries in `ARG`, 0 where it has none (R81). -/
def operand : Instr → BitVec 9
  | .cntsym b => b
  | .encsym a => a
  | .nop | .clr | .rewind | .close | .count | .build | .wmagic | .wtree | .rmagic | .rtree
  | .gencode | .encode | .decsym | .decode | .compress | .decompress => 0

/-- The command word `OPC | (operand << 8)` (R82, R87). -/
def encode (i : Instr) : Word := (0#15 ++ operand i) ++ opcode i

/-- The decoder on a word numbered as spec/opcode_table.json numbers it: the low `nbits` bits of `w` are
the command word and the bits above are 0. A number that does not fit in 32 bits is no command word. -/
def decodeTableWord (nbits w : Nat) : Option Instr :=
  if w % 2 ^ nbits < 2 ^ 32 then
    match decode (BitVec.ofNat 32 (w % 2 ^ nbits)) with
    | .ok i => some i
    | .error _ => none
  else none

end Sys2Proof
end

