-- ==== Sys2Proof/Config.lean ====
section
/-! DEFINITION. The parameters of the core (00_scope.md R7, R8) and the free values the spec leaves open
(93_implementation_defined.md). A free value is an opaque constant: nothing can evaluate it. -/

namespace Sys2Proof

/-- The two parameters of R7 that are not constants. They stand in the hard-wired registers `MAGIC` (R43)
and `PARAM` (R44). `cntWPred` is `CNT_W - 1`, so that `CNT_W` is in `1..32` by its type. -/
structure Params where
  magic    : Word
  cntWPred : Fin 32
  deriving DecidableEq, Repr

/-- `CNT_W`, the width of a frequency counter, `1..32` (R7). -/
def Params.cntW (p : Params) : Nat := p.cntWPred.val + 1

/-- `CNT_MAX = 2^CNT_W - 1` (R7). -/
def Params.cntMax (p : Params) : Nat := 2 ^ p.cntW - 1

namespace Config

/-- `SENT`, the end-of-stream sentinel (R7). -/
def sent : Symbol := 256

/-- `SENT_WEIGHT` (R7, R111). -/
def sentWeight : Nat := 1

/-- `NODE_CAP`, the most nodes the tree store holds (R7, R132). -/
def nodeCap : Nat := 513

/-- `MAX_CODE_LEN` (R7, R117). -/
def maxCodeLen : Nat := 256

/-- `MAGIC`: OPEN in the spec (R7, R43), so no value is given here (log 1). -/
opaque magic : Word

/-- The parameters of the core that `State.reset` describes: the OPEN magic and the spec's default
`CNT_W` = 32 (R7, log 1). Claims about every state hold for every value of both. -/
def params : Params := { magic := magic, cntWPred := 31 }

/-- The padding draw of R58: the bits of the `k`-th draw (log 5). -/
opaque freePad : Nat → BitVec 7

/-- The value of the `k`-th draw for a register read while BUSY (R61, log 5). -/
opaque freeRead : Nat → Word

end Config

end Sys2Proof
end

