-- ==== Sys2Proof/Machine/State.lean ====
section
/-! DEFINITION. The state of the core as plain data (10_state.md R20 to R49; 20_memory.md R53, R56), its
value at reset (R48, R210), and the reasons a step can stop. -/

namespace Sys2Proof.Machine

/-- A code tree (00_scope.md R12). -/
inductive Tree where
  | leaf (s : Symbol)
  | node (l r : Tree)
  deriving DecidableEq, Repr

/-- `STATUS.DSTATE` (R37). The values 5..7 are never produced. -/
inductive DState where
  | idle
  | expectMagic
  | readHeader
  | decode
  | done
  deriving DecidableEq, Repr

/-- The errors of 60_exceptions.md R190. An error is a value of `STATUS`, never a stop of the machine. -/
inductive Err where
  | illegal
  | noTree
  | noCode
  | noSymbol
  | countOvf
  | outClosed
  | fmtMagicShort
  | fmtMagicBad
  | fmtTreeTrunc
  | fmtTreeSym
  | fmtTreeOvf
  | fmtTreeDegen
  | fmtDataTrunc
  | ioIn
  | ioOut
  deriving DecidableEq, Repr

/-- The fields of `STATUS` that hold something (R29). Its reserved bits are hard-wired to 0 (R49) and have no
storage. `errcode` is `none` for the code `0x00`. -/
structure Status where
  busy      : Bool
  err       : Bool
  ovr       : Bool
  treeValid : Bool
  codeValid : Bool
  eos       : Bool
  oclosed   : Bool
  dstate    : DState
  errcode   : Option Err
  errop     : Byte
  deriving DecidableEq, Repr

/-- The channel collaborator's answer to one call (20_memory.md R57). -/
inductive Answer where
  | ok
  | fail
  deriving DecidableEq, Repr

/-- The host's moves (20_memory.md R66); a move that is not listed does not exist. An offset is 12 bits wide,
so it lies in the 4096-byte window (R50). -/
inductive HostMove where
  /-- `MemWrite(offset, width, value)` -/
  | memWrite (offset : BitVec 12) (width : Nat) (value : Word)
  /-- `MemRead(offset, width)` -/
  | memRead (offset : BitVec 12) (width : Nat)
  /-- Attach an input of these bytes. -/
  | attachIn (bytes : List Byte)
  /-- Attach an empty output. -/
  | attachOut
  /-- Read OUT's content. -/
  | takeOut
  /-- Assert the reset input (R210). -/
  | reset
  deriving DecidableEq, Repr

/-- Whose turn a step is (R200). -/
inductive Turn where
  | host (m : HostMove)
  | core
  deriving DecidableEq, Repr

/-- The model's record of the counting passes of IN, and of which of them the counts, the tree and the code table come from,
as long as that compression's encoding pass is to come (R64, R216, log 19). Passes are numbered from 1. -/
structure Passes where
  /-- How many COUNT commands have ended without error. -/
  count : Nat
  /-- The counters that hold something COUNT has counted, without repeats. -/
  own   : List Byte
  /-- The pass that the content of `FREQ` was last counted in. -/
  freq  : Option Nat
  /-- The same of `TREE`. -/
  tree  : Option Nat
  /-- The same of `CODE`. -/
  code  : Option Nat
  deriving DecidableEq, Repr

/-- No compression is between its passes, `n` counting passes done. -/
def Passes.closed (n : Nat) : Passes :=
  { count := n, own := [], freq := none, tree := none, code := none }

/-- The state. The fields up to `outBits` are the spec's; the last six are the model's own view of the
environment (log 3 to log 6, log 19). -/
structure State where
  /-- The hard-wired `MAGIC` and `PARAM` (R43, R44). -/
  params   : Params
  /-- `FREQ[0..255]` (R22). -/
  freq     : Vector Nat 256
  /-- `TREE` (R23). -/
  tree     : Option Tree
  /-- `CODE[0..256]` (R26). -/
  code     : Vector (Option Bits) 257
  /-- `STATUS` (R29). -/
  status   : Status
  /-- `RESULT[8:0]` (R39). -/
  result   : BitVec 9
  /-- `NLEAF[9:0]` (R40). -/
  nleaf    : BitVec 10
  /-- `INPOS` (R41). -/
  inpos    : Word
  /-- `OUTPOS` (R42). -/
  outpos   : Word
  /-- The accepted command word whose step is pending (R28, R194). -/
  cmd      : Option Word
  /-- `STATUS.OVR` as it was when the pending command was accepted (R61, log 9). -/
  ovrSeen  : Bool
  /-- `IN.bits` (R53). -/
  inBits   : Bits
  /-- `IN.cur` (R53). -/
  inCur    : Nat
  /-- `OUT.bits` (R56). -/
  outBits  : Bits
  /-- The channel oracle's answers to come; an exhausted list answers `ok` (R57, log 4). -/
  answers  : List Answer
  /-- How many free values have been drawn (log 5). -/
  draws    : Nat
  /-- The turns to come; see `step` (log 3). -/
  script   : List Turn
  /-- What the host's last register read returned (log 6). -/
  hostData : Word
  /-- What the host last took from OUT (log 6). -/
  hostOut  : Bits
  /-- Which compressions are between their passes: the host owes them IN unchanged (R64, R216, log 19). -/
  passes   : Passes
  deriving DecidableEq, Repr

/-- `STATUS` after reset: `0x0000_0000` (R48). -/
def Status.reset : Status :=
  { busy := false, err := false, ovr := false, treeValid := false, codeValid := false, eos := false,
    oclosed := false, dstate := .idle, errcode := none, errop := 0 }

/-- The machine right after reset (R48, R211). The input attached is empty (log 2), and nothing of the
environment is to come (log 3 to log 6, log 19). -/
def State.reset : State :=
  { params := Config.params, freq := Vector.replicate 256 0, tree := none,
    code := Vector.replicate 257 none, status := Status.reset, result := 0, nleaf := 0, inpos := 0,
    outpos := 0, cmd := none, ovrSeen := false, inBits := [], inCur := 0, outBits := [], answers := [], draws := 0,
    script := [], hostData := 0, hostOut := [], passes := Passes.closed 0 }

/-- Why the machine stops. -/
inductive Fault where
  /-- A command's loop used up its bound without ending (log 11). Raised by `Res.finish`. SAFE: no state that
  meets the machine's invariant reaches it (every accepted command completes, R219); the one family of
  states where the spec's own loop would not end is DECODE on a root leaf that is not `SENT`, which R25
  rules out of every stored tree. -/
  | noProgress
  deriving DecidableEq, Repr

/-- Why a step has no meaning. -/
inductive Refusal where
  /-- An instruction without a meaning. SAFE. No arm of `exec` uses it. -/
  | notModelled (mnemonic : String)
  /-- The host attaches a channel while BUSY = 1. Raised by `hostTurn`. SAFE: R66 gives the host no such move
  ("BUSY = 0 only"; 93_implementation_defined.md: `refuse`) (log 7). -/
  | attachWhileBusy
  /-- The host attaches a channel between the COUNT and the ENCODE pass of one compression, which its moves to come lead
  it to (`encodesCounted`). Raised by `hostTurn`. SAFE:
  93_implementation_defined.md rules `refuse` for "attaches a channel, while BUSY = 1 or between the passes", as the
  host owes IN unchanged there (R64, R216) (log 19). -/
  | attachBetweenPasses
  deriving DecidableEq, Repr

end Sys2Proof.Machine
end

