-- ==== Sys2Proof/Machine/Operands.lean ====
section
/-! DEFINITION. The forms the commands' data take: bit strings and bytes (00_scope.md R11, 20_memory.md R59),
symbols, and trees with their sizes and their header (R12, 30_encoding.md R90). -/

namespace Sys2Proof.Machine

/-- `msbf_n(v)`: the low `n` bits of `v`, most significant bit first (R11). -/
def msbf : Nat → Nat → Bits
  | 0, _ => []
  | n + 1, v => v.testBit n :: msbf n v

/-- `val(s)`: the number a bit string spells, its first bit the most significant (R11). -/
def bitsVal (bs : Bits) : Nat := bs.foldl (fun acc b => 2 * acc + b.toNat) 0

/-- The bit string of a sequence of bytes: bit `k` is bit `7 - (k mod 8)` of byte `k div 8` (R59). -/
def bytesToBits (bytes : List Byte) : Bits := bytes.flatMap fun b => msbf 8 b.toNat

/-- The whole bytes of a bit string, by the same packing (R59); trailing bits short of a byte are left out. -/
def bitsToBytes : Bits → List Byte
  | b7 :: b6 :: b5 :: b4 :: b3 :: b2 :: b1 :: b0 :: rest =>
    BitVec.ofNat 8 (bitsVal [b7, b6, b5, b4, b3, b2, b1, b0]) :: bitsToBytes rest
  | _ => []

/-- The symbol of a byte value (R19). -/
def byteSymbol (b : Byte) : Symbol := ⟨b.toNat, by omega⟩

/-- The symbol a 9-bit field spells, `none` for the values 257 to 511, which are no symbols (R9). -/
def symbolOf (v : BitVec 9) : Option Symbol :=
  if h : v.toNat < 257 then some ⟨v.toNat, h⟩ else none

/-- `leaves(t)` (R12). -/
def Tree.leaves : Tree → Nat
  | .leaf _ => 1
  | .node l r => l.leaves + r.leaves

/-- `nodes(t)` (R12). -/
def Tree.nodes : Tree → Nat
  | .leaf _ => 1
  | .node l r => 1 + l.nodes + r.nodes

/-- The depth of the deepest leaf (R12). -/
def Tree.height : Tree → Nat
  | .leaf _ => 0
  | .node l r => 1 + max l.height r.height

/-- The symbols of the leaves, left to right (R12). -/
def Tree.symbols : Tree → List Symbol
  | .leaf s => [s]
  | .node l r => l.symbols ++ r.symbols

/-- Every leaf with its path from the root, left to right: `0` (`false`) for a left descent, `1` for a right
one (R12). -/
def Tree.paths : Tree → List (Symbol × Bits)
  | .leaf s => [(s, [])]
  | .node l r =>
    (l.paths.map fun sp => (sp.1, false :: sp.2)) ++ (r.paths.map fun sp => (sp.1, true :: sp.2))

/-- The header of a tree: preorder, control bit 0 for an internal node, control bit 1 and a 9-bit symbol for
a leaf (R90). -/
def ser : Tree → Bits
  | .leaf s => true :: msbf 9 s.val
  | .node l r => false :: (ser l ++ ser r)

end Sys2Proof.Machine
end

