-- ==== Sys2Proof/Machine/Flags.lean ====
section
/-! DEFINITION. The status register: its codes, its 32-bit word, and the value of every readable register
(10_state.md R28 to R46, R49; 60_exceptions.md R190). -/

namespace Sys2Proof.Machine

/-- The 3-bit code of `STATUS.DSTATE` (R37). -/
def DState.code : DState → BitVec 3
  | .idle        => 0
  | .expectMagic => 1
  | .readHeader  => 2
  | .decode      => 3
  | .done        => 4

/-- The 8-bit code of an error (R190). -/
def Err.code : Err → Byte
  | .illegal       => 0x01
  | .noTree        => 0x02
  | .noCode        => 0x03
  | .noSymbol      => 0x04
  | .countOvf      => 0x05
  | .outClosed     => 0x06
  | .fmtMagicShort => 0x10
  | .fmtMagicBad   => 0x11
  | .fmtTreeTrunc  => 0x12
  | .fmtTreeSym    => 0x13
  | .fmtTreeOvf    => 0x14
  | .fmtTreeDegen  => 0x15
  | .fmtDataTrunc  => 0x16
  | .ioIn          => 0x20
  | .ioOut         => 0x21

/-- `STATUS.ERRCODE` as the register shows it: `0x00` when there is no error (R29, R190). -/
def errCodeField : Option Err → Byte
  | none   => 0x00
  | some e => e.code

/-- The `STATUS` word, most significant field first: ERROP 31:24, ERRCODE 23:16, reserved 15:11, DSTATE 10:8,
reserved 7, OCLOSED 6, EOS 5, CODE_VALID 4, TREE_VALID 3, OVR 2, ERR 1, BUSY 0 (R29, R49). -/
def Status.word (t : Status) : Word :=
  t.errop ++ errCodeField t.errcode ++ 0#5 ++ t.dstate.code ++ 0#1 ++ BitVec.ofBool t.oclosed
    ++ BitVec.ofBool t.eos ++ BitVec.ofBool t.codeValid ++ BitVec.ofBool t.treeValid
    ++ BitVec.ofBool t.ovr ++ BitVec.ofBool t.err ++ BitVec.ofBool t.busy

/-- The `PARAM` word: `CNT_W` in bits 5:0 (R44, R49). -/
def Params.paramWord (p : Params) : Word := BitVec.ofNat 32 p.cntW

/-- The offsets of the register map (10_state.md section 3). -/
def offCmd    : BitVec 12 := 0x000
def offStatus : BitVec 12 := 0x004
def offResult : BitVec 12 := 0x008
def offNleaf  : BitVec 12 := 0x00C
def offInpos  : BitVec 12 := 0x010
def offOutpos : BitVec 12 := 0x014
def offMagic  : BitVec 12 := 0x018
def offParam  : BitVec 12 := 0x01C

/-- The counter a `FREQ` offset names: `0x400 + 4*i` is `FREQ[i]`, `i` in `0..255` (R45). -/
def freqIndex (a : BitVec 12) : Option Byte :=
  if 0x400 ≤ a.toNat ∧ a.toNat < 0x800 then some (BitVec.ofNat 8 ((a.toNat - 0x400) / 4)) else none

/-- Whether an aligned offset is a register of the map rather than reserved (R46). -/
def isRegister (a : BitVec 12) : Bool := a.toNat < 0x020 || (freqIndex a).isSome

/-- What a read of `STATUS` returns: the register, but while BUSY the OVR field as it was when the command was accepted.
The other fields change in no step while BUSY = 1 (R61, log 9). -/
def statusRead (s : State) : Word :=
  if s.status.busy then { s.status with ovr := s.ovrSeen }.word else s.status.word

/-- The value of the register at an aligned offset; while BUSY this holds of `STATUS` alone (`memRead`). Reserved offsets and `CMD`
read 0 (R28 to R46). -/
def regValue (s : State) (a : BitVec 12) : Word :=
  if a = offStatus then statusRead s
  else if a = offResult then s.result.setWidth 32
  else if a = offNleaf then s.nleaf.setWidth 32
  else if a = offInpos then s.inpos
  else if a = offOutpos then s.outpos
  else if a = offMagic then s.params.magic
  else if a = offParam then Params.paramWord s.params
  else match freqIndex a with
    | some b => BitVec.ofNat 32 (s.freq[b.toNat]'b.isLt)
    | none => 0

/-- An access takes effect only when it is an aligned 32-bit access (R51). -/
def isWordAccess (a : BitVec 12) (width : Nat) : Bool := width = 4 && a.toNat % 4 = 0

end Sys2Proof.Machine
end

