-- ==== Sys2Proof/Machine/Ops.lean ====
section
/-! DEFINITION. The shared operations: one named update per group of fields, the four channel primitives
(20_memory.md R53 to R58), error entry and completion (60_exceptions.md R194, R195), and the result of a
command's pseudocode (00_scope.md R16, R18). -/

namespace Sys2Proof.Machine

/-! ### Updates of the state -/

/-- `FREQ[b] <- v` (R13). -/
def State.setFreq (s : State) (b : Byte) (v : Nat) : State := { s with freq := s.freq.set b.toNat v b.isLt }

/-- `FREQ[b]` (R22). -/
def State.freqAt (s : State) (b : Byte) : Nat := s.freq[b.toNat]'b.isLt

/-- `FREQ[0..255] <- 0`. -/
def State.clearFreq (s : State) : State := { s with freq := Vector.replicate 256 0 }

/-- `TREE <- t ; STATUS.TREE_VALID <- 1 ; NLEAF <- leaves(t)` (R33, R40). -/
def State.storeTree (s : State) (t : Tree) : State :=
  { s with tree := some t, status := { s.status with treeValid := true }, nleaf := BitVec.ofNat 10 t.leaves }

/-- `TREE <- none ; STATUS.TREE_VALID <- 0 ; NLEAF <- 0`. -/
def State.dropTree (s : State) : State :=
  { s with tree := none, status := { s.status with treeValid := false }, nleaf := 0 }

/-- `CODE <- c ; STATUS.CODE_VALID <- 1` (R34). -/
def State.storeCode (s : State) (c : Vector (Option Bits) 257) : State :=
  { s with code := c, status := { s.status with codeValid := true } }

/-- `CODE <- none everywhere ; STATUS.CODE_VALID <- 0` (R26). -/
def State.dropCode (s : State) : State :=
  { s with code := Vector.replicate 257 none, status := { s.status with codeValid := false } }

/-- `STATUS.EOS <- b` (R35). -/
def State.setEos (s : State) (b : Bool) : State := { s with status := { s.status with eos := b } }

/-- `STATUS.DSTATE <- d` (R37). -/
def State.setDState (s : State) (d : DState) : State := { s with status := { s.status with dstate := d } }

/-- `RESULT <- x` (R39). -/
def State.setResult (s : State) (x : Symbol) : State := { s with result := BitVec.ofNat 9 x.val }

/-- `IN.cur <- c ; INPOS <- c mod 2^32` (R53). -/
def State.seekIn (s : State) (c : Nat) : State := { s with inCur := c, inpos := BitVec.ofNat 32 c }

/-- `OUT.bits <- OUT.bits ++ bs ; OUTPOS <- (OUTPOS + |bs|) mod 2^32` (R56). -/
def State.appendOut (s : State) (bs : Bits) : State :=
  { s with outBits := s.outBits ++ bs, outpos := s.outpos + BitVec.ofNat 32 bs.length }

/-- Record the passes (R64, R216, log 19). -/
def State.setPasses (s : State) (p : Passes) : State := { s with passes := p }

/-- `STATUS.OVR <- 1` (R32). -/
def State.setOvr (s : State) : State := { s with status := { s.status with ovr := true } }

/-- Acceptance of a command word: `STATUS.BUSY <- 1`, its step pending (R194). What reads of `STATUS` show of OVR
from now on until completion is what it holds now (R61). -/
def State.accept (s : State) (w : Word) : State :=
  { s with status := { s.status with busy := true }, cmd := some w, ovrSeen := s.status.ovr }

/-- Completion: `STATUS.BUSY <- 0`, and the word is not kept (R28, R194). -/
def State.complete (s : State) : State :=
  { s with status := { s.status with busy := false }, cmd := none }

/-! ### Taking an error -/

/-- Error entry (R195): ERR, ERRCODE and ERROP, and nothing else. `op` is the opcode of the command word being
executed. There is no return from an error (R197, R198): CLR and reset clear these three fields. -/
def State.enterError (s : State) (op : Byte) (e : Err) : State :=
  { s with status := { s.status with err := true, errcode := some e, errop := op } }

/-- What CLR and reset do to the error fields (R181, R197). -/
def State.clearError (s : State) : State :=
  { s with status := { s.status with err := false, ovr := false, errcode := none, errop := 0 } }

/-! ### The result of a command's pseudocode -/

/-- How a piece of pseudocode ends: with a value, or by `raise` (R16); the state written so far is kept in both
cases (R196). `stuck` is the end of a loop's bound (log 11). -/
inductive Res (α : Type) where
  | ok (a : α) (s : State)
  | raise (e : Err) (s : State)
  | stuck
  deriving Repr

/-- Sequencing: the first `raise` ends the command (R16, R18). -/
def Res.bind {α β : Type} (r : Res α) (f : α → State → Res β) : Res β :=
  match r with
  | .ok a s => f a s
  | .raise e s => .raise e s
  | .stuck => .stuck

/-- One sub-step after another (R18, 46_drivers.md). -/
def Res.andThen (r : Res Unit) (f : State → Res Unit) : Res Unit := r.bind fun _ s => f s

/-- The end of a command (R194, R195): completion, after error entry where it raised. -/
def Res.finish (op : Byte) (r : Res Unit) : Host.Outcome State Fault Refusal :=
  match r with
  | .ok _ s => .next s.complete
  | .raise e s => .next (s.enterError op e).complete
  | .stuck => .fault .noProgress

/-- `if c: raise e` (R16), else go on with `k`. -/
def raiseIf (c : Bool) (e : Err) (s : State) (k : State → Res Unit) : Res Unit :=
  if c then .raise e s else k s

/-! ### The channels -/

/-- The channel collaborator's answer to the next call; an exhausted list answers `ok` (R57, log 4). -/
def State.takeAnswer (s : State) : Answer × State :=
  match s.answers with
  | [] => (.ok, s)
  | a :: rest => (a, { s with answers := rest })

/-- What `InRead(n)` returns (R14). -/
inductive ReadRes (n : Nat) where
  | val (v : BitVec n)
  | atEnd
  | fail
  deriving DecidableEq, Repr

/-- `InRead(n)` (R54): a failed or a short read consumes nothing. -/
def inRead (n : Nat) (s : State) : ReadRes n × State :=
  match s.takeAnswer with
  | (.fail, s) => (.fail, s)
  | (.ok, s) =>
    if s.inCur + n > s.inBits.length then (.atEnd, s)
    else (.val (BitVec.ofNat n (bitsVal ((s.inBits.drop s.inCur).take n))), s.seekIn (s.inCur + n))

/-- `InRewind()` (R55). -/
def inRewind (s : State) : Answer × State :=
  match s.takeAnswer with
  | (.fail, s) => (.fail, s)
  | (.ok, s) => (.ok, s.seekIn 0)

/-- `OutWrite(n, v)` (R56). -/
def outWrite (n v : Nat) (s : State) : Answer × State :=
  match s.takeAnswer with
  | (.fail, s) => (.fail, s)
  | (.ok, s) => (.ok, s.appendOut (msbf n v))

/-- How many padding bits close a bit string of `len` bits (R58). -/
def padLength (len : Nat) : Nat := (8 - len % 8) % 8

/-- The padding bits of the next draw, any bits (R58, log 5). -/
def State.padBits (s : State) : Bits :=
  (msbf 7 (Config.freePad s.draws).toNat).take (padLength s.outBits.length)

/-- The effect of a successful close: the padding is appended and not counted in OUTPOS (R58). -/
def State.closeOut (s : State) : State :=
  { s with outBits := s.outBits ++ s.padBits, draws := s.draws + 1,
           status := { s.status with oclosed := true } }

/-- `OutClose()` (R58). -/
def outClose (s : State) : Answer × State :=
  match s.takeAnswer with
  | (.fail, s) => (.fail, s)
  | (.ok, s) => (.ok, s.closeOut)

/-- A read inside a command: `Fail` raises `IO_IN` and `End` raises `short` (R190). -/
def readOr (n : Nat) (short : Err) (s : State) : Res (BitVec n) :=
  match inRead n s with
  | (.val v, s) => .ok v s
  | (.atEnd, s) => .raise short s
  | (.fail, s) => .raise .ioIn s

/-- A write inside a command: `Fail` raises `IO_OUT` (R190). -/
def writeOr (n v : Nat) (s : State) : Res Unit :=
  match outWrite n v s with
  | (.ok, s) => .ok () s
  | (.fail, s) => .raise .ioOut s

/-- The bits of a code, one 1-bit call each, first to last (R67, R150). -/
def writeBits : Bits → State → Res Unit
  | [], s => .ok () s
  | b :: bs, s => (writeOr 1 b.toNat s).andThen (writeBits bs)

/-- How many bits of IN are left from the cursor (R53). -/
def State.inLeft (s : State) : Nat := s.inBits.length - s.inCur

end Sys2Proof.Machine
end

