-- ==== Sys2Proof/Machine/Control.lean ====
section
/-! DEFINITION. The control commands (47_control.md R180 to R183). -/

namespace Sys2Proof.Machine

/-- R180: nothing. -/
def nopBody (s : State) : Res Unit := .ok () s

def execNop (s : State) : Host.Outcome State Fault Refusal := (nopBody s).finish (opcode .nop)

/-- R181. IN, its cursor, OUT, OUTPOS and OCLOSED are not changed. -/
def clrBody (s : State) : Res Unit :=
  .ok () { s.clearFreq.dropTree.dropCode.clearError.setEos false |>.setDState .idle with result := 0 }

def execClr (s : State) : Host.Outcome State Fault Refusal := (clrBody s).finish (opcode .clr)

/-- R182. -/
def rewindBody (s : State) : Res Unit :=
  match inRewind s with
  | (.ok, s) => .ok () s
  | (.fail, s) => .raise .ioIn s

def execRewind (s : State) : Host.Outcome State Fault Refusal := (rewindBody s).finish (opcode .rewind)

/-- R183. -/
def closeBody (s : State) : Res Unit :=
  raiseIf s.status.oclosed .outClosed s fun s =>
  match outClose s with
  | (.ok, s) => .ok () s
  | (.fail, s) => .raise .ioOut s

def execClose (s : State) : Host.Outcome State Fault Refusal := (closeBody s).finish (opcode .close)

end Sys2Proof.Machine
end

