-- ==== Sys2Proof/Machine/TreeCodec.lean ====
section
/-! DEFINITION. The magic word and the tree header (42_tree_codec.md R120 to R135). -/

namespace Sys2Proof.Machine

/-- R120. -/
def wmagicBody (s : State) : Res Unit :=
  raiseIf s.status.oclosed .outClosed s fun s => writeOr 32 s.params.magic.toNat s

def execWmagic (s : State) : Host.Outcome State Fault Refusal := (wmagicBody s).finish (opcode .wmagic)

/-- `emit` of R121, with the call sizes of R67. -/
def emitTree : Tree → State → Res Unit
  | .leaf x, s => (writeOr 1 1 s).andThen (writeOr 9 x.val)
  | .node l r, s => ((writeOr 1 0 s).andThen (emitTree l)).andThen (emitTree r)

/-- The tree a command reads, with `NO_TREE` where there is none (R190, R193). `STATUS.TREE_VALID` is checked, as
the pseudocode says; it mirrors `TREE` (R33), so the last case is met by no state of a run. -/
def withTree (s : State) (k : Tree → State → Res Unit) : Res Unit :=
  if s.status.treeValid then
    match s.tree with
    | some t => k t s
    | none => .raise .noTree s
  else .raise .noTree s

/-- R121. -/
def wtreeBody (s : State) : Res Unit :=
  withTree s fun t s => raiseIf s.status.oclosed .outClosed s (emitTree t)

def execWtree (s : State) : Host.Outcome State Fault Refusal := (wtreeBody s).finish (opcode .wtree)

/-- R125. -/
def rmagicBody (s : State) : Res Unit :=
  (readOr 32 .fmtMagicShort (s.setDState .expectMagic)).bind fun v s =>
  raiseIf (v ≠ s.params.magic) .fmtMagicBad s fun s => .ok () (s.setDState .readHeader)

def execRmagic (s : State) : Host.Outcome State Fault Refusal := (rmagicBody s).finish (opcode .rmagic)

/-- A value field and its leaf: the values 257 to 511 raise `FMT_TREE_SYM` (R130, R131). -/
def readLeaf (s : State) : Res Tree :=
  (readOr 9 .fmtTreeTrunc s).bind fun v s =>
  match symbolOf v with
  | some x => .ok (.leaf x) s
  | none => .raise .fmtTreeSym s

/-- `rd()` of R130: `n` counts the nodes started, and the new count is returned with the tree. `depth` bounds the
recursion: the nodes started are at least as many as the levels entered, so from `NODE_CAP` levels and 0 nodes
the bound ends exactly where the node cap of R132 does. -/
def readTree : (depth : Nat) → (n : Nat) → State → Res (Tree × Nat)
  | 0, _, s => .raise .fmtTreeOvf s
  | depth + 1, n, s =>
    if n = Config.nodeCap then .raise .fmtTreeOvf s
    else
      (readOr 1 .fmtTreeTrunc s).bind fun c s =>
      if c = 0 then
        (readTree depth (n + 1) s).bind fun ln s =>
        (readTree depth ln.2 s).bind fun rn s => .ok (.node ln.1 rn.1, rn.2) s
      else (readLeaf s).bind fun t s => .ok (t, n + 1) s

/-- A root leaf with a symbol other than `SENT` (R133). -/
def Tree.degenerate : Tree → Bool
  | .leaf x => x ≠ Config.sent
  | .node _ _ => false

/-- R130. -/
def rtreeBody (s : State) : Res Unit :=
  (readTree Config.nodeCap 0 ((s.setDState .readHeader).dropTree.dropCode)).bind fun tn s =>
  raiseIf tn.1.degenerate .fmtTreeDegen s fun s => .ok () ((s.storeTree tn.1).setDState .decode)

def execRtree (s : State) : Host.Outcome State Fault Refusal := (rtreeBody s).finish (opcode .rtree)

end Sys2Proof.Machine
end

