-- ==== Sys2Proof/Machine/Decoder.lean ====
section
/-! DEFINITION. The symbol decoder (45_decoder.md R160 to R163). -/

namespace Sys2Proof.Machine

/-- The tree walk of R160 from a node: the leaf test comes before each read. -/
def walk : Tree → State → Res Symbol
  | .leaf x, s => .ok x s
  | .node l r, s =>
    (readOr 1 .fmtDataTrunc s).bind fun c s => if c = 0 then walk l s else walk r s

/-- The start of a decode: EOS cleared, DSTATE DECODE (R161, R162). -/
def State.startDecode (s : State) : State := (s.setEos false).setDState .decode

/-- The sentinel is resolved: EOS set, DSTATE DONE (R161, R162). -/
def State.endDecode (s : State) : State := (s.setEos true).setDState .done

/-- R161. -/
def decsymBody (s : State) : Res Unit :=
  withTree s fun t s =>
  (walk t s.startDecode).bind fun x s =>
  let s := s.setResult x
  .ok () (if x = Config.sent then s.endDecode else s)

def execDecsym (s : State) : Host.Outcome State Fault Refusal := (decsymBody s).finish (opcode .decsym)

/-- The loop of R162 with at most `fuel` symbols. The sentinel is not emitted. -/
def decodeLoop (t : Tree) : (fuel : Nat) → State → Res Unit
  | 0, _ => .stuck
  | fuel + 1, s =>
    (walk t s).bind fun x s =>
    let s := s.setResult x
    if x = Config.sent then .ok () s.endDecode
    else (writeOr 8 x.val s).andThen (decodeLoop t fuel)

/-- R162. R219 bounds the symbols by the bits left, plus one. -/
def decodeBody (s : State) : Res Unit :=
  withTree s fun t s =>
  raiseIf s.status.oclosed .outClosed s fun s => decodeLoop t (s.inLeft + 1) s.startDecode

def execDecode (s : State) : Host.Outcome State Fault Refusal := (decodeBody s).finish (opcode .decode)

end Sys2Proof.Machine
end

