-- ==== Sys2Proof/Machine/CodeTable.lean ====
section
/-! DEFINITION. The code-table generator (43_code_table.md R140 to R144). -/

namespace Sys2Proof.Machine

/-- The code table. -/
abbrev CodeTable := Vector (Option Bits) 257

/-- `none everywhere` (R26). -/
def CodeTable.empty : CodeTable := Vector.replicate 257 none

/-- `walk` of R140: preorder, left first, so a repeated symbol keeps its last leaf's path (R143). -/
def genWalk : Tree → Bits → CodeTable → CodeTable
  | .leaf x, p, c => c.set x.val (some p) x.isLt
  | .node l r, p, c => genWalk r (p ++ [true]) (genWalk l (p ++ [false]) c)

/-- The code table of a tree (R140). -/
def genTable (t : Tree) : CodeTable := genWalk t [] CodeTable.empty

/-- R140. -/
def gencodeBody (s : State) : Res Unit := withTree s fun t s => .ok () (s.storeCode (genTable t))

def execGencode (s : State) : Host.Outcome State Fault Refusal := (gencodeBody s).finish (opcode .gencode)

end Sys2Proof.Machine
end

