-- ==== Sys2Proof/Machine/Encoder.lean ====
section
/-! DEFINITION. The symbol encoder (44_encoder.md R150 to R152). -/

namespace Sys2Proof.Machine

/-- `CODE[x]`. -/
def State.codeAt (s : State) (x : Symbol) : Option Bits := s.code[x.val]'x.isLt

/-- Look up a code and write exactly its bits (R150, R152). -/
def writeCode (x : Symbol) (s : State) : Res Unit :=
  match s.codeAt x with
  | none => .raise .noSymbol s
  | some bs => writeBits bs s

/-- The encoder's preconditions in the order of R193, then `k`. -/
def withEncoder (s : State) (k : State → Res Unit) : Res Unit :=
  raiseIf (!s.status.codeValid) .noCode s fun s => raiseIf s.status.oclosed .outClosed s k

/-- R150 on a symbol. -/
def encsymBody (x : Symbol) (s : State) : Res Unit := withEncoder s (writeCode x)

/-- R150. An operand above 256 is no legal `ENCSYM` (R84): decoding never gives one, and the meaning raises
`ILLEGAL` for it (log 12). -/
def encsymArgBody (a : BitVec 9) (s : State) : Res Unit :=
  match symbolOf a with
  | some x => encsymBody x s
  | none => .raise .illegal s

def execEncsym (a : BitVec 9) (s : State) : Host.Outcome State Fault Refusal :=
  (encsymArgBody a s).finish (opcode (.encsym a))

/-- The loop of R151 with at most `fuel` reads. The sentinel is not written. -/
def encodeLoop : (fuel : Nat) → State → Res Unit
  | 0, _ => .stuck
  | fuel + 1, s =>
    match inRead 8 s with
    | (.fail, s) => .raise .ioIn s
    | (.atEnd, s) => .ok () s
    | (.val v, s) => (writeCode (byteSymbol v) s).andThen (encodeLoop fuel)

/-- R151. R219 bounds the reads by the input. -/
def encodeBody (s : State) : Res Unit := withEncoder s fun s => encodeLoop (s.inLeft / 8 + 1) s

def execEncode (s : State) : Host.Outcome State Fault Refusal := (encodeBody s).finish (opcode .encode)

end Sys2Proof.Machine
end

