-- ==== Sys2Proof/Machine/Frequency.lean ====
section
/-! DEFINITION. The frequency counter (40_frequency.md R100 to R102). -/

namespace Sys2Proof.Machine

/-- Count one unit: a count at `CNT_MAX` raises `COUNT_OVF` and is unchanged (R100). -/
def countUnit (b : Byte) (s : State) : Res Unit :=
  raiseIf (s.freqAt b = s.params.cntMax) .countOvf s fun s => .ok () (s.setFreq b (s.freqAt b + 1))

/-- R100. An operand above 255 is no legal `CNTSYM` (R84): decoding never gives one, and the meaning raises
`ILLEGAL` for it (log 12). -/
def cntsymBody (b : BitVec 9) (s : State) : Res Unit :=
  raiseIf (255 < b.toNat) .illegal s (countUnit (b.setWidth 8))

def execCntsym (b : BitVec 9) (s : State) : Host.Outcome State Fault Refusal :=
  (cntsymBody b s).finish (opcode (.cntsym b))

/-- The loop of R101 with at most `fuel` reads. -/
def countLoop : (fuel : Nat) → State → Res Unit
  | 0, _ => .stuck
  | fuel + 1, s =>
    match inRead 8 s with
    | (.fail, s) => .raise .ioIn s
    | (.atEnd, s) => .ok () s
    | (.val v, s) => (countUnit v s).andThen (countLoop fuel)

/-- R101. R219 bounds the reads by the input. -/
def countBody (s : State) : Res Unit := countLoop (s.inLeft / 8 + 1) s

def execCount (s : State) : Host.Outcome State Fault Refusal := (countBody s).finish (opcode .count)

end Sys2Proof.Machine
end

