-- ==== Sys2Proof/Machine/TreeBuilder.lean ====
section
/-! DEFINITION. The tree builder (41_tree_builder.md R110 to R118). -/

namespace Sys2Proof.Machine

/-- An item `(w, q, t)` of `PQ`: weight, insertion number, subtree (R110). Weights never wrap (R118). -/
structure Item where
  w : Nat
  q : Nat
  t : Tree
  deriving DecidableEq, Repr

/-- The extraction order: least weight, then least insertion number (R112). -/
def Item.before (a b : Item) : Bool := a.w < b.w || (a.w = b.w && a.q < b.q)

/-- `extract_min` of the collection `x, xs`: the first item in the extraction order, and the rest (R112). -/
def extractMin : Item → List Item → Item × List Item
  | x, [] => (x, [])
  | x, y :: ys =>
    if y.before x then
      let (m, rest) := extractMin y ys
      (m, x :: rest)
    else
      let (m, rest) := extractMin x ys
      (m, y :: rest)

/-- The byte values in ascending order. -/
def allBytes : List Byte := (List.range 256).map (BitVec.ofNat 8)

/-- The weighted leaves in insertion order: the bytes with a nonzero count in ascending order, then the
sentinel with weight `SENT_WEIGHT` (R111, R112). -/
def weightedLeaves (freq : Vector Nat 256) : List (Nat × Symbol) :=
  ((allBytes.filter fun b => 0 < freq[b.toNat]'b.isLt).map fun b => (freq[b.toNat]'b.isLt, byteSymbol b))
    ++ [(Config.sentWeight, Config.sent)]

/-- `PQ` before the merges: insertion numbers count up from 0 (R112). -/
def initialItems (freq : Vector Nat 256) : List Item :=
  (weightedLeaves freq).zipIdx.map fun wsq => ⟨wsq.1.1, wsq.2, .leaf wsq.1.2⟩

/-- The merge loop of R110 with at most `fuel` merges: the first item extracted is the left child (R113), and the
merged node gets the next insertion number `q`. `none` if the bound ran out. -/
def mergeAll : (fuel : Nat) → (q : Nat) → List Item → Option Tree
  | _, _, [x] => some x.t
  | fuel + 1, q, x :: y :: rest =>
    match extractMin x (y :: rest) with
    | (a, z :: zs) =>
      match extractMin z zs with
      | (b, pq) => mergeAll fuel (q + 1) (pq ++ [⟨a.w + b.w, q, .node a.t b.t⟩])
    | (_, []) => none
  | _, _, _ => none

/-- The tree BUILD makes from the counts (R110, R114, R116). -/
def buildTree (freq : Vector Nat 256) : Option Tree :=
  let items := initialItems freq
  mergeAll items.length items.length items

/-- R110. -/
def buildBody (s : State) : Res Unit :=
  match buildTree s.freq with
  | some t => .ok () (s.storeTree t).dropCode
  | none => .stuck

def execBuild (s : State) : Host.Outcome State Fault Refusal := (buildBody s).finish (opcode .build)

end Sys2Proof.Machine
end

