-- ==== Sys2Proof/Machine/Drivers.lean ====
section
/-! DEFINITION. The compress and decompress drivers (46_drivers.md R170 to R173): the sub-steps' pseudocode in
order, the first `raise` ending the driver under the driver's own opcode. -/

namespace Sys2Proof.Machine

/-- R170. -/
def compressBody (s : State) : Res Unit :=
  (((((((((countBody s.clearFreq).andThen buildBody).andThen rewindBody).andThen wmagicBody).andThen
    wtreeBody).andThen gencodeBody).andThen encodeBody).andThen (encsymBody Config.sent)).andThen closeBody)

def execCompress (s : State) : Host.Outcome State Fault Refusal := (compressBody s).finish (opcode .compress)

/-- R171. -/
def decompressBody (s : State) : Res Unit :=
  ((((rmagicBody (s.setEos false)).andThen rtreeBody).andThen decodeBody).andThen closeBody)

def execDecompress (s : State) : Host.Outcome State Fault Refusal :=
  (decompressBody s).finish (opcode .decompress)

end Sys2Proof.Machine
end

