-- ==== Sys2Proof/Machine/Dispatch.lean ====
section
/-! DEFINITION. One arm per command (30_encoding.md R82). -/

namespace Sys2Proof.Machine

def exec (i : Instr) (s : State) : Host.Outcome State Fault Refusal :=
  match i with
  | .nop => Sys2Proof.Machine.execNop s
  | .clr => Sys2Proof.Machine.execClr s
  | .rewind => Sys2Proof.Machine.execRewind s
  | .close => Sys2Proof.Machine.execClose s
  | .cntsym b => Sys2Proof.Machine.execCntsym b s
  | .count => Sys2Proof.Machine.execCount s
  | .build => Sys2Proof.Machine.execBuild s
  | .wmagic => Sys2Proof.Machine.execWmagic s
  | .wtree => Sys2Proof.Machine.execWtree s
  | .rmagic => Sys2Proof.Machine.execRmagic s
  | .rtree => Sys2Proof.Machine.execRtree s
  | .gencode => Sys2Proof.Machine.execGencode s
  | .encsym a => Sys2Proof.Machine.execEncsym a s
  | .encode => Sys2Proof.Machine.execEncode s
  | .decsym => Sys2Proof.Machine.execDecsym s
  | .decode => Sys2Proof.Machine.execDecode s
  | .compress => Sys2Proof.Machine.execCompress s
  | .decompress => Sys2Proof.Machine.execDecompress s

end Sys2Proof.Machine
end

