-- ==== Sys2Proof/Machine/HostBus.lean ====
section
/-! DEFINITION. What a move of the host does (20_memory.md R51, R52, R61, R62, R64, R66; 60_exceptions.md R194;
70_reset_and_hazards.md R210, R216). -/

namespace Sys2Proof.Machine

/-- A write to `CMD` (R194): dropped with OVR while BUSY, dropped silently while ERR unless it is exactly NOP or
CLR, accepted otherwise. -/
def cmdWrite (w : Word) (s : State) : State :=
  if s.status.busy then s.setOvr
  else if s.status.err && w ≠ 0x00000000 && w ≠ 0x00000001 then s
  else s.accept w

/-- The host has overwritten `FREQ[b]`. Where nothing is left in `FREQ` that COUNT counted, its content is the host's own
(R102, R216, log 19). -/
def Passes.overwrite (p : Passes) (b : Byte) : Passes :=
  let own := p.own.filter (· ≠ b)
  { p with own := own, freq := if own = [] then none else p.freq }

/-- A write to `FREQ[b]` (R45, R62): dropped with OVR while BUSY; bits above `CNT_W - 1` are ignored.
The record of the passes follows (log 19). -/
def freqWrite (b : Byte) (v : Word) (s : State) : State :=
  if s.status.busy then s.setOvr else (s.setFreq b (v.toNat % 2 ^ s.params.cntW)).setPasses (s.passes.overwrite b)

/-- `MemWrite` (R51, R52): writes to read-only and reserved offsets are ignored. -/
def memWrite (a : BitVec 12) (width : Nat) (v : Word) (s : State) : State :=
  if isWordAccess a width then
    if a = offCmd then cmdWrite v s
    else match freqIndex a with
      | some b => freqWrite b v s
      | none => s
  else s

/-- `MemRead` (R51, R52, R61): while BUSY every register but STATUS reads as a free value (log 5). That the whole word is
free, the bits R49 hard-wires in RESULT, NLEAF and PARAM included, while reserved offsets read 0, is the model's choice
(DESIGN CHOICE, log 9). -/
def memRead (a : BitVec 12) (width : Nat) (s : State) : State :=
  if isWordAccess a width then
    if s.status.busy && a ≠ offStatus && isRegister a then
      { s with hostData := Config.freeRead s.draws, draws := s.draws + 1 }
    else { s with hostData := regValue s a }
  else { s with hostData := 0 }

/-- Attach an input: its cursor at the start (R66). -/
def State.attachIn (s : State) (bytes : List Byte) : State :=
  { s with inBits := bytesToBits bytes, inCur := 0, inpos := 0 }

/-- Attach an empty, open output (R66). -/
def State.attachOut (s : State) : State :=
  { s with outBits := [], outpos := 0, status := { s.status with oclosed := false } }

/-- The reset input (R210): every piece of state to its value of R48, a pending command abandoned. The parameters
are hard-wired, `IN.bits` is what is attached, and the environment's own fields stay (log 13). It
ends every compression; its pass numbers are not used again (log 19). -/
def State.resetInput (s : State) : State :=
  { State.reset with params := s.params, inBits := s.inBits, answers := s.answers, draws := s.draws,
                     script := s.script, hostData := s.hostData, hostOut := s.hostOut,
                     passes := Passes.closed s.passes.count }

/-- One move of the host (R66). Attaching a channel while BUSY = 1 is no move of the host (log 7). -/
def hostMove (m : HostMove) (s : State) : Host.Outcome State Fault Refusal :=
  match m with
  | .memWrite a width v => .next (memWrite a width v s)
  | .memRead a width => .next (memRead a width s)
  | .attachIn bytes => if s.status.busy then .refused .attachWhileBusy else .next (s.attachIn bytes)
  | .attachOut => if s.status.busy then .refused .attachWhileBusy else .next s.attachOut
  | .takeOut => .next { s with hostOut := s.outBits }
  | .reset => .next s.resetInput

/-- Whether a move attaches a channel. -/
def HostMove.attaches : HostMove → Bool
  | .attachIn _ | .attachOut => true
  | .memWrite _ _ _ | .memRead _ _ | .takeOut | .reset => false

/-- An accepted word that is not legal executes nothing and raises `ILLEGAL` (R84). -/
def illegalWord (w : Word) (s : State) : Host.Outcome State Fault Refusal :=
  (Res.raise .illegal s).finish (fieldOpc w)

end Sys2Proof.Machine
end

