-- ==== Sys2Proof/Machine/Passes.lean ====
section
/-! DEFINITION. The turns of the Core and of the host, with the two passes of a compression between which the host attaches
no channel (20_memory.md R64, R66; 70_reset_and_hazards.md R216; 93_implementation_defined.md; log 19). -/

namespace Sys2Proof.Machine

/-- The encoding pass over the code table's compression is done: nothing waits for it any more. -/
def Passes.encoded (p : Passes) : Passes :=
  let rest (o : Option Nat) : Option Nat := if o = p.code then none else o
  { p with freq := rest p.freq, tree := rest p.tree, code := none }

/-- The counters in which `old` and `new` differ. -/
def changedCounters (old new : Vector Nat 256) : List Byte :=
  ((old.toList.zip new.toList).zipIdx.filter fun x => x.1.1 ≠ x.1.2).map fun x => BitVec.ofNat 8 x.2

/-- COUNT has led from the counts `old` to the counts `new` without error: a counting pass, which also goes on with the
counts made before (R101, 92_eei_decisions.md D30). -/
def Passes.counted (p : Passes) (old new : Vector Nat 256) : Passes :=
  { p with count := p.count + 1, freq := some (p.count + 1),
           own := p.own.filter (· ∉ changedCounters old new) ++ changedCounters old new }

/-- The record after the command `i` has led from `s` to `t`. After an error it stays, for only CLR and reset go on from
there (R194, R197). BUILD and GENCODE pass the origin on (R110, R140); RTREE's tree comes from no counts (R130); CLR drops
all (R181), the drivers do both passes themselves (R170) or close the stream, and a closed stream ends its compression
(R217). -/
def passesAfter (i : Instr) (s t : State) : Passes :=
  if t.status.err then t.passes
  else match i with
    | .count => t.passes.counted s.freq t.freq
    | .build => { t.passes with tree := t.passes.freq, code := none }
    | .rtree => { t.passes with tree := none, code := none }
    | .gencode => { t.passes with code := t.passes.tree }
    | .encode => t.passes.encoded
    | .clr | .close | .compress | .decompress => Passes.closed t.passes.count
    | .nop | .rewind | .cntsym _ | .wmagic | .wtree | .rmagic | .encsym _ | .decsym | .decode => t.passes

/-- The outcome of the command `i` in the state `s`, with the passes recorded. -/
def recordPass (i : Instr) (s : State) : Host.Outcome State Fault Refusal → Host.Outcome State Fault Refusal
  | .next t => .next (t.setPasses (passesAfter i s t))
  | .fault f => .fault f
  | .refused r => .refused r

/-- The Core's step on an accepted word (R194): illegal words raise `ILLEGAL`, legal ones run. -/
def runWord (w : Word) (s : State) : Host.Outcome State Fault Refusal :=
  match decode w with
  | .ok i => recordPass i s (exec i s)
  | .error _ => illegalWord w s

/-- The Core's turn: its pending step, or nothing when it is idle (R205). -/
def coreTurn (s : State) : Host.Outcome State Fault Refusal :=
  match s.cmd with
  | some w => runWord w s
  | none => .next s

/-- Whether the Core's turn is an ENCODE that passes its checks and so reads IN (R151, R193), with a code table that comes
from one of the first `n` counting passes. -/
def encodesNow (n : Nat) (s : State) : Bool :=
  match s.cmd.map decode with
  | some (.ok .encode) => s.status.codeValid && !s.status.oclosed && s.passes.code.any (· ≤ n)
  | _ => false

/-- Whether the run that these turns lead to from `s` comes to such an ENCODE. It is followed as `step` takes it, the
commands the Core drops (R194) and those that fail included; an exhausted list leaves the Core its pending step. -/
def encodesCounted (n : Nat) : List Turn → State → Bool
  | [], s => encodesNow n s
  | .core :: rest, s =>
    encodesNow n s ||
      match coreTurn { s with script := rest } with
      | .next t => encodesCounted n rest t
      | .fault _ | .refused _ => false
  | .host m :: rest, s =>
    match hostMove m { s with script := rest } with
    | .next t => encodesCounted n rest t
    | .fault _ | .refused _ => false

/-- The host's turn. Attaching a channel between the COUNT and the ENCODE pass of one compression is no move of the host
(R64, R66, R216, log 19): the run that follows must not encode from counts made before. -/
def hostTurn (m : HostMove) (s : State) : Host.Outcome State Fault Refusal :=
  match hostMove m s with
  | .next t =>
    if m.attaches && encodesCounted s.passes.count s.script t then .refused .attachBetweenPasses else .next t
  | .fault f => .fault f
  | .refused r => .refused r

end Sys2Proof.Machine
end

