-- ==== Sys2Proof/Machine/Step.lean ====
section
/-! DEFINITION. One step of the whole machine: the turn the script says (60_exceptions.md R200), the Core's turn
being the atomic step of the pending command (20_memory.md R60). -/

namespace Sys2Proof.Machine

/-- One step. An exhausted script gives the turn to the Core (R219: the Core's step is eventually taken). -/
def step (s : State) : Host.Outcome State Fault Refusal :=
  match s.script with
  | [] => coreTurn s
  | .core :: rest => coreTurn { s with script := rest }
  | .host m :: rest => hostTurn m { s with script := rest }

/-- `s` with the command word `w` accepted and the Core's turn next, so that the very next step runs it. The
accepted word stands where the Core takes its next command from; there is no fetch at an address (R17, R65). -/
def State.withFetchWord (s : State) (nbits w : Nat) : State :=
  { s.accept (BitVec.ofNat 32 (w % 2 ^ nbits)) with script := .core :: s.script }

end Sys2Proof.Machine
end

