-- ==== Sys2Proof/Safety.lean ====
section
/-! DEFINITION. What claims are stated in: the machine's invariant (10_state.md R22 to R42), reliable channels
(20_memory.md R57), and how a command's end looks from outside (60_exceptions.md R194, R195). -/

namespace Sys2Proof.Machine

/-- The invariants of a stored tree (R25). That every leaf symbol is in `0..256` is in its type. -/
structure TreeInv (t : Tree) : Prop where
  full   : t.nodes = 2 * t.leaves - 1
  cap    : t.nodes ≤ Config.nodeCap
  leaves : t.leaves ≤ 257
  depth  : t.height ≤ Config.maxCodeLen
  root   : t.degenerate = false

/-- Every pass the record names is one of the first `count` (log 19). -/
def Passes.Done (p : Passes) : Prop :=
  ∀ k, p.freq = some k ∨ p.tree = some k ∨ p.code = some k → k ≤ p.count

/-- What every state of a run satisfies. -/
structure State.Inv (s : State) : Prop where
  /-- R23, R33 -/
  treeValid  : s.status.treeValid = s.tree.isSome
  /-- R25 -/
  treeOk     : ∀ t, s.tree = some t → TreeInv t
  /-- R40 -/
  nleaf      : s.nleaf.toNat = (s.tree.map Tree.leaves).getD 0
  /-- R26 -/
  codeOk     : s.status.codeValid = true → ∃ t, s.tree = some t ∧ s.code = genTable t
  /-- R26: the model holds a stale table as `none` everywhere -/
  codeNone   : s.status.codeValid = false → s.code = CodeTable.empty
  /-- R22 -/
  freqOk     : ∀ b, s.freqAt b ≤ s.params.cntMax
  /-- R39 -/
  resultOk   : s.result.toNat ≤ 256
  /-- R53 -/
  cursor     : s.inCur ≤ s.inBits.length
  /-- R53 -/
  wholeBytes : s.inBits.length % 8 = 0
  /-- R41, R53 -/
  inpos      : s.inpos = BitVec.ofNat 32 s.inCur
  /-- R30 -/
  busy       : s.status.busy = s.cmd.isSome
  /-- R29 -/
  errCode    : s.status.err = s.status.errcode.isSome
  /-- R29 -/
  errOp      : s.status.err = false → s.status.errop = 0
  /-- R194, R197 -/
  errPending : s.status.err = true → ∀ w, s.cmd = some w → w = 0 ∨ w = 1
  /-- R58 -/
  closed     : s.status.oclosed = true → s.outBits.length % 8 = 0
  /-- R42 -/
  outpos     : s.status.oclosed = false → s.outpos = BitVec.ofNat 32 s.outBits.length
  /-- The recorded passes are among those done (log 19). -/
  passesDone : s.passes.Done

/-- A reliable channel never answers `Fail` (R57). -/
def State.Reliable (s : State) : Prop := ∀ a ∈ s.answers, a = Answer.ok

/-- The next `k` channel calls are not answered `Fail`. -/
def State.OkFor (s : State) (k : Nat) : Prop := ∀ a ∈ s.answers.take k, a = Answer.ok

/-- The next `k` channel calls are answered `ok`, and the one after them `Fail`. -/
def State.FailsAt (s : State) (k : Nat) : Prop := s.OkFor k ∧ s.answers[k]? = some .fail

/-- It is the Core's turn (R200; an exhausted script gives the turn to the Core, log 3). -/
def State.CoreNext (s : State) : Prop := s.script = [] ∨ ∃ rest, s.script = .core :: rest

/-- `s` with the turn at the head of the script used up. -/
def State.turnTaken (s : State) : State := { s with script := s.script.tail }

/-- The bits of IN from the cursor on (R53). -/
def State.inRest (s : State) : Bits := s.inBits.drop s.inCur

/-- The input units from the cursor on: the whole bytes of the bits left (R54, R101). -/
def State.unitsLeft (s : State) : List Byte := bitsToBytes s.inRest

/-- `s` after `k` channel calls were answered (R57). -/
def State.afterCalls (s : State) (k : Nat) : State := { s with answers := s.answers.drop k }

/-- `s` with a command completed without error: BUSY falls (R194). -/
def State.done (s : State) : State := { s with status := { s.status with busy := false }, cmd := none }

/-- `s` with a command ended by `raise e` under the opcode `op` (R194, R195). -/
def State.failed (s : State) (op : Byte) (e : Err) : State :=
  { s with status := { s.status with busy := false, err := true, errcode := some e, errop := op }, cmd := none }

/-- The bits a header's channel calls carry, one entry a call: a control bit per node, and a value field after a leaf's
control bit (R67, R121, R130). -/
def headerCalls : Tree → List Bits
  | .leaf x => [[true], msbf 9 x.val]
  | .node l r => [false] :: (headerCalls l ++ headerCalls r)

/-- How RTREE leaves `s` when it raises `e` after `k` channel calls, with `n` bits consumed (R130): `TREE` none, DSTATE
READ_HEADER. -/
def State.rtreeFailed (s : State) (k n : Nat) (e : Err) : State :=
  { s with tree := none, nleaf := 0, code := Vector.replicate 257 none, inCur := s.inCur + n,
           inpos := BitVec.ofNat 32 (s.inCur + n), answers := s.answers.drop k,
           status := { s.status with treeValid := false, codeValid := false, dstate := .readHeader } }.failed 0x33 e

/-- `s` after DECODE resolved and wrote the bytes `xs`, each given with its path (R162). -/
def State.bytesDecoded (s : State) (xs : List (Byte × Bits)) : State :=
  { s with outBits := s.outBits ++ bytesToBits (xs.map Prod.fst),
           outpos := s.outpos + BitVec.ofNat 32 (8 * xs.length),
           result := (xs.getLast?.map fun a => a.1.setWidth 9).getD s.result,
           inCur := s.inCur + (xs.flatMap Prod.snd).length,
           inpos := BitVec.ofNat 32 (s.inCur + (xs.flatMap Prod.snd).length),
           answers := s.answers.drop ((xs.flatMap Prod.snd).length + xs.length),
           status := { s.status with eos := false, dstate := .decode } }

/-- The test of R83 on a word. -/
def legal (w : Word) : Bool :=
  w.extractLsb' 17 15 == 0 &&
    ((([0x00, 0x01, 0x02, 0x03, 0x11, 0x20, 0x30, 0x31, 0x32, 0x33, 0x40, 0x51, 0x60, 0x61, 0x70, 0x71] :
        List Byte).contains (w.extractLsb' 0 8) && w.extractLsb' 8 9 == 0)
      || (w.extractLsb' 0 8 == 0x10 && (w.extractLsb' 8 9).toNat ≤ 255)
      || (w.extractLsb' 0 8 == 0x50 && (w.extractLsb' 8 9).toNat ≤ 256))

/-- The codes of a sequence of symbols, one after another, `none` if one has no code (R92, R151). -/
def codesOf (c : CodeTable) : List Symbol → Option Bits
  | [] => some []
  | x :: xs =>
    match c.get x, codesOf c xs with
    | some bs, some rest => some (bs ++ rest)
    | _, _ => none

/-- The weight of a symbol under the counts (R111). -/
def weightOf (freq : Vector Nat 256) (x : Symbol) : Nat :=
  if h : x.val < 256 then freq[x.val]'h else Config.sentWeight

/-- The sum over the leaves of weight times depth (R119). -/
def Tree.cost (w : Symbol → Nat) (t : Tree) : Nat := (t.paths.map fun sp => w sp.1 * sp.2.length).sum

/-- A command sequence as a host runs it (R213): each command by its own step, `none` once one stops or has set
ERR. -/
def runCommands : List Instr → State → Option State
  | [], s => some s
  | i :: is, s =>
    match exec i s with
    | .next t => if t.status.err then none else runCommands is t
    | .fault _ => none
    | .refused _ => none

end Sys2Proof.Machine
end

