-- ==== Sys2Proof/Certificates/Slice0/Obligations.lean ====
section
/-! DEFINITION. The statements about the model, from the numbered rules of spec/. `s.done` is `s` with a command completed
without error and `s.failed op e` is `s` with a command ended by `raise e` (60_exceptions.md R194, R195). A record that
names only some fields of `s` says that every other field is unchanged: that is each statement's frame. -/

open Sys2Proof Sys2Proof.Machine

/-! ### Encoding and the host interface -/

/-- R80 to R83: decoding and encoding agree on every word and every command, operands included. -/
def Obligations.DecodeAndEncodeAgree : Prop :=
  ∀ (w : Word) (i : Instr), decode w = .ok i ↔ (i.wf = true ∧ encode i = w)

/-- R83: the words the decoder accepts are the legal ones. -/
def Obligations.LegalWordsDecode : Prop :=
  ∀ w : Word, (∃ i, decode w = .ok i) ↔ legal w = true

/-- R82: the words of the opcode map. -/
def Obligations.WordsOfTheOpcodeMap : Prop :=
  decode 0x00000000 = .ok .nop ∧ decode 0x00000001 = .ok .clr ∧ decode 0x00000002 = .ok .rewind ∧
  decode 0x00000003 = .ok .close ∧ decode 0x00000011 = .ok .count ∧ decode 0x00000020 = .ok .build ∧
  decode 0x00000030 = .ok .wmagic ∧ decode 0x00000031 = .ok .wtree ∧ decode 0x00000032 = .ok .rmagic ∧
  decode 0x00000033 = .ok .rtree ∧ decode 0x00000040 = .ok .gencode ∧ decode 0x00000051 = .ok .encode ∧
  decode 0x00000060 = .ok .decsym ∧ decode 0x00000061 = .ok .decode ∧ decode 0x00000070 = .ok .compress ∧
  decode 0x00000071 = .ok .decompress ∧
  (∀ b : Byte, decode (0x00000010 + (b.setWidth 32 <<< 8)) = .ok (.cntsym (b.setWidth 9))) ∧
  (∀ a : BitVec 9, a.toNat ≤ 256 → decode (0x00000050 + (a.setWidth 32 <<< 8)) = .ok (.encsym a))

/-- R84: an accepted word that is not legal executes nothing and raises ILLEGAL with ERROP `w[7:0]`. -/
def Obligations.IllegalWordRaisesIllegal : Prop :=
  ∀ (s : State) (w : Word), legal w = false → s.cmd = some w → s.CoreNext →
    step s = .next (s.turnTaken.failed (w.extractLsb' 0 8) .illegal)

/-- R60, R194, R200, R205: the Core's turn runs the pending command, decoded, and is idle without one; the host's turn is
the host's move. The turns themselves are the model's script (log 3). Beside a command the step records the passes of
compressions (R64, R216): that record is the model's (log 19), and the last clause says what it is. -/
def Obligations.StepRunsTheDecodedCommand : Prop :=
  (∀ (s : State) (w : Word) (i : Instr), s.cmd = some w → decode w = .ok i → s.CoreNext →
    step s = recordPass i s.turnTaken (exec i s.turnTaken)) ∧
  (∀ s : State, s.cmd = none → s.CoreNext → step s = .next s.turnTaken) ∧
  (∀ (s : State) (m : HostMove) (rest : List Turn), s.script = .host m :: rest →
    step s = hostTurn m { s with script := rest }) ∧
  (∀ (i : Instr) (s t : State),
    recordPass i s (.next t) = .next { t with passes := passesAfter i s t } ∧
    (∀ f, recordPass i s (.fault f) = .fault f) ∧ (∀ x, recordPass i s (.refused x) = .refused x) ∧
    (t.status.err = true → passesAfter i s t = t.passes) ∧
    (t.status.err = false →
      (∃ own, (∀ b, b ∈ own ↔ b ∈ t.passes.own ∨ s.freqAt b ≠ t.freqAt b) ∧ passesAfter .count s t =
        { t.passes with count := t.passes.count + 1, own := own, freq := some (t.passes.count + 1) }) ∧
      passesAfter .build s t = { t.passes with tree := t.passes.freq, code := none } ∧
      passesAfter .rtree s t = { t.passes with tree := none, code := none } ∧
      passesAfter .gencode s t = { t.passes with code := t.passes.tree } ∧
      passesAfter .encode s t =
        { t.passes with freq := if t.passes.freq = t.passes.code then none else t.passes.freq,
                        tree := if t.passes.tree = t.passes.code then none else t.passes.tree, code := none } ∧
      (i ∈ [Instr.clr, .close, .compress, .decompress] → passesAfter i s t =
        { count := t.passes.count, own := [], freq := none, tree := none, code := none }) ∧
      (i ∉ [Instr.count, .build, .rtree, .gencode, .encode, .clr, .close, .compress, .decompress] →
        passesAfter i s t = t.passes)))

/-- R194: what a write of `w` to CMD does, and what the Core's step on an accepted word does. `ovrSeen` is the model's
record of OVR at acceptance (log 9) and `recordPass` its record of the passes of a compression (log 19). -/
def Obligations.CommandAcceptance : Prop :=
  (∀ (s : State) (w : Word) (rest : List Turn), s.script = .host (.memWrite 0x000 4 w) :: rest →
    (s.status.busy = true →
      step s = .next { s with script := rest, status := { s.status with ovr := true } }) ∧
    (s.status.busy = false → s.status.err = true → w ≠ 0x00000000 → w ≠ 0x00000001 →
      step s = .next { s with script := rest }) ∧
    (s.status.busy = false → (s.status.err = false ∨ w = 0x00000000 ∨ w = 0x00000001) →
      step s = .next { s with script := rest, status := { s.status with busy := true }, cmd := some w,
                              ovrSeen := s.status.ovr })) ∧
  (∀ (s : State) (w : Word), s.cmd = some w → s.CoreNext →
    (legal w = false → step s = .next (s.turnTaken.failed (w.extractLsb' 0 8) .illegal)) ∧
    (legal w = true → ∃ i, decode w = .ok i ∧ step s = recordPass i s.turnTaken (exec i s.turnTaken)) ∧
    (∀ t, step s = .next t → t.status.busy = false))

/-- R45: the FREQ registers, read and written. The model's record of the passes follows the write:
where nothing is left that COUNT counted, the counts are the host's own (R102, R216, log 19). -/
def Obligations.FreqRegisters : Prop :=
  ∀ (s : State) (b : Byte) (v : Word) (rest : List Turn),
    (s.script = .host (.memRead (BitVec.ofNat 12 (0x400 + 4 * b.toNat)) 4) :: rest → s.status.busy = false →
      step s = .next { s with script := rest, hostData := BitVec.ofNat 32 (s.freq[b.toNat]'b.isLt) }) ∧
    (s.script = .host (.memWrite (BitVec.ofNat 12 (0x400 + 4 * b.toNat)) 4 v) :: rest → s.status.busy = false →
      step s = .next { s with script := rest,
                              freq := s.freq.set b.toNat (v.toNat % 2 ^ (s.params.cntWPred.val + 1)) b.isLt,
                              passes :=
                                { s.passes with
                                  own := s.passes.own.filter (· ≠ b)
                                  freq := if s.passes.own.filter (· ≠ b) = [] then none else s.passes.freq } }) ∧
    (s.script = .host (.memWrite (BitVec.ofNat 12 (0x400 + 4 * b.toNat)) 4 v) :: rest → s.status.busy = true →
      step s = .next { s with script := rest, status := { s.status with ovr := true } })

/-- R62: while BUSY = 1 a write to CMD or FREQ changes nothing but OVR, and any other write changes nothing. -/
def Obligations.WritesWhileBusyAreDropped : Prop :=
  ∀ (s : State) (a : BitVec 12) (v : Word) (rest : List Turn),
    s.script = .host (.memWrite a 4 v) :: rest → s.status.busy = true → a.toNat % 4 = 0 →
    ((a.toNat = 0 ∨ (0x400 ≤ a.toNat ∧ a.toNat < 0x800)) →
      step s = .next { s with script := rest, status := { s.status with ovr := true } }) ∧
    (a.toNat ≠ 0 → ¬(0x400 ≤ a.toNat ∧ a.toNat < 0x800) → step s = .next { s with script := rest })

/-- R51: an access that is not an aligned 32-bit access is ignored, or reads 0, also while BUSY (log 9). -/
def Obligations.OtherAccessesAreIgnored : Prop :=
  ∀ (s : State) (a : BitVec 12) (width : Nat) (v : Word) (rest : List Turn), (width ≠ 4 ∨ a.toNat % 4 ≠ 0) →
    (s.script = .host (.memWrite a width v) :: rest → step s = .next { s with script := rest }) ∧
    (s.script = .host (.memRead a width) :: rest → step s = .next { s with script := rest, hostData := 0 })

/-- R46: reserved offsets read 0 and ignore writes, also while BUSY (the latter is the model's choice, log 9). -/
def Obligations.ReservedOffsets : Prop :=
  ∀ (s : State) (a : BitVec 12) (v : Word) (rest : List Turn), a.toNat % 4 = 0 →
    ((0x020 ≤ a.toNat ∧ a.toNat ≤ 0x3FC) ∨ 0x800 ≤ a.toNat) →
    (s.script = .host (.memWrite a 4 v) :: rest → step s = .next { s with script := rest }) ∧
    (s.script = .host (.memRead a 4) :: rest → step s = .next { s with script := rest, hostData := 0 })

/-- R28, R29, R39 to R44, R52: the value each register reads as when no command is executing, and that the read-only ones
ignore writes; a read changes nothing of the core. -/
def Obligations.RegistersReadAndIgnoreWrites : Prop :=
  ∀ (s : State) (rest : List Turn), s.status.busy = false →
    (∀ a d, (a, d) ∈ ([(0x000, 0), (0x004, s.status.word), (0x008, s.result.setWidth 32), (0x00C, s.nleaf.setWidth 32),
          (0x010, s.inpos), (0x014, s.outpos), (0x018, s.params.magic),
          (0x01C, BitVec.ofNat 32 (s.params.cntWPred.val + 1))] : List (BitVec 12 × Word)) →
      s.script = .host (.memRead a 4) :: rest → step s = .next { s with script := rest, hostData := d }) ∧
    (∀ a v, a ∈ ([0x004, 0x008, 0x00C, 0x010, 0x014, 0x018, 0x01C] : List (BitVec 12)) →
      s.script = .host (.memWrite a 4 v) :: rest → step s = .next { s with script := rest })

/-- R61: while BUSY = 1 STATUS reads with BUSY = 1 and with OVR as it was when the command was accepted and every other
register reads as a free value, which no statement constrains (log 5); that its hard-wired bits (R49) are free with it is the
model's choice (log 9). No move of the host but reset changes another field of STATUS while BUSY. -/
def Obligations.ReadsWhileBusy : Prop :=
  (∀ (s : State) (a : BitVec 12) (rest : List Turn), s.script = .host (.memRead a 4) :: rest → s.status.busy = true →
    (a = 0x004 → ∃ d : Word, step s = .next { s with script := rest, hostData := d } ∧ d.getLsbD 0 = true ∧
      d.getLsbD 2 = s.ovrSeen ∧ ∀ k, k ≠ 2 → d.getLsbD k = s.status.word.getLsbD k) ∧
    (a ≠ 0x004 → a.toNat % 4 = 0 → (a.toNat < 0x020 ∨ (0x400 ≤ a.toNat ∧ a.toNat < 0x800)) →
      ∃ d, step s = .next { s with script := rest, hostData := d, draws := s.draws + 1 })) ∧
  (∀ (s t : State) (m : HostMove) (rest : List Turn), s.script = .host m :: rest → s.status.busy = true → m ≠ .reset →
    step s = .next t → t.ovrSeen = s.ovrSeen ∧ t.cmd = s.cmd ∧ t.status = { s.status with ovr := t.status.ovr })

/-- R29, R37, R49, R190: where the STATUS fields stand, and the codes of the stages and errors. -/
def Obligations.StatusLayout : Prop :=
  (∀ t : Status, t.word.getLsbD 0 = t.busy ∧ t.word.getLsbD 1 = t.err ∧ t.word.getLsbD 2 = t.ovr ∧
    t.word.getLsbD 3 = t.treeValid ∧ t.word.getLsbD 4 = t.codeValid ∧ t.word.getLsbD 5 = t.eos ∧
    t.word.getLsbD 6 = t.oclosed ∧ t.word.getLsbD 7 = false ∧ t.word.extractLsb' 8 3 = t.dstate.code ∧
    t.word.extractLsb' 11 5 = 0 ∧ t.word.extractLsb' 16 8 = (t.errcode.map Err.code).getD 0 ∧
    t.word.extractLsb' 24 8 = t.errop) ∧
  [DState.idle, .expectMagic, .readHeader, .decode, .done].map DState.code = [0, 1, 2, 3, 4] ∧
  [Err.illegal, .noTree, .noCode, .noSymbol, .countOvf, .outClosed, .fmtMagicShort, .fmtMagicBad, .fmtTreeTrunc,
    .fmtTreeSym, .fmtTreeOvf, .fmtTreeDegen, .fmtDataTrunc, .ioIn, .ioOut].map Err.code =
    [0x01, 0x02, 0x03, 0x04, 0x05, 0x06, 0x10, 0x11, 0x12, 0x13, 0x14, 0x15, 0x16, 0x20, 0x21]

/-- R64, R66, R216: attaching a channel, and taking the output; IN stays unchanged while a command executes, and after an
attach no run comes to an ENCODE that reads IN with a code table from counts made before it. The host has no attach while
BUSY = 1 or between the COUNT and the ENCODE pass of a compression (93_implementation_defined.md: `refuse`); that the model
refuses such a move by name is its way of not giving it (log 7). Where the passes lie is the model's record `passes` with
the run that follows (`encodesCounted`, which the last clauses give for every turn: it follows the step, but a later
attach with BUSY = 0 as taking effect, and it ends where a Core's turn stops) (log 19). Passes are numbered upwards, so that
one counted after the attach has a number above `s.passes.count`. R66's table gives taking the
output after OCLOSED = 1; that it gives the bits so far before the close is deduced from R217 and
93_implementation_defined.md (log 8). -/
def Obligations.AttachingChannels : Prop :=
  (∀ (s t : State) (bytes : List Byte) (rest : List Turn),
    (s.script = .host (.attachIn bytes) :: rest → s.status.busy = false →
      t = { s with script := rest, inBits := bytesToBits bytes, inCur := 0, inpos := 0 } →
      step s = if encodesCounted s.passes.count rest t then .refused .attachBetweenPasses else .next t) ∧
    (s.script = .host .attachOut :: rest → s.status.busy = false →
      t = { s with script := rest, outBits := [], outpos := 0, status := { s.status with oclosed := false } } →
      step s = if encodesCounted s.passes.count rest t then .refused .attachBetweenPasses else .next t) ∧
    ((s.script = .host (.attachIn bytes) :: rest ∨ s.script = .host .attachOut :: rest) → s.status.busy = true →
      step s = .refused .attachWhileBusy) ∧
    (s.script = .host .takeOut :: rest → step s = .next { s with script := rest, hostOut := s.outBits })) ∧
  (∀ s t : State, step s = .next t → s.status.busy = true → t.inBits = s.inBits) ∧
  (∀ (s t u : State) (rest : List Turn),
    (s.script = .host .attachOut :: rest ∨ ∃ bytes, s.script = .host (.attachIn bytes) :: rest) → step s = .next t →
    Relation.ReflTransGen (fun a b => step a = .next b) t u → u.CoreNext →
    ¬∃ w k, u.cmd = some w ∧ decode w = .ok .encode ∧ u.status.codeValid = true ∧ u.status.oclosed = false ∧
      u.passes.code = some k ∧ k ≤ s.passes.count) ∧
  (∀ s t : State, step s = .next t → s.passes.count ≤ t.passes.count) ∧
  (∀ (n : Nat) (s : State) (rest : List Turn),
    (encodesCounted n [] s = true ↔ ∃ w k, s.cmd = some w ∧ decode w = .ok .encode ∧ s.status.codeValid = true ∧
      s.status.oclosed = false ∧ s.passes.code = some k ∧ k ≤ n) ∧
    (∀ t, step { s with script := .core :: rest } = .next t →
      encodesCounted n (.core :: rest) s = (encodesCounted n [] s || encodesCounted n rest t)) ∧
    ((∀ t, step { s with script := .core :: rest } ≠ .next t) →
      encodesCounted n (.core :: rest) s = encodesCounted n [] s) ∧
    (∀ bytes, s.status.busy = false → encodesCounted n (.host (.attachIn bytes) :: rest) s =
      encodesCounted n rest { s with script := rest, inBits := bytesToBits bytes, inCur := 0, inpos := 0 }) ∧
    (s.status.busy = false → encodesCounted n (.host .attachOut :: rest) s =
      encodesCounted n rest { s with script := rest, outBits := [], outpos := 0,
                                     status := { s.status with oclosed := false } }) ∧
    (∀ m t, step { s with script := .host m :: rest } = .next t →
      encodesCounted n (.host m :: rest) s = encodesCounted n rest t) ∧
    (∀ m, step { s with script := .host m :: rest } = .refused .attachWhileBusy →
      encodesCounted n (.host m :: rest) s = false))

/-- R210: the reset input, also while BUSY = 1. `IN.bits` and the model's own fields of the environment stay (log 13); the
record says that every compression has ended, and the number of passes goes on (log 19). -/
def Obligations.ResetInput : Prop :=
  ∀ (s : State) (rest : List Turn), s.script = .host .reset :: rest →
    step s = .next
      { params := s.params, freq := Vector.replicate 256 0, tree := none, code := Vector.replicate 257 none,
        status := { busy := false, err := false, ovr := false, treeValid := false, codeValid := false, eos := false,
                    oclosed := false, dstate := .idle, errcode := none, errop := 0 },
        result := 0, nleaf := 0, inpos := 0, outpos := 0, cmd := none, ovrSeen := false, inBits := s.inBits, inCur := 0, outBits := [],
        answers := s.answers, draws := s.draws, script := rest, hostData := s.hostData, hostOut := s.hostOut,
        passes := { count := s.passes.count, own := [], freq := none, tree := none, code := none } }

/-- R48: the values after reset that the spec gives; `MAGIC` and `PARAM` are hard-wired to the core's parameters. -/
def Obligations.ResetValues : Prop :=
  State.reset.status.word = 0x00000000 ∧ (∀ b : Byte, State.reset.freq[b.toNat]'b.isLt = 0) ∧
  State.reset.tree = none ∧ (∀ x : Symbol, State.reset.code.get x = none) ∧ State.reset.result = 0 ∧
  State.reset.nleaf = 0 ∧ State.reset.inpos = 0 ∧ State.reset.inCur = 0 ∧ State.reset.outpos = 0 ∧
  State.reset.outBits = [] ∧ State.reset.cmd = none ∧ State.reset.params = Config.params

/-! ### The invariant and whole-machine rules -/

/-- The machine's invariant holds right after reset (R48). -/
def Obligations.ResetMeetsTheInvariant : Prop := State.reset.Inv

/-- R22 to R26, R30, R33, R34, R39 to R42, R53, R58, and the record of the passes (the model's, log 19): every step, whoever's
turn it is, keeps the invariant. -/
def Obligations.StepKeepsTheInvariant : Prop :=
  ∀ s t : State, s.Inv → step s = .next t → t.Inv

/-- R219, R30: every accepted command completes: the Core's step on it answers a next state with BUSY = 0. -/
def Obligations.AcceptedCommandsComplete : Prop :=
  ∀ (s : State) (w : Word), s.Inv → s.cmd = some w → s.CoreNext →
    ∃ t, step s = .next t ∧ t.status.busy = false ∧ t.cmd = none

/-- A step from a state of the invariant never faults, and is refused only where the host attaches a channel while BUSY or
between the passes of a compression (R64, R66; the refusals are the model's, log 7, log 19). -/
def Obligations.StepsStopOnlyAtAttach : Prop :=
  ∀ s : State, s.Inv → (∃ t, step s = .next t) ∨
    ∃ m rest, s.script = .host m :: rest ∧ (m = .attachOut ∨ ∃ bytes, m = .attachIn bytes) ∧
      ((step s = .refused .attachWhileBusy ∧ s.status.busy = true) ∨
        (step s = .refused .attachBetweenPasses ∧ s.status.busy = false ∧
          ∃ t, hostMove m { s with script := rest } = .next t ∧ encodesCounted s.passes.count rest t = true))

/-- R43, R44, R53, R28, R32: no command changes the hard-wired parameters, IN's bits, the host's own fields, the record of the
passes (the step keeps it, log 19) or the turns to come; every command leaves BUSY = 0 with no word kept; OVR is cleared by
no command but CLR. -/
def Obligations.CommandsKeepTheEnvironment : Prop :=
  ∀ (i : Instr) (s t : State), exec i s = .next t →
    t.params = s.params ∧ t.inBits = s.inBits ∧ t.script = s.script ∧ t.hostData = s.hostData ∧ t.hostOut = s.hostOut ∧
    t.passes = s.passes ∧ t.ovrSeen = s.ovrSeen ∧ t.status.busy = false ∧ t.cmd = none ∧
    (i ≠ .clr → t.status.ovr = s.status.ovr)

/-- R24, R26, R33 to R35, R37, R39, R100 to R102: which commands can change each table, result and status field. -/
def Obligations.TablesChangeOnlyByTheirCommands : Prop :=
  ∀ (i : Instr) (s t : State), exec i s = .next t →
    ((∀ b, i ≠ .cntsym b) → i ∉ [Instr.count, .compress, .clr] → t.freq = s.freq) ∧
    (i ∉ [Instr.build, .rtree, .compress, .decompress, .clr] →
      t.tree = s.tree ∧ t.nleaf = s.nleaf ∧ t.status.treeValid = s.status.treeValid) ∧
    (i ∉ [Instr.build, .rtree, .gencode, .compress, .decompress, .clr] →
      t.code = s.code ∧ t.status.codeValid = s.status.codeValid) ∧
    (i ∉ [Instr.decsym, .decode, .decompress, .clr] → t.result = s.result ∧ t.status.eos = s.status.eos) ∧
    (i ∉ [Instr.rmagic, .rtree, .decsym, .decode, .decompress, .clr] → t.status.dstate = s.status.dstate)

/-- R53, R56, R58, R67: which commands can move IN's cursor and which can change OUT. -/
def Obligations.ChannelsChangeOnlyByTheirCommands : Prop :=
  ∀ (i : Instr) (s t : State), exec i s = .next t →
    (i ∉ [Instr.rewind, .count, .encode, .rmagic, .rtree, .decsym, .decode, .compress, .decompress] →
      t.inCur = s.inCur ∧ t.inpos = s.inpos) ∧
    ((∀ a, i ≠ .encsym a) → i ∉ [Instr.wmagic, .wtree, .encode, .decode, .close, .compress, .decompress] →
      t.outBits = s.outBits ∧ t.outpos = s.outpos) ∧
    (i ∉ [Instr.close, .compress, .decompress] → t.status.oclosed = s.status.oclosed ∧ t.draws = s.draws)

/-- R36, R50, R56, R193, R196: OUT is append-only, nothing written is taken back, and a closed OUT is not written. -/
def Obligations.OutputIsAppendOnly : Prop :=
  ∀ (i : Instr) (s t : State), exec i s = .next t →
    s.outBits <+: t.outBits ∧
    (s.status.oclosed = true → t.outBits = s.outBits ∧ t.outpos = s.outpos ∧ t.status.oclosed = true) ∧
    (t.status.oclosed = false → s.status.oclosed = false ∧
      t.outpos = s.outpos + BitVec.ofNat 32 (t.outBits.length - s.outBits.length))

/-- R31, R38, R197: while ERR = 1 only CLR and reset clear the error, and the record is of the first error. -/
def Obligations.FirstErrorIsKept : Prop :=
  ∀ s t : State, s.Inv → s.status.err = true → step s = .next t →
    (t.status.err = true ∧ t.status.errcode = s.status.errcode ∧ t.status.errop = s.status.errop) ∨
    (s.cmd = some 0x00000001 ∧ s.CoreNext ∧ t.status.err = false) ∨
    (∃ rest, s.script = .host .reset :: rest ∧ t.status.err = false)

/-- R193: the precondition checks, in order, each before any other effect of the command. -/
def Obligations.PreconditionsInOrder : Prop :=
  ∀ s : State,
    (s.status.oclosed = true → exec .wmagic s = .next (s.failed 0x30 .outClosed)) ∧
    (s.status.treeValid = false → exec .wtree s = .next (s.failed 0x31 .noTree)) ∧
    (∀ t, s.status.treeValid = true → s.tree = some t → s.status.oclosed = true →
      exec .wtree s = .next (s.failed 0x31 .outClosed)) ∧
    (s.status.treeValid = false → exec .gencode s = .next (s.failed 0x40 .noTree)) ∧
    (∀ (a : BitVec 9) (h : a.toNat < 257),
      (s.status.codeValid = false → exec (.encsym a) s = .next (s.failed 0x50 .noCode)) ∧
      (s.status.codeValid = true → s.status.oclosed = true → exec (.encsym a) s = .next (s.failed 0x50 .outClosed)) ∧
      (s.status.codeValid = true → s.status.oclosed = false → s.code[a.toNat]'h = none →
        exec (.encsym a) s = .next (s.failed 0x50 .noSymbol))) ∧
    (s.status.codeValid = false → exec .encode s = .next (s.failed 0x51 .noCode)) ∧
    (s.status.codeValid = true → s.status.oclosed = true → exec .encode s = .next (s.failed 0x51 .outClosed)) ∧
    (s.status.treeValid = false → exec .decsym s = .next (s.failed 0x60 .noTree)) ∧
    (s.status.treeValid = false → exec .decode s = .next (s.failed 0x61 .noTree)) ∧
    (∀ t, s.status.treeValid = true → s.tree = some t → s.status.oclosed = true →
      exec .decode s = .next (s.failed 0x61 .outClosed)) ∧
    (s.status.oclosed = true → exec .close s = .next (s.failed 0x03 .outClosed))

/-! ### Control -/

/-- R180: NOP does nothing. -/
def Obligations.NopDoesNothing : Prop := ∀ s : State, exec .nop s = .next s.done

/-- R181: what CLR clears; the channels, their counters and OCLOSED are not changed. -/
def Obligations.ClrClears : Prop :=
  ∀ s : State, exec .clr s = .next
    { s with freq := Vector.replicate 256 0, tree := none, code := Vector.replicate 257 none, nleaf := 0, result := 0,
             cmd := none,
             status := { busy := false, err := false, ovr := false, treeValid := false, codeValid := false, eos := false,
                         oclosed := s.status.oclosed, dstate := .idle, errcode := none, errop := 0 } }

/-- R182: REWIND. -/
def Obligations.RewindRewinds : Prop :=
  ∀ s : State,
    (s.OkFor 1 → exec .rewind s = .next { s with inCur := 0, inpos := 0, answers := s.answers.drop 1 }.done) ∧
    (s.FailsAt 0 → exec .rewind s = .next ((s.afterCalls 1).failed 0x02 .ioIn))

/-- R183, R58: CLOSE appends 0 to 7 padding bits, of any value, and closes OUT; OUTPOS is not changed. -/
def Obligations.CloseCloses : Prop :=
  ∀ s : State,
    (s.status.oclosed = true → exec .close s = .next (s.failed 0x03 .outClosed)) ∧
    (s.status.oclosed = false → s.OkFor 1 →
      ∃ pad : Bits, pad.length = (8 - s.outBits.length % 8) % 8 ∧ (s.outBits ++ pad).length % 8 = 0 ∧
        exec .close s = .next
          { s with outBits := s.outBits ++ pad, status := { s.status with oclosed := true },
                   answers := s.answers.drop 1, draws := s.draws + 1 }.done) ∧
    (s.status.oclosed = false → s.FailsAt 0 → exec .close s = .next ((s.afterCalls 1).failed 0x03 .ioOut))

/-! ### Counting -/

/-- R100: CNTSYM counts one byte, and raises COUNT_OVF at CNT_MAX. -/
def Obligations.CntsymCounts : Prop :=
  ∀ (s : State) (b : BitVec 9) (h : b.toNat < 256),
    (s.freq[b.toNat]'h ≠ 2 ^ (s.params.cntWPred.val + 1) - 1 →
      exec (.cntsym b) s = .next { s with freq := s.freq.set b.toNat (s.freq[b.toNat]'h + 1) h }.done) ∧
    (s.freq[b.toNat]'h = 2 ^ (s.params.cntWPred.val + 1) - 1 →
      exec (.cntsym b) s = .next (s.failed 0x10 .countOvf))

/-- R101: COUNT counts every whole unit left and stops where a count would overflow or a read fails. `pre` are the units
counted before the stop. -/
def Obligations.CountCountsUnits : Prop :=
  ∀ s : State, s.Inv →
    (s.OkFor (s.unitsLeft.length + 1) → (∀ b, s.freqAt b + s.unitsLeft.count b ≤ s.params.cntMax) →
      ∃ f : Vector Nat 256, (∀ b : Byte, f[b.toNat]'b.isLt = s.freqAt b + s.unitsLeft.count b) ∧
        exec .count s = .next
          { s with freq := f, inCur := s.inCur + 8 * s.unitsLeft.length,
                   inpos := BitVec.ofNat 32 (s.inCur + 8 * s.unitsLeft.length),
                   answers := s.answers.drop (s.unitsLeft.length + 1) }.done) ∧
    (∀ pre b post, s.unitsLeft = pre ++ b :: post → s.OkFor (pre.length + 1) →
      (∀ c, s.freqAt c + pre.count c ≤ s.params.cntMax) → s.freqAt b + pre.count b = s.params.cntMax →
      ∃ f : Vector Nat 256, (∀ c : Byte, f[c.toNat]'c.isLt = s.freqAt c + pre.count c) ∧
        exec .count s = .next
          ({ s with freq := f, inCur := s.inCur + 8 * (pre.length + 1),
                    inpos := BitVec.ofNat 32 (s.inCur + 8 * (pre.length + 1)),
                    answers := s.answers.drop (pre.length + 1) }.failed 0x11 .countOvf)) ∧
    (∀ pre post, s.unitsLeft = pre ++ post → s.FailsAt pre.length →
      (∀ c, s.freqAt c + pre.count c ≤ s.params.cntMax) →
      ∃ f : Vector Nat 256, (∀ c : Byte, f[c.toNat]'c.isLt = s.freqAt c + pre.count c) ∧
        exec .count s = .next
          ({ s with freq := f, inCur := s.inCur + 8 * pre.length, inpos := BitVec.ofNat 32 (s.inCur + 8 * pre.length),
                    answers := s.answers.drop (pre.length + 1) }.failed 0x11 .ioIn))

/-! ### Building -/

/-- R110: BUILD succeeds for every content of FREQ; FREQ is only read; the code table becomes stale. -/
def Obligations.BuildStoresTheTree : Prop :=
  ∀ s : State, ∃ t, buildTree s.freq = some t ∧
    exec .build s = .next
      { s with tree := some t, nleaf := BitVec.ofNat 10 t.leaves, code := Vector.replicate 257 none,
               status := { s.status with treeValid := true, codeValid := false } }.done

/-- R111, R114, R117, R25: the leaves and the size of a built tree. -/
def Obligations.BuiltTreeLeaves : Prop :=
  ∀ (freq : Vector Nat 256) (t : Tree), buildTree freq = some t →
    t.symbols.Nodup ∧
    (∀ x : Symbol, x ∈ t.symbols ↔ x.val = 256 ∨ ∃ h : x.val < 256, 0 < freq[x.val]'h) ∧
    t.leaves = 1 + (allBytes.filter fun b => 0 < freq[b.toNat]'b.isLt).length ∧
    t.nodes = 2 * t.leaves - 1 ∧ t.leaves ≤ 257 ∧ t.height ≤ 256

/-- R110, R112, R113: `extract_min` takes the least weight, and the first inserted among equal weights; the leaves are
inserted in ascending byte value with the sentinel last, numbered from 0. A round of the merging extracts two items, the
first becoming the left child, and inserts their node with the sum of the weights and the next insertion number, the
first after those of the leaves; numbers stay distinct, so the two items are determined. One item left ends it. -/
def Obligations.ExtractionOrder : Prop :=
  (∀ (x : Item) (xs : List Item), ((x :: xs).map Item.q).Nodup →
    List.Perm ((extractMin x xs).1 :: (extractMin x xs).2) (x :: xs) ∧
    ∀ y ∈ (extractMin x xs).2, (extractMin x xs).1.w < y.w ∨
      ((extractMin x xs).1.w = y.w ∧ (extractMin x xs).1.q < y.q)) ∧
  (∀ freq : Vector Nat 256,
    (initialItems freq).map Item.q = List.range (initialItems freq).length ∧
    ((initialItems freq).flatMap fun i => i.t.symbols).Pairwise (fun a b => a.val < b.val) ∧
    ∀ i ∈ initialItems freq, ∃ x : Symbol, i.t = .leaf x ∧ i.w = weightOf freq x) ∧
  (∀ (fuel q : Nat) (x y : Item) (rest : List Item), ((x :: y :: rest).map Item.q).Nodup →
    (∀ i ∈ x :: y :: rest, i.q < q) →
    ∃ (a b : Item) (pq : List Item), List.Perm (a :: b :: pq) (x :: y :: rest) ∧
      (∀ z ∈ b :: pq, a.w < z.w ∨ (a.w = z.w ∧ a.q < z.q)) ∧
      (∀ z ∈ pq, b.w < z.w ∨ (b.w = z.w ∧ b.q < z.q)) ∧
      mergeAll (fuel + 1) q (x :: y :: rest) = mergeAll fuel (q + 1) (pq ++ [⟨a.w + b.w, q, .node a.t b.t⟩]) ∧
      ((pq ++ [(⟨a.w + b.w, q, .node a.t b.t⟩ : Item)]).map Item.q).Nodup ∧
      ∀ i ∈ pq ++ [(⟨a.w + b.w, q, .node a.t b.t⟩ : Item)], i.q < q + 1) ∧
  (∀ (fuel q : Nat) (x : Item), mergeAll fuel q [x] = some x.t) ∧
  (∀ freq : Vector Nat 256,
    buildTree freq = mergeAll (initialItems freq).length (initialItems freq).length (initialItems freq))

/-- R115, R144: all counts 0 give the single-leaf sentinel tree, whose only code is the empty string. -/
def Obligations.EmptyCountsBuildTheSentinelLeaf : Prop :=
  ∀ s : State, (∀ b, s.freqAt b = 0) →
    exec .build s = .next
      { s with tree := some (.leaf 256), nleaf := 1, code := Vector.replicate 257 none,
               status := { s.status with treeValid := true, codeValid := false } }.done ∧
    ∀ x : Symbol, (genTable (.leaf 256)).get x = if x = 256 then some [] else none

/-- R110, R112, R113: one nonzero count gives two leaves, the earlier inserted or the lighter one on the left. -/
def Obligations.OneByteBuilds : Prop :=
  ∀ (freq : Vector Nat 256) (b : Byte), 0 < freq[b.toNat]'b.isLt →
    (∀ c : Byte, c ≠ b → freq[c.toNat]'c.isLt = 0) →
    buildTree freq = some (if freq[b.toNat]'b.isLt = 1 then .node (.leaf (byteSymbol b)) (.leaf 256)
      else .node (.leaf 256) (.leaf (byteSymbol b)))

/-- R119: no tree on BUILD's leaves has a smaller sum of weight times depth. -/
def Obligations.BuildIsOptimal : Prop :=
  ∀ (freq : Vector Nat 256) (t u : Tree), buildTree freq = some t → List.Perm u.symbols t.symbols →
    t.cost (weightOf freq) ≤ u.cost (weightOf freq)

/-! ### The magic word and the header -/

/-- R120: WMAGIC. -/
def Obligations.WmagicWritesTheMagic : Prop :=
  ∀ s : State,
    (s.status.oclosed = true → exec .wmagic s = .next (s.failed 0x30 .outClosed)) ∧
    (s.status.oclosed = false → s.OkFor 1 →
      exec .wmagic s = .next
        { s with outBits := s.outBits ++ msbf 32 s.params.magic.toNat, outpos := s.outpos + 32,
                 answers := s.answers.drop 1 }.done) ∧
    (s.status.oclosed = false → s.FailsAt 0 → exec .wmagic s = .next ((s.afterCalls 1).failed 0x30 .ioOut))

/-- R121, R90, R91: WTREE writes the header of the tree, `11 * NLEAF - 1` bits; a failed call leaves the bits before it. -/
def Obligations.WtreeWritesTheHeader : Prop :=
  ∀ (s : State) (t : Tree), s.status.treeValid = true → s.tree = some t → s.status.oclosed = false →
    (ser t).length = 11 * t.leaves - 1 ∧
    (s.OkFor (t.nodes + t.leaves) →
      exec .wtree s = .next
        { s with outBits := s.outBits ++ ser t, outpos := s.outpos + BitVec.ofNat 32 (11 * t.leaves - 1),
                 answers := s.answers.drop (t.nodes + t.leaves) }.done) ∧
    (∀ k, k < t.nodes + t.leaves → s.FailsAt k →
      exec .wtree s = .next
        ({ s with outBits := s.outBits ++ ((headerCalls t).take k).flatten,
                  outpos := s.outpos + BitVec.ofNat 32 ((headerCalls t).take k).flatten.length,
                  answers := s.answers.drop (k + 1) }.failed 0x31 .ioOut)) ∧
    (headerCalls t).flatten = ser t ∧ (headerCalls t).length = t.nodes + t.leaves

/-- R125: RMAGIC accepts exactly the magic word. -/
def Obligations.RmagicChecksTheMagic : Prop :=
  ∀ s : State,
    (∀ (v : Word) (rest : Bits), s.inRest = msbf 32 v.toNat ++ rest → s.OkFor 1 →
      (v = s.params.magic →
        exec .rmagic s = .next
          { s with inCur := s.inCur + 32, inpos := BitVec.ofNat 32 (s.inCur + 32), answers := s.answers.drop 1,
                   status := { s.status with dstate := .readHeader } }.done) ∧
      (v ≠ s.params.magic →
        exec .rmagic s = .next
          ({ s with inCur := s.inCur + 32, inpos := BitVec.ofNat 32 (s.inCur + 32), answers := s.answers.drop 1,
                    status := { s.status with dstate := .expectMagic } }.failed 0x32 .fmtMagicBad))) ∧
    (s.inRest.length < 32 → s.OkFor 1 →
      exec .rmagic s = .next
        ({ s with answers := s.answers.drop 1,
                  status := { s.status with dstate := .expectMagic } }.failed 0x32 .fmtMagicShort)) ∧
    (s.FailsAt 0 →
      exec .rmagic s = .next
        ({ s with answers := s.answers.drop 1,
                  status := { s.status with dstate := .expectMagic } }.failed 0x32 .ioIn))

/-- R130, R135: RTREE rebuilds the tree whose header it reads and consumes exactly the header. -/
def Obligations.RtreeReadsTheHeader : Prop :=
  ∀ (s : State) (t : Tree) (rest : Bits), TreeInv t → s.inRest = ser t ++ rest → s.OkFor (t.nodes + t.leaves) →
    exec .rtree s = .next
      { s with tree := some t, nleaf := BitVec.ofNat 10 t.leaves, code := Vector.replicate 257 none,
               inCur := s.inCur + (ser t).length, inpos := BitVec.ofNat 32 (s.inCur + (ser t).length),
               answers := s.answers.drop (t.nodes + t.leaves),
               status := { s.status with treeValid := true, codeValid := false, dstate := .decode } }.done

/-- R130 to R133: what RTREE rejects, reading the calls `headerCalls t` of a header: a short read, a failed read and a bad
value field at call `k`, where the calls up to it start at most 513 nodes (a control bit starts one); a 514th node; and a
root leaf other than `SENT`. Each leaves `TREE` none and the bits read before it consumed. -/
def Obligations.RtreeRejectsBadHeaders : Prop :=
  ∀ s : State, s.Inv →
    (∀ (t : Tree) (k : Nat) (c rest : Bits), (headerCalls t)[k]? = some c →
      ((headerCalls t).take (k + 1)).countP (fun b => b.length = 1) ≤ 513 →
      s.inRest = ((headerCalls t).take k).flatten ++ rest →
      (rest.length < c.length → s.OkFor (k + 1) →
        exec .rtree s = .next (s.rtreeFailed (k + 1) ((headerCalls t).take k).flatten.length .fmtTreeTrunc)) ∧
      (s.FailsAt k →
        exec .rtree s = .next (s.rtreeFailed (k + 1) ((headerCalls t).take k).flatten.length .ioIn)) ∧
      (∀ (v : BitVec 9) (post : Bits), c.length = 9 → rest = msbf 9 v.toNat ++ post → 256 < v.toNat → s.OkFor (k + 1) →
        exec .rtree s = .next (s.rtreeFailed (k + 1) (((headerCalls t).take k).flatten.length + 9) .fmtTreeSym))) ∧
    (∀ (t : Tree) (k : Nat) (c rest : Bits), (headerCalls t)[k]? = some c → c.length = 1 →
      ((headerCalls t).take k).countP (fun b => b.length = 1) = 513 →
      s.inRest = ((headerCalls t).take k).flatten ++ rest → s.OkFor k →
      exec .rtree s = .next (s.rtreeFailed k ((headerCalls t).take k).flatten.length .fmtTreeOvf)) ∧
    (∀ (x : Symbol) (rest : Bits), x ≠ 256 → s.inRest = ser (.leaf x) ++ rest → s.OkFor 2 →
      exec .rtree s = .next (s.rtreeFailed 2 10 .fmtTreeDegen))

/-! ### Codes -/

/-- R140, R143: GENCODE gives each symbol the path of its last leaf in preorder, and every other entry `none`. -/
def Obligations.GencodeStoresThePaths : Prop :=
  ∀ (s : State) (t : Tree), s.status.treeValid = true → s.tree = some t →
    ∃ c : CodeTable,
      (∀ x : Symbol, c.get x = ((t.paths.filter fun sp => sp.1 = x).getLast?).map Prod.snd) ∧
      exec .gencode s = .next { s with code := c, status := { s.status with codeValid := true } }.done

/-- R142: no code is a prefix of another, and the codes of a tree with distinct symbols fill the code space. -/
def Obligations.CodesArePrefixFree : Prop :=
  ∀ t : Tree,
    (∀ (x y : Symbol) (p q : Bits), (genTable t).get x = some p → (genTable t).get y = some q → p <+: q → x = y) ∧
    (t.symbols.Nodup → t.height ≤ 256 →
      (∑ x : Symbol, match (genTable t).get x with | some p => 2 ^ (256 - p.length) | none => 0) = 2 ^ 256)

/-- R150: ENCSYM writes exactly the bits of the symbol's code; a failed call leaves the bits before it. -/
def Obligations.EncsymWritesTheCode : Prop :=
  ∀ (s : State) (a : BitVec 9) (h : a.toNat < 257) (bs : Bits), s.status.codeValid = true → s.status.oclosed = false →
    s.code[a.toNat]'h = some bs →
    (s.OkFor bs.length →
      exec (.encsym a) s = .next
        { s with outBits := s.outBits ++ bs, outpos := s.outpos + BitVec.ofNat 32 bs.length,
                 answers := s.answers.drop bs.length }.done) ∧
    (∀ k, k < bs.length → s.FailsAt k →
      exec (.encsym a) s = .next
        ({ s with outBits := s.outBits ++ bs.take k, outpos := s.outpos + BitVec.ofNat 32 k,
                  answers := s.answers.drop (k + 1) }.failed 0x50 .ioOut))

/-- R151: ENCODE writes the codes of every whole unit left, in order, and stops at a unit without a code, which is
consumed, at a failed read, and at a failed write inside a code, whose unit is consumed and whose bits before it stay. -/
def Obligations.EncodeWritesTheCodes : Prop :=
  ∀ s : State, s.Inv → s.status.codeValid = true → s.status.oclosed = false →
    (∀ bs, codesOf s.code (s.unitsLeft.map byteSymbol) = some bs → s.OkFor (s.unitsLeft.length + bs.length + 1) →
      exec .encode s = .next
        { s with outBits := s.outBits ++ bs, outpos := s.outpos + BitVec.ofNat 32 bs.length,
                 inCur := s.inCur + 8 * s.unitsLeft.length,
                 inpos := BitVec.ofNat 32 (s.inCur + 8 * s.unitsLeft.length),
                 answers := s.answers.drop (s.unitsLeft.length + bs.length + 1) }.done) ∧
    (∀ pre b post bs, s.unitsLeft = pre ++ b :: post → codesOf s.code (pre.map byteSymbol) = some bs →
      s.codeAt (byteSymbol b) = none → s.OkFor (pre.length + bs.length + 1) →
      exec .encode s = .next
        ({ s with outBits := s.outBits ++ bs, outpos := s.outpos + BitVec.ofNat 32 bs.length,
                  inCur := s.inCur + 8 * (pre.length + 1), inpos := BitVec.ofNat 32 (s.inCur + 8 * (pre.length + 1)),
                  answers := s.answers.drop (pre.length + bs.length + 1) }.failed 0x51 .noSymbol)) ∧
    (∀ pre post bs, s.unitsLeft = pre ++ post → codesOf s.code (pre.map byteSymbol) = some bs →
      s.FailsAt (pre.length + bs.length) →
      exec .encode s = .next
        ({ s with outBits := s.outBits ++ bs, outpos := s.outpos + BitVec.ofNat 32 bs.length,
                  inCur := s.inCur + 8 * pre.length, inpos := BitVec.ofNat 32 (s.inCur + 8 * pre.length),
                  answers := s.answers.drop (pre.length + bs.length + 1) }.failed 0x51 .ioIn)) ∧
    (∀ pre b post bs c k, s.unitsLeft = pre ++ b :: post → codesOf s.code (pre.map byteSymbol) = some bs →
      s.codeAt (byteSymbol b) = some c → k < c.length → s.FailsAt (pre.length + bs.length + 1 + k) →
      exec .encode s = .next
        ({ s with outBits := s.outBits ++ bs ++ c.take k, outpos := s.outpos + BitVec.ofNat 32 (bs.length + k),
                  inCur := s.inCur + 8 * (pre.length + 1), inpos := BitVec.ofNat 32 (s.inCur + 8 * (pre.length + 1)),
                  answers := s.answers.drop (pre.length + bs.length + 1 + k + 1) }.failed 0x51 .ioOut))

/-- R65, R215: after BUILD or RTREE the old codes are never used. -/
def Obligations.StaleCodesAreNotUsed : Prop :=
  ∀ (s t : State) (i : Instr) (a : BitVec 9), (i = .build ∨ i = .rtree) → exec i s = .next t → a.toNat ≤ 256 →
    t.status.codeValid = false ∧ exec (.encsym a) t = .next (t.failed 0x50 .noCode) ∧
    exec .encode t = .next (t.failed 0x51 .noCode)

/-! ### Decoding -/

/-- R160, R161: DECSYM resolves the leaf whose path it reads, and reads exactly that path; it writes no output. -/
def Obligations.DecsymResolvesASymbol : Prop :=
  ∀ (s : State) (t : Tree) (x : Symbol) (p : Bits), s.Inv → s.tree = some t → (x, p) ∈ t.paths →
    (∀ rest, s.inRest = p ++ rest → s.OkFor p.length →
      exec .decsym s = .next
        { s with result := BitVec.ofNat 9 x.val, inCur := s.inCur + p.length,
                 inpos := BitVec.ofNat 32 (s.inCur + p.length), answers := s.answers.drop p.length,
                 status := { s.status with eos := decide (x = 256), dstate := if x = 256 then .done else .decode } }.done) ∧
    (s.inRest <+: p → s.inRest ≠ p → s.OkFor (s.inRest.length + 1) →
      exec .decsym s = .next
        ({ s with inCur := s.inBits.length, inpos := BitVec.ofNat 32 s.inBits.length,
                  answers := s.answers.drop (s.inRest.length + 1),
                  status := { s.status with eos := false, dstate := .decode } }.failed 0x60 .fmtDataTrunc)) ∧
    (∀ k rest, s.inRest = p.take k ++ rest → k < p.length → s.FailsAt k →
      exec .decsym s = .next
        ({ s with inCur := s.inCur + k, inpos := BitVec.ofNat 32 (s.inCur + k), answers := s.answers.drop (k + 1),
                  status := { s.status with eos := false, dstate := .decode } }.failed 0x60 .ioIn))

/-- R162: DECODE writes the bytes of the symbols it resolves and ends at the sentinel, which it does not emit; it reads
nothing after the sentinel's path. -/
def Obligations.DecodeEndsAtTheSentinel : Prop :=
  ∀ (s : State) (t : Tree) (xs : List (Byte × Bits)) (p rest : Bits), s.Inv → s.tree = some t →
    s.status.oclosed = false → (∀ a ∈ xs, (byteSymbol a.1, a.2) ∈ t.paths) → ((256 : Symbol), p) ∈ t.paths →
    s.inRest = xs.flatMap Prod.snd ++ p ++ rest →
    s.OkFor ((xs.flatMap Prod.snd).length + xs.length + p.length) →
    exec .decode s = .next
      { s with outBits := s.outBits ++ bytesToBits (xs.map Prod.fst),
               outpos := s.outpos + BitVec.ofNat 32 (8 * xs.length), result := 256,
               inCur := s.inCur + (xs.flatMap Prod.snd ++ p).length,
               inpos := BitVec.ofNat 32 (s.inCur + (xs.flatMap Prod.snd ++ p).length),
               answers := s.answers.drop ((xs.flatMap Prod.snd).length + xs.length + p.length),
               status := { s.status with eos := true, dstate := .done } }.done

/-- R162, R196: DECODE stops after the bytes `xs` where IN runs out inside a path, where a read fails, or where a write fails;
the bytes before it stay in OUT and the bits read stay consumed. -/
def Obligations.DecodeStopsAtAnError : Prop :=
  ∀ (s : State) (t : Tree) (xs : List (Byte × Bits)) (x : Symbol) (p rest : Bits), s.Inv → s.tree = some t →
    s.status.oclosed = false → (∀ a ∈ xs, (byteSymbol a.1, a.2) ∈ t.paths) → (x, p) ∈ t.paths →
    (s.inRest = xs.flatMap Prod.snd ++ rest → rest <+: p → rest ≠ p →
      s.OkFor ((xs.flatMap Prod.snd).length + xs.length + rest.length + 1) →
      exec .decode s = .next
        ({ s.bytesDecoded xs with
            inCur := s.inBits.length, inpos := BitVec.ofNat 32 s.inBits.length,
            answers := s.answers.drop ((xs.flatMap Prod.snd).length + xs.length + rest.length + 1)
          }.failed 0x61 .fmtDataTrunc)) ∧
    (∀ k, k < p.length → s.inRest = xs.flatMap Prod.snd ++ (p.take k ++ rest) →
      s.FailsAt ((xs.flatMap Prod.snd).length + xs.length + k) →
      exec .decode s = .next
        ({ s.bytesDecoded xs with
            inCur := s.inCur + (xs.flatMap Prod.snd).length + k,
            inpos := BitVec.ofNat 32 (s.inCur + (xs.flatMap Prod.snd).length + k),
            answers := s.answers.drop ((xs.flatMap Prod.snd).length + xs.length + k + 1) }.failed 0x61 .ioIn)) ∧
    (x ≠ 256 → s.inRest = xs.flatMap Prod.snd ++ (p ++ rest) →
      s.FailsAt ((xs.flatMap Prod.snd).length + xs.length + p.length) →
      exec .decode s = .next
        ({ s.bytesDecoded xs with
            inCur := s.inCur + (xs.flatMap Prod.snd).length + p.length,
            inpos := BitVec.ofNat 32 (s.inCur + (xs.flatMap Prod.snd).length + p.length), result := BitVec.ofNat 9 x.val,
            answers := s.answers.drop ((xs.flatMap Prod.snd).length + xs.length + p.length + 1) }.failed 0x61 .ioOut))

/-- R163: decoding inverts encoding, for a built tree and its code table. -/
def Obligations.DecodingInvertsEncoding : Prop :=
  ∀ (s : State) (freq : Vector Nat 256) (t : Tree) (xs : List Byte) (codes y : Bits), s.Inv →
    buildTree freq = some t → s.tree = some t → s.status.oclosed = false → s.Reliable →
    codesOf (genTable t) (xs.map byteSymbol ++ [256]) = some codes → s.inRest = codes ++ y →
    ∃ u, exec .decode s = .next u ∧ u.status.err = s.status.err ∧ u.outBits = s.outBits ++ bytesToBits xs ∧
      u.inCur = s.inCur + codes.length ∧ u.status.eos = true ∧ u.status.dstate = .done

/-- R134, R162: a tree without the sentinel decodes until IN is exhausted and then raises FMT_DATA_TRUNC. -/
def Obligations.DecodeWithoutSentinelTruncates : Prop :=
  ∀ (s : State) (t : Tree), s.Inv → s.tree = some t → (256 : Symbol) ∉ t.symbols → s.status.oclosed = false →
    s.Reliable →
    ∃ u, exec .decode s = .next u ∧ u.status.err = true ∧ u.status.errcode = some .fmtDataTrunc ∧
      u.status.errop = 0x61 ∧ u.inCur = s.inBits.length ∧ u.status.dstate = .decode ∧ u.status.eos = false

/-! ### Drivers -/

/-- R170, R92: COMPRESS, with the input attached at its start, an open OUT and counts that fit, writes the magic word, the
header, the codes of every byte, the sentinel's code and the padding, and closes OUT. -/
def Obligations.CompressWritesTheStream : Prop :=
  ∀ s : State, s.Inv → s.Reliable → s.inCur = 0 → s.status.oclosed = false →
    (∀ b, s.unitsLeft.count b ≤ s.params.cntMax) →
    ∃ (f : Vector Nat 256) (tr : Tree) (codes pad : Bits) (u : State),
      (∀ b : Byte, f[b.toNat]'b.isLt = s.unitsLeft.count b) ∧ buildTree f = some tr ∧
      codesOf (genTable tr) (s.unitsLeft.map byteSymbol ++ [256]) = some codes ∧
      pad.length = (8 - (s.outBits.length + 32 + (ser tr).length + codes.length) % 8) % 8 ∧
      exec .compress s = .next u ∧
      u = { s with freq := f, tree := some tr, nleaf := BitVec.ofNat 10 tr.leaves, code := genTable tr,
                   inCur := s.inBits.length, inpos := BitVec.ofNat 32 s.inBits.length,
                   outBits := s.outBits ++ msbf 32 s.params.magic.toNat ++ ser tr ++ codes ++ pad,
                   outpos := s.outpos + BitVec.ofNat 32 (32 + (ser tr).length + codes.length),
                   draws := s.draws + 1, answers := u.answers,
                   status := { s.status with treeValid := true, codeValid := true, oclosed := true } }.done

/-- R191, R170: the only errors COMPRESS can raise. -/
def Obligations.CompressErrors : Prop :=
  ∀ s t : State, s.status.err = false → exec .compress s = .next t → t.status.err = true →
    t.status.errop = 0x70 ∧
    ∃ e ∈ [Err.countOvf, .noSymbol, .outClosed, .ioIn, .ioOut], t.status.errcode = some e

/-- R171: DECOMPRESS of a stream (any magic-headed stream of a storable tree) writes its bytes, closes OUT without padding
of its own when OUT held whole bytes, and reads nothing after the sentinel's path. -/
def Obligations.DecompressReadsAStream : Prop :=
  ∀ (s : State) (t : Tree) (xs : List (Byte × Bits)) (p rest : Bits), s.Inv → s.Reliable →
    s.status.oclosed = false → s.outBits.length % 8 = 0 → TreeInv t →
    (∀ a ∈ xs, (byteSymbol a.1, a.2) ∈ t.paths) → ((256 : Symbol), p) ∈ t.paths →
    s.inRest = msbf 32 s.params.magic.toNat ++ ser t ++ xs.flatMap Prod.snd ++ p ++ rest →
    ∃ u, exec .decompress s = .next u ∧
      u = { s with tree := some t, nleaf := BitVec.ofNat 10 t.leaves, code := Vector.replicate 257 none, result := 256,
                   inCur := s.inBits.length - rest.length, inpos := BitVec.ofNat 32 (s.inBits.length - rest.length),
                   outBits := s.outBits ++ bytesToBits (xs.map Prod.fst),
                   outpos := s.outpos + BitVec.ofNat 32 (8 * xs.length), draws := s.draws + 1, answers := u.answers,
                   status := { s.status with treeValid := true, codeValid := false, eos := true, oclosed := true,
                                             dstate := .done } }.done

/-- R37, R171, R191: DSTATE names the stage DECOMPRESS failed in, or DONE; OUT is closed only on success. A failed read
is of one of the three reading stages; a failed write is of DECODE, or of the CLOSE that follows it with DSTATE DONE. -/
def Obligations.DecompressNamesTheStage : Prop :=
  ∀ s t : State, s.status.err = false → s.status.errcode = none → exec .decompress s = .next t →
    (t.status.err = false → t.status.dstate = .done ∧ t.status.eos = true ∧ t.status.oclosed = true) ∧
    (∀ e, t.status.errcode = some e → t.status.errop = 0x71 ∧ t.status.oclosed = s.status.oclosed ∧
      (e ∈ [Err.fmtMagicShort, .fmtMagicBad] → t.status.dstate = .expectMagic) ∧
      (e ∈ [Err.fmtTreeTrunc, .fmtTreeSym, .fmtTreeOvf, .fmtTreeDegen] → t.status.dstate = .readHeader) ∧
      (e ∈ [Err.fmtDataTrunc, .outClosed] → t.status.dstate = .decode) ∧
      (e = .ioIn → t.status.dstate ∈ [DState.expectMagic, .readHeader, .decode]) ∧
      (e = .ioOut → t.status.dstate ∈ [DState.decode, .done]) ∧
      e ∈ [Err.fmtMagicShort, .fmtMagicBad, .fmtTreeTrunc, .fmtTreeSym, .fmtTreeOvf, .fmtTreeDegen, .fmtDataTrunc,
        .outClosed, .ioIn, .ioOut])

/-- R172: the lossless round trip, for every byte sequence, the empty one included. -/
def Obligations.RoundTripIsLossless : Prop :=
  ∀ (s s1 t1 s2 : State) (bytes : List Byte), s.Inv → s.Reliable → s.status.busy = false → s.status.err = false →
    (∀ b, bytes.count b ≤ s.params.cntMax) →
    s1 = { s with inBits := bytesToBits bytes, inCur := 0, inpos := 0, outBits := [], outpos := 0,
                  status := { s.status with oclosed := false } } →
    exec .compress s1 = .next t1 →
    s2 = { t1 with inBits := bytesToBits (bitsToBytes t1.outBits), inCur := 0, inpos := 0, outBits := [], outpos := 0,
                   status := { t1.status with oclosed := false } } →
    ∃ t2, exec .decompress s2 = .next t2 ∧ t1.status.err = false ∧ t2.status.err = false ∧
      t2.status.oclosed = true ∧ t2.outBits = bytesToBits bytes ∧ bitsToBytes t2.outBits = bytes

/-- R213: the step-by-step decompression leaves the state that a successful DECOMPRESS leaves. -/
def Obligations.DecompressEqualsItsSteps : Prop :=
  ∀ s t : State, s.status.err = false → exec .decompress s = .next t → t.status.err = false →
    runCommands [.rmagic, .rtree, .decode, .close] s = some t

/-- R213: the step-by-step compression leaves the same tables, channels and counters as a successful COMPRESS. -/
def Obligations.CompressEqualsItsSteps : Prop :=
  ∀ s t : State, s.status.err = false → exec .compress s = .next t → t.status.err = false →
    ∃ u, runCommands [.clr, .count, .build, .rewind, .wmagic, .wtree, .gencode, .encode, .encsym 256, .close] s = some u ∧
      u = { t with result := 0,
                   status := { t.status with dstate := .idle, eos := false, ovr := false, errcode := none, errop := 0 } }
end

