-- ==== Sys2Proof/Laws/Bits.lean ====
section
/-! SUPPORT. Bit strings, bytes and symbols: the small lemmas of Machine/Operands.lean
(00_scope.md R11, 20_memory.md R59, 30_encoding.md R90). -/

namespace Sys2Proof.Machine

@[simp] theorem msbf_zero (v : Nat) : msbf 0 v = [] := rfl

theorem msbf_succ (n v : Nat) : msbf (n + 1) v = v.testBit n :: msbf n v := rfl

@[simp] theorem msbf_length (n v : Nat) : (msbf n v).length = n := by
  induction n with
  | zero => rfl
  | succ n ih => simp [msbf_succ, ih]

theorem msbf_one_toNat (b : Bool) : msbf 1 b.toNat = [b] := by cases b <;> rfl

theorem bitsVal_foldl (bs : Bits) (acc : Nat) :
    bs.foldl (fun acc b => 2 * acc + b.toNat) acc = acc * 2 ^ bs.length + bitsVal bs := by
  unfold bitsVal
  induction bs generalizing acc with
  | nil => simp
  | cons b bs ih => simp only [List.foldl_cons, List.length_cons]; rw [ih, ih (2 * 0 + b.toNat)]; ring

@[simp] theorem bitsVal_nil : bitsVal [] = 0 := rfl

theorem bitsVal_cons (b : Bool) (bs : Bits) : bitsVal (b :: bs) = b.toNat * 2 ^ bs.length + bitsVal bs := by
  conv_lhs => unfold bitsVal
  simp only [List.foldl_cons]
  rw [bitsVal_foldl]; simp

theorem bitsVal_lt (bs : Bits) : bitsVal bs < 2 ^ bs.length := by
  induction bs with
  | nil => simp
  | cons b bs ih => rw [bitsVal_cons, List.length_cons, pow_succ]; cases b <;> simp <;> omega

theorem bitsVal_msbf (n v : Nat) : bitsVal (msbf n v) = v % 2 ^ n := by
  induction n with
  | zero => simp [Nat.mod_one]
  | succ n ih =>
    rw [msbf_succ, bitsVal_cons, msbf_length, ih, Nat.mod_pow_succ, Nat.testBit_eq_decide_div_mod_eq]
    rcases Nat.mod_two_eq_zero_or_one (v / 2 ^ n) with h | h <;> simp [h]
    omega

theorem msbf_bitsVal (bs : Bits) : msbf bs.length (bitsVal bs) = bs := by
  induction bs with
  | nil => rfl
  | cons b bs ih =>
    have hlt := bitsVal_lt bs
    rw [List.length_cons, msbf_succ]
    congr 1
    · rw [bitsVal_cons, Nat.mul_comm, Nat.testBit_two_pow_mul_add _ hlt]
      cases b <;> simp
    · have low : ∀ n v w : Nat, (∀ i, i < n → v.testBit i = w.testBit i) → msbf n v = msbf n w := by
        intro n
        induction n with
        | zero => intros; rfl
        | succ n ihn => intro v w h; rw [msbf_succ, msbf_succ, h n (by omega), ihn v w fun i hi => h i (by omega)]
      rw [low _ _ (bitsVal bs) ?_, ih]
      intro i hi
      rw [bitsVal_cons, Nat.mul_comm, Nat.testBit_two_pow_mul_add _ hlt]
      simp [hi]

theorem bitsVal_ofNat_msbf (n : Nat) (v : BitVec n) : BitVec.ofNat n (bitsVal (msbf n v.toNat)) = v := by
  rw [bitsVal_msbf, Nat.mod_eq_of_lt v.isLt, BitVec.ofNat_toNat, BitVec.setWidth_eq]

/-! ### Bytes -/

theorem bitsToBytes_byte (bs rest : Bits) (h : bs.length = 8) :
    bitsToBytes (bs ++ rest) = BitVec.ofNat 8 (bitsVal bs) :: bitsToBytes rest := by
  match bs, h with
  | [_, _, _, _, _, _, _, _], _ => simp [bitsToBytes]

theorem bitsToBytes_short (bs : Bits) (h : bs.length < 8) : bitsToBytes bs = [] := by
  unfold bitsToBytes
  split
  · simp at h; omega
  · rfl

@[simp] theorem bytesToBits_nil : bytesToBits [] = [] := rfl

theorem bytesToBits_cons (b : Byte) (bs : List Byte) :
    bytesToBits (b :: bs) = msbf 8 b.toNat ++ bytesToBits bs := rfl

theorem bytesToBits_append (as bs : List Byte) : bytesToBits (as ++ bs) = bytesToBits as ++ bytesToBits bs := by
  simp [bytesToBits]

@[simp] theorem bytesToBits_length (bs : List Byte) : (bytesToBits bs).length = 8 * bs.length := by
  induction bs with
  | nil => rfl
  | cons b bs ih => rw [bytesToBits_cons, List.length_append, msbf_length, ih, List.length_cons]; omega

theorem bitsToBytes_msbf (b : Byte) (rest : Bits) :
    bitsToBytes (msbf 8 b.toNat ++ rest) = b :: bitsToBytes rest := by
  rw [bitsToBytes_byte _ _ (msbf_length 8 _), bitsVal_ofNat_msbf]

theorem bitsToBytes_bytesToBits (bs : List Byte) : bitsToBytes (bytesToBits bs) = bs := by
  induction bs with
  | nil => rfl
  | cons b bs ih => rw [bytesToBits_cons, bitsToBytes_msbf, ih]

/-- A bit string is its whole bytes and fewer than 8 bits after them. -/
theorem bits_split (bs : Bits) :
    ∃ tail : Bits, bs = bytesToBits (bitsToBytes bs) ++ tail ∧ tail.length = bs.length % 8 := by
  induction h : bs.length using Nat.strongRecOn generalizing bs with
  | _ n ih =>
    subst h
    by_cases hs : bs.length < 8
    · exact ⟨bs, by simp [bitsToBytes_short bs hs], by omega⟩
    · have hb : (bs.take 8).length = 8 := by simp; omega
      obtain ⟨tail, ht, hl⟩ := ih (bs.drop 8).length (by simp; omega) (bs.drop 8) rfl
      refine ⟨tail, ?_, by rw [hl]; simp; omega⟩
      have e := bitsToBytes_byte (bs.take 8) (bs.drop 8) hb
      rw [List.take_append_drop] at e
      rw [e, bytesToBits_cons]
      have hv : (BitVec.ofNat 8 (bitsVal (bs.take 8))).toNat = bitsVal (bs.take 8) := by
        have := bitsVal_lt (bs.take 8)
        rw [hb] at this
        simp only [BitVec.toNat_ofNat]
        exact Nat.mod_eq_of_lt this
      have hm := msbf_bitsVal (bs.take 8)
      rw [hb] at hm
      rw [hv, hm, List.append_assoc, ← ht, List.take_append_drop]

theorem bitsToBytes_length (bs : Bits) : (bitsToBytes bs).length = bs.length / 8 := by
  obtain ⟨tail, h, hl⟩ := bits_split bs
  have := congrArg List.length h
  rw [List.length_append, bytesToBits_length, hl] at this
  omega

theorem bytesToBits_bitsToBytes (bs : Bits) (h : bs.length % 8 = 0) : bytesToBits (bitsToBytes bs) = bs := by
  obtain ⟨tail, ht, hl⟩ := bits_split bs
  rw [h, List.length_eq_zero_iff] at hl
  rw [hl, List.append_nil] at ht
  exact ht.symm

/-! ### Symbols -/

theorem symbolOf_val (x : Symbol) : symbolOf (BitVec.ofNat 9 x.val) = some x := by
  have hx := x.isLt
  have : (BitVec.ofNat 9 x.val).toNat = x.val := by simp; omega
  simp [symbolOf, this]

theorem symbolOf_none {v : BitVec 9} : symbolOf v = none ↔ 257 ≤ v.toNat := by
  unfold symbolOf; split <;> simp_all

theorem byteSymbol_inj {a b : Byte} : byteSymbol a = byteSymbol b ↔ a = b := by
  simp [byteSymbol, Fin.ext_iff, BitVec.toNat_eq]

theorem byteSymbol_ne_sent (b : Byte) : byteSymbol b ≠ Config.sent := by
  have := b.isLt
  simp only [byteSymbol, Config.sent, ne_eq, Fin.ext_iff]
  show ¬ b.toNat = 256
  omega

/-- Every symbol is the sentinel or a byte value. -/
theorem symbol_cases (x : Symbol) : x = Config.sent ∨ ∃ b, x = byteSymbol b := by
  by_cases h : x.val = 256
  · exact .inl (Fin.ext h)
  · refine .inr ⟨BitVec.ofNat 8 x.val, Fin.ext ?_⟩
    have := x.isLt
    simp [byteSymbol]; omega

end Sys2Proof.Machine
end

