-- ==== Sys2Proof/Laws/State.lean ====
section
/-! SUPPORT. What each named update of the state does to each field: one lemma per field per update, so that no
proof unfolds a record update. -/

namespace Sys2Proof.Machine

variable (s : State)

@[simp] theorem State.setFreq_params (b : Byte) (v : Nat) : (s.setFreq b v).params = s.params := rfl
@[simp] theorem State.setFreq_freq (b : Byte) (v : Nat) : (s.setFreq b v).freq = s.freq.set b.toNat v b.isLt := rfl
@[simp] theorem State.setFreq_tree (b : Byte) (v : Nat) : (s.setFreq b v).tree = s.tree := rfl
@[simp] theorem State.setFreq_code (b : Byte) (v : Nat) : (s.setFreq b v).code = s.code := rfl
@[simp] theorem State.setFreq_status (b : Byte) (v : Nat) : (s.setFreq b v).status = s.status := rfl
@[simp] theorem State.setFreq_result (b : Byte) (v : Nat) : (s.setFreq b v).result = s.result := rfl
@[simp] theorem State.setFreq_nleaf (b : Byte) (v : Nat) : (s.setFreq b v).nleaf = s.nleaf := rfl
@[simp] theorem State.setFreq_inpos (b : Byte) (v : Nat) : (s.setFreq b v).inpos = s.inpos := rfl
@[simp] theorem State.setFreq_outpos (b : Byte) (v : Nat) : (s.setFreq b v).outpos = s.outpos := rfl
@[simp] theorem State.setFreq_cmd (b : Byte) (v : Nat) : (s.setFreq b v).cmd = s.cmd := rfl
@[simp] theorem State.setFreq_ovrSeen (b : Byte) (v : Nat) : (s.setFreq b v).ovrSeen = s.ovrSeen := rfl
@[simp] theorem State.setFreq_inBits (b : Byte) (v : Nat) : (s.setFreq b v).inBits = s.inBits := rfl
@[simp] theorem State.setFreq_inCur (b : Byte) (v : Nat) : (s.setFreq b v).inCur = s.inCur := rfl
@[simp] theorem State.setFreq_outBits (b : Byte) (v : Nat) : (s.setFreq b v).outBits = s.outBits := rfl
@[simp] theorem State.setFreq_answers (b : Byte) (v : Nat) : (s.setFreq b v).answers = s.answers := rfl
@[simp] theorem State.setFreq_draws (b : Byte) (v : Nat) : (s.setFreq b v).draws = s.draws := rfl
@[simp] theorem State.setFreq_script (b : Byte) (v : Nat) : (s.setFreq b v).script = s.script := rfl
@[simp] theorem State.setFreq_hostData (b : Byte) (v : Nat) : (s.setFreq b v).hostData = s.hostData := rfl
@[simp] theorem State.setFreq_hostOut (b : Byte) (v : Nat) : (s.setFreq b v).hostOut = s.hostOut := rfl
@[simp] theorem State.setFreq_passes (b : Byte) (v : Nat) : (s.setFreq b v).passes = s.passes := rfl

@[simp] theorem State.clearFreq_params : (s.clearFreq).params = s.params := rfl
@[simp] theorem State.clearFreq_freq : (s.clearFreq).freq = Vector.replicate 256 0 := rfl
@[simp] theorem State.clearFreq_tree : (s.clearFreq).tree = s.tree := rfl
@[simp] theorem State.clearFreq_code : (s.clearFreq).code = s.code := rfl
@[simp] theorem State.clearFreq_status : (s.clearFreq).status = s.status := rfl
@[simp] theorem State.clearFreq_result : (s.clearFreq).result = s.result := rfl
@[simp] theorem State.clearFreq_nleaf : (s.clearFreq).nleaf = s.nleaf := rfl
@[simp] theorem State.clearFreq_inpos : (s.clearFreq).inpos = s.inpos := rfl
@[simp] theorem State.clearFreq_outpos : (s.clearFreq).outpos = s.outpos := rfl
@[simp] theorem State.clearFreq_cmd : (s.clearFreq).cmd = s.cmd := rfl
@[simp] theorem State.clearFreq_ovrSeen : (s.clearFreq).ovrSeen = s.ovrSeen := rfl
@[simp] theorem State.clearFreq_inBits : (s.clearFreq).inBits = s.inBits := rfl
@[simp] theorem State.clearFreq_inCur : (s.clearFreq).inCur = s.inCur := rfl
@[simp] theorem State.clearFreq_outBits : (s.clearFreq).outBits = s.outBits := rfl
@[simp] theorem State.clearFreq_answers : (s.clearFreq).answers = s.answers := rfl
@[simp] theorem State.clearFreq_draws : (s.clearFreq).draws = s.draws := rfl
@[simp] theorem State.clearFreq_script : (s.clearFreq).script = s.script := rfl
@[simp] theorem State.clearFreq_hostData : (s.clearFreq).hostData = s.hostData := rfl
@[simp] theorem State.clearFreq_hostOut : (s.clearFreq).hostOut = s.hostOut := rfl
@[simp] theorem State.clearFreq_passes : (s.clearFreq).passes = s.passes := rfl

@[simp] theorem State.storeTree_params (t : Tree) : (s.storeTree t).params = s.params := rfl
@[simp] theorem State.storeTree_freq (t : Tree) : (s.storeTree t).freq = s.freq := rfl
@[simp] theorem State.storeTree_tree (t : Tree) : (s.storeTree t).tree = some t := rfl
@[simp] theorem State.storeTree_code (t : Tree) : (s.storeTree t).code = s.code := rfl
@[simp] theorem State.storeTree_status (t : Tree) : (s.storeTree t).status = { s.status with treeValid := true } := rfl
@[simp] theorem State.storeTree_result (t : Tree) : (s.storeTree t).result = s.result := rfl
@[simp] theorem State.storeTree_nleaf (t : Tree) : (s.storeTree t).nleaf = BitVec.ofNat 10 t.leaves := rfl
@[simp] theorem State.storeTree_inpos (t : Tree) : (s.storeTree t).inpos = s.inpos := rfl
@[simp] theorem State.storeTree_outpos (t : Tree) : (s.storeTree t).outpos = s.outpos := rfl
@[simp] theorem State.storeTree_cmd (t : Tree) : (s.storeTree t).cmd = s.cmd := rfl
@[simp] theorem State.storeTree_ovrSeen (t : Tree) : (s.storeTree t).ovrSeen = s.ovrSeen := rfl
@[simp] theorem State.storeTree_inBits (t : Tree) : (s.storeTree t).inBits = s.inBits := rfl
@[simp] theorem State.storeTree_inCur (t : Tree) : (s.storeTree t).inCur = s.inCur := rfl
@[simp] theorem State.storeTree_outBits (t : Tree) : (s.storeTree t).outBits = s.outBits := rfl
@[simp] theorem State.storeTree_answers (t : Tree) : (s.storeTree t).answers = s.answers := rfl
@[simp] theorem State.storeTree_draws (t : Tree) : (s.storeTree t).draws = s.draws := rfl
@[simp] theorem State.storeTree_script (t : Tree) : (s.storeTree t).script = s.script := rfl
@[simp] theorem State.storeTree_hostData (t : Tree) : (s.storeTree t).hostData = s.hostData := rfl
@[simp] theorem State.storeTree_hostOut (t : Tree) : (s.storeTree t).hostOut = s.hostOut := rfl
@[simp] theorem State.storeTree_passes (t : Tree) : (s.storeTree t).passes = s.passes := rfl

@[simp] theorem State.dropTree_params : (s.dropTree).params = s.params := rfl
@[simp] theorem State.dropTree_freq : (s.dropTree).freq = s.freq := rfl
@[simp] theorem State.dropTree_tree : (s.dropTree).tree = none := rfl
@[simp] theorem State.dropTree_code : (s.dropTree).code = s.code := rfl
@[simp] theorem State.dropTree_status : (s.dropTree).status = { s.status with treeValid := false } := rfl
@[simp] theorem State.dropTree_result : (s.dropTree).result = s.result := rfl
@[simp] theorem State.dropTree_nleaf : (s.dropTree).nleaf = 0 := rfl
@[simp] theorem State.dropTree_inpos : (s.dropTree).inpos = s.inpos := rfl
@[simp] theorem State.dropTree_outpos : (s.dropTree).outpos = s.outpos := rfl
@[simp] theorem State.dropTree_cmd : (s.dropTree).cmd = s.cmd := rfl
@[simp] theorem State.dropTree_ovrSeen : (s.dropTree).ovrSeen = s.ovrSeen := rfl
@[simp] theorem State.dropTree_inBits : (s.dropTree).inBits = s.inBits := rfl
@[simp] theorem State.dropTree_inCur : (s.dropTree).inCur = s.inCur := rfl
@[simp] theorem State.dropTree_outBits : (s.dropTree).outBits = s.outBits := rfl
@[simp] theorem State.dropTree_answers : (s.dropTree).answers = s.answers := rfl
@[simp] theorem State.dropTree_draws : (s.dropTree).draws = s.draws := rfl
@[simp] theorem State.dropTree_script : (s.dropTree).script = s.script := rfl
@[simp] theorem State.dropTree_hostData : (s.dropTree).hostData = s.hostData := rfl
@[simp] theorem State.dropTree_hostOut : (s.dropTree).hostOut = s.hostOut := rfl
@[simp] theorem State.dropTree_passes : (s.dropTree).passes = s.passes := rfl

@[simp] theorem State.storeCode_params (c : CodeTable) : (s.storeCode c).params = s.params := rfl
@[simp] theorem State.storeCode_freq (c : CodeTable) : (s.storeCode c).freq = s.freq := rfl
@[simp] theorem State.storeCode_tree (c : CodeTable) : (s.storeCode c).tree = s.tree := rfl
@[simp] theorem State.storeCode_code (c : CodeTable) : (s.storeCode c).code = c := rfl
@[simp] theorem State.storeCode_status (c : CodeTable) : (s.storeCode c).status = { s.status with codeValid := true } := rfl
@[simp] theorem State.storeCode_result (c : CodeTable) : (s.storeCode c).result = s.result := rfl
@[simp] theorem State.storeCode_nleaf (c : CodeTable) : (s.storeCode c).nleaf = s.nleaf := rfl
@[simp] theorem State.storeCode_inpos (c : CodeTable) : (s.storeCode c).inpos = s.inpos := rfl
@[simp] theorem State.storeCode_outpos (c : CodeTable) : (s.storeCode c).outpos = s.outpos := rfl
@[simp] theorem State.storeCode_cmd (c : CodeTable) : (s.storeCode c).cmd = s.cmd := rfl
@[simp] theorem State.storeCode_ovrSeen (c : CodeTable) : (s.storeCode c).ovrSeen = s.ovrSeen := rfl
@[simp] theorem State.storeCode_inBits (c : CodeTable) : (s.storeCode c).inBits = s.inBits := rfl
@[simp] theorem State.storeCode_inCur (c : CodeTable) : (s.storeCode c).inCur = s.inCur := rfl
@[simp] theorem State.storeCode_outBits (c : CodeTable) : (s.storeCode c).outBits = s.outBits := rfl
@[simp] theorem State.storeCode_answers (c : CodeTable) : (s.storeCode c).answers = s.answers := rfl
@[simp] theorem State.storeCode_draws (c : CodeTable) : (s.storeCode c).draws = s.draws := rfl
@[simp] theorem State.storeCode_script (c : CodeTable) : (s.storeCode c).script = s.script := rfl
@[simp] theorem State.storeCode_hostData (c : CodeTable) : (s.storeCode c).hostData = s.hostData := rfl
@[simp] theorem State.storeCode_hostOut (c : CodeTable) : (s.storeCode c).hostOut = s.hostOut := rfl
@[simp] theorem State.storeCode_passes (c : CodeTable) : (s.storeCode c).passes = s.passes := rfl

@[simp] theorem State.dropCode_params : (s.dropCode).params = s.params := rfl
@[simp] theorem State.dropCode_freq : (s.dropCode).freq = s.freq := rfl
@[simp] theorem State.dropCode_tree : (s.dropCode).tree = s.tree := rfl
@[simp] theorem State.dropCode_code : (s.dropCode).code = CodeTable.empty := rfl
@[simp] theorem State.dropCode_status : (s.dropCode).status = { s.status with codeValid := false } := rfl
@[simp] theorem State.dropCode_result : (s.dropCode).result = s.result := rfl
@[simp] theorem State.dropCode_nleaf : (s.dropCode).nleaf = s.nleaf := rfl
@[simp] theorem State.dropCode_inpos : (s.dropCode).inpos = s.inpos := rfl
@[simp] theorem State.dropCode_outpos : (s.dropCode).outpos = s.outpos := rfl
@[simp] theorem State.dropCode_cmd : (s.dropCode).cmd = s.cmd := rfl
@[simp] theorem State.dropCode_ovrSeen : (s.dropCode).ovrSeen = s.ovrSeen := rfl
@[simp] theorem State.dropCode_inBits : (s.dropCode).inBits = s.inBits := rfl
@[simp] theorem State.dropCode_inCur : (s.dropCode).inCur = s.inCur := rfl
@[simp] theorem State.dropCode_outBits : (s.dropCode).outBits = s.outBits := rfl
@[simp] theorem State.dropCode_answers : (s.dropCode).answers = s.answers := rfl
@[simp] theorem State.dropCode_draws : (s.dropCode).draws = s.draws := rfl
@[simp] theorem State.dropCode_script : (s.dropCode).script = s.script := rfl
@[simp] theorem State.dropCode_hostData : (s.dropCode).hostData = s.hostData := rfl
@[simp] theorem State.dropCode_hostOut : (s.dropCode).hostOut = s.hostOut := rfl
@[simp] theorem State.dropCode_passes : (s.dropCode).passes = s.passes := rfl

@[simp] theorem State.setEos_params (b : Bool) : (s.setEos b).params = s.params := rfl
@[simp] theorem State.setEos_freq (b : Bool) : (s.setEos b).freq = s.freq := rfl
@[simp] theorem State.setEos_tree (b : Bool) : (s.setEos b).tree = s.tree := rfl
@[simp] theorem State.setEos_code (b : Bool) : (s.setEos b).code = s.code := rfl
@[simp] theorem State.setEos_status (b : Bool) : (s.setEos b).status = { s.status with eos := b } := rfl
@[simp] theorem State.setEos_result (b : Bool) : (s.setEos b).result = s.result := rfl
@[simp] theorem State.setEos_nleaf (b : Bool) : (s.setEos b).nleaf = s.nleaf := rfl
@[simp] theorem State.setEos_inpos (b : Bool) : (s.setEos b).inpos = s.inpos := rfl
@[simp] theorem State.setEos_outpos (b : Bool) : (s.setEos b).outpos = s.outpos := rfl
@[simp] theorem State.setEos_cmd (b : Bool) : (s.setEos b).cmd = s.cmd := rfl
@[simp] theorem State.setEos_ovrSeen (b : Bool) : (s.setEos b).ovrSeen = s.ovrSeen := rfl
@[simp] theorem State.setEos_inBits (b : Bool) : (s.setEos b).inBits = s.inBits := rfl
@[simp] theorem State.setEos_inCur (b : Bool) : (s.setEos b).inCur = s.inCur := rfl
@[simp] theorem State.setEos_outBits (b : Bool) : (s.setEos b).outBits = s.outBits := rfl
@[simp] theorem State.setEos_answers (b : Bool) : (s.setEos b).answers = s.answers := rfl
@[simp] theorem State.setEos_draws (b : Bool) : (s.setEos b).draws = s.draws := rfl
@[simp] theorem State.setEos_script (b : Bool) : (s.setEos b).script = s.script := rfl
@[simp] theorem State.setEos_hostData (b : Bool) : (s.setEos b).hostData = s.hostData := rfl
@[simp] theorem State.setEos_hostOut (b : Bool) : (s.setEos b).hostOut = s.hostOut := rfl
@[simp] theorem State.setEos_passes (b : Bool) : (s.setEos b).passes = s.passes := rfl

@[simp] theorem State.setDState_params (d : DState) : (s.setDState d).params = s.params := rfl
@[simp] theorem State.setDState_freq (d : DState) : (s.setDState d).freq = s.freq := rfl
@[simp] theorem State.setDState_tree (d : DState) : (s.setDState d).tree = s.tree := rfl
@[simp] theorem State.setDState_code (d : DState) : (s.setDState d).code = s.code := rfl
@[simp] theorem State.setDState_status (d : DState) : (s.setDState d).status = { s.status with dstate := d } := rfl
@[simp] theorem State.setDState_result (d : DState) : (s.setDState d).result = s.result := rfl
@[simp] theorem State.setDState_nleaf (d : DState) : (s.setDState d).nleaf = s.nleaf := rfl
@[simp] theorem State.setDState_inpos (d : DState) : (s.setDState d).inpos = s.inpos := rfl
@[simp] theorem State.setDState_outpos (d : DState) : (s.setDState d).outpos = s.outpos := rfl
@[simp] theorem State.setDState_cmd (d : DState) : (s.setDState d).cmd = s.cmd := rfl
@[simp] theorem State.setDState_ovrSeen (d : DState) : (s.setDState d).ovrSeen = s.ovrSeen := rfl
@[simp] theorem State.setDState_inBits (d : DState) : (s.setDState d).inBits = s.inBits := rfl
@[simp] theorem State.setDState_inCur (d : DState) : (s.setDState d).inCur = s.inCur := rfl
@[simp] theorem State.setDState_outBits (d : DState) : (s.setDState d).outBits = s.outBits := rfl
@[simp] theorem State.setDState_answers (d : DState) : (s.setDState d).answers = s.answers := rfl
@[simp] theorem State.setDState_draws (d : DState) : (s.setDState d).draws = s.draws := rfl
@[simp] theorem State.setDState_script (d : DState) : (s.setDState d).script = s.script := rfl
@[simp] theorem State.setDState_hostData (d : DState) : (s.setDState d).hostData = s.hostData := rfl
@[simp] theorem State.setDState_hostOut (d : DState) : (s.setDState d).hostOut = s.hostOut := rfl
@[simp] theorem State.setDState_passes (d : DState) : (s.setDState d).passes = s.passes := rfl

@[simp] theorem State.setResult_params (x : Symbol) : (s.setResult x).params = s.params := rfl
@[simp] theorem State.setResult_freq (x : Symbol) : (s.setResult x).freq = s.freq := rfl
@[simp] theorem State.setResult_tree (x : Symbol) : (s.setResult x).tree = s.tree := rfl
@[simp] theorem State.setResult_code (x : Symbol) : (s.setResult x).code = s.code := rfl
@[simp] theorem State.setResult_status (x : Symbol) : (s.setResult x).status = s.status := rfl
@[simp] theorem State.setResult_result (x : Symbol) : (s.setResult x).result = BitVec.ofNat 9 x.val := rfl
@[simp] theorem State.setResult_nleaf (x : Symbol) : (s.setResult x).nleaf = s.nleaf := rfl
@[simp] theorem State.setResult_inpos (x : Symbol) : (s.setResult x).inpos = s.inpos := rfl
@[simp] theorem State.setResult_outpos (x : Symbol) : (s.setResult x).outpos = s.outpos := rfl
@[simp] theorem State.setResult_cmd (x : Symbol) : (s.setResult x).cmd = s.cmd := rfl
@[simp] theorem State.setResult_ovrSeen (x : Symbol) : (s.setResult x).ovrSeen = s.ovrSeen := rfl
@[simp] theorem State.setResult_inBits (x : Symbol) : (s.setResult x).inBits = s.inBits := rfl
@[simp] theorem State.setResult_inCur (x : Symbol) : (s.setResult x).inCur = s.inCur := rfl
@[simp] theorem State.setResult_outBits (x : Symbol) : (s.setResult x).outBits = s.outBits := rfl
@[simp] theorem State.setResult_answers (x : Symbol) : (s.setResult x).answers = s.answers := rfl
@[simp] theorem State.setResult_draws (x : Symbol) : (s.setResult x).draws = s.draws := rfl
@[simp] theorem State.setResult_script (x : Symbol) : (s.setResult x).script = s.script := rfl
@[simp] theorem State.setResult_hostData (x : Symbol) : (s.setResult x).hostData = s.hostData := rfl
@[simp] theorem State.setResult_hostOut (x : Symbol) : (s.setResult x).hostOut = s.hostOut := rfl
@[simp] theorem State.setResult_passes (x : Symbol) : (s.setResult x).passes = s.passes := rfl

@[simp] theorem State.seekIn_params (c : Nat) : (s.seekIn c).params = s.params := rfl
@[simp] theorem State.seekIn_freq (c : Nat) : (s.seekIn c).freq = s.freq := rfl
@[simp] theorem State.seekIn_tree (c : Nat) : (s.seekIn c).tree = s.tree := rfl
@[simp] theorem State.seekIn_code (c : Nat) : (s.seekIn c).code = s.code := rfl
@[simp] theorem State.seekIn_status (c : Nat) : (s.seekIn c).status = s.status := rfl
@[simp] theorem State.seekIn_result (c : Nat) : (s.seekIn c).result = s.result := rfl
@[simp] theorem State.seekIn_nleaf (c : Nat) : (s.seekIn c).nleaf = s.nleaf := rfl
@[simp] theorem State.seekIn_inpos (c : Nat) : (s.seekIn c).inpos = BitVec.ofNat 32 c := rfl
@[simp] theorem State.seekIn_outpos (c : Nat) : (s.seekIn c).outpos = s.outpos := rfl
@[simp] theorem State.seekIn_cmd (c : Nat) : (s.seekIn c).cmd = s.cmd := rfl
@[simp] theorem State.seekIn_ovrSeen (c : Nat) : (s.seekIn c).ovrSeen = s.ovrSeen := rfl
@[simp] theorem State.seekIn_inBits (c : Nat) : (s.seekIn c).inBits = s.inBits := rfl
@[simp] theorem State.seekIn_inCur (c : Nat) : (s.seekIn c).inCur = c := rfl
@[simp] theorem State.seekIn_outBits (c : Nat) : (s.seekIn c).outBits = s.outBits := rfl
@[simp] theorem State.seekIn_answers (c : Nat) : (s.seekIn c).answers = s.answers := rfl
@[simp] theorem State.seekIn_draws (c : Nat) : (s.seekIn c).draws = s.draws := rfl
@[simp] theorem State.seekIn_script (c : Nat) : (s.seekIn c).script = s.script := rfl
@[simp] theorem State.seekIn_hostData (c : Nat) : (s.seekIn c).hostData = s.hostData := rfl
@[simp] theorem State.seekIn_hostOut (c : Nat) : (s.seekIn c).hostOut = s.hostOut := rfl
@[simp] theorem State.seekIn_passes (c : Nat) : (s.seekIn c).passes = s.passes := rfl

@[simp] theorem State.appendOut_params (bs : Bits) : (s.appendOut bs).params = s.params := rfl
@[simp] theorem State.appendOut_freq (bs : Bits) : (s.appendOut bs).freq = s.freq := rfl
@[simp] theorem State.appendOut_tree (bs : Bits) : (s.appendOut bs).tree = s.tree := rfl
@[simp] theorem State.appendOut_code (bs : Bits) : (s.appendOut bs).code = s.code := rfl
@[simp] theorem State.appendOut_status (bs : Bits) : (s.appendOut bs).status = s.status := rfl
@[simp] theorem State.appendOut_result (bs : Bits) : (s.appendOut bs).result = s.result := rfl
@[simp] theorem State.appendOut_nleaf (bs : Bits) : (s.appendOut bs).nleaf = s.nleaf := rfl
@[simp] theorem State.appendOut_inpos (bs : Bits) : (s.appendOut bs).inpos = s.inpos := rfl
@[simp] theorem State.appendOut_outpos (bs : Bits) : (s.appendOut bs).outpos = s.outpos + BitVec.ofNat 32 bs.length := rfl
@[simp] theorem State.appendOut_cmd (bs : Bits) : (s.appendOut bs).cmd = s.cmd := rfl
@[simp] theorem State.appendOut_ovrSeen (bs : Bits) : (s.appendOut bs).ovrSeen = s.ovrSeen := rfl
@[simp] theorem State.appendOut_inBits (bs : Bits) : (s.appendOut bs).inBits = s.inBits := rfl
@[simp] theorem State.appendOut_inCur (bs : Bits) : (s.appendOut bs).inCur = s.inCur := rfl
@[simp] theorem State.appendOut_outBits (bs : Bits) : (s.appendOut bs).outBits = s.outBits ++ bs := rfl
@[simp] theorem State.appendOut_answers (bs : Bits) : (s.appendOut bs).answers = s.answers := rfl
@[simp] theorem State.appendOut_draws (bs : Bits) : (s.appendOut bs).draws = s.draws := rfl
@[simp] theorem State.appendOut_script (bs : Bits) : (s.appendOut bs).script = s.script := rfl
@[simp] theorem State.appendOut_hostData (bs : Bits) : (s.appendOut bs).hostData = s.hostData := rfl
@[simp] theorem State.appendOut_hostOut (bs : Bits) : (s.appendOut bs).hostOut = s.hostOut := rfl
@[simp] theorem State.appendOut_passes (bs : Bits) : (s.appendOut bs).passes = s.passes := rfl

@[simp] theorem State.closeOut_params : (s.closeOut).params = s.params := rfl
@[simp] theorem State.closeOut_freq : (s.closeOut).freq = s.freq := rfl
@[simp] theorem State.closeOut_tree : (s.closeOut).tree = s.tree := rfl
@[simp] theorem State.closeOut_code : (s.closeOut).code = s.code := rfl
@[simp] theorem State.closeOut_status : (s.closeOut).status = { s.status with oclosed := true } := rfl
@[simp] theorem State.closeOut_result : (s.closeOut).result = s.result := rfl
@[simp] theorem State.closeOut_nleaf : (s.closeOut).nleaf = s.nleaf := rfl
@[simp] theorem State.closeOut_inpos : (s.closeOut).inpos = s.inpos := rfl
@[simp] theorem State.closeOut_outpos : (s.closeOut).outpos = s.outpos := rfl
@[simp] theorem State.closeOut_cmd : (s.closeOut).cmd = s.cmd := rfl
@[simp] theorem State.closeOut_ovrSeen : (s.closeOut).ovrSeen = s.ovrSeen := rfl
@[simp] theorem State.closeOut_inBits : (s.closeOut).inBits = s.inBits := rfl
@[simp] theorem State.closeOut_inCur : (s.closeOut).inCur = s.inCur := rfl
@[simp] theorem State.closeOut_outBits : (s.closeOut).outBits = s.outBits ++ s.padBits := rfl
@[simp] theorem State.closeOut_answers : (s.closeOut).answers = s.answers := rfl
@[simp] theorem State.closeOut_draws : (s.closeOut).draws = s.draws + 1 := rfl
@[simp] theorem State.closeOut_script : (s.closeOut).script = s.script := rfl
@[simp] theorem State.closeOut_hostData : (s.closeOut).hostData = s.hostData := rfl
@[simp] theorem State.closeOut_hostOut : (s.closeOut).hostOut = s.hostOut := rfl
@[simp] theorem State.closeOut_passes : (s.closeOut).passes = s.passes := rfl

@[simp] theorem State.setPasses_params (p : Passes) : (s.setPasses p).params = s.params := rfl
@[simp] theorem State.setPasses_freq (p : Passes) : (s.setPasses p).freq = s.freq := rfl
@[simp] theorem State.setPasses_tree (p : Passes) : (s.setPasses p).tree = s.tree := rfl
@[simp] theorem State.setPasses_code (p : Passes) : (s.setPasses p).code = s.code := rfl
@[simp] theorem State.setPasses_status (p : Passes) : (s.setPasses p).status = s.status := rfl
@[simp] theorem State.setPasses_result (p : Passes) : (s.setPasses p).result = s.result := rfl
@[simp] theorem State.setPasses_nleaf (p : Passes) : (s.setPasses p).nleaf = s.nleaf := rfl
@[simp] theorem State.setPasses_inpos (p : Passes) : (s.setPasses p).inpos = s.inpos := rfl
@[simp] theorem State.setPasses_outpos (p : Passes) : (s.setPasses p).outpos = s.outpos := rfl
@[simp] theorem State.setPasses_cmd (p : Passes) : (s.setPasses p).cmd = s.cmd := rfl
@[simp] theorem State.setPasses_ovrSeen (p : Passes) : (s.setPasses p).ovrSeen = s.ovrSeen := rfl
@[simp] theorem State.setPasses_inBits (p : Passes) : (s.setPasses p).inBits = s.inBits := rfl
@[simp] theorem State.setPasses_inCur (p : Passes) : (s.setPasses p).inCur = s.inCur := rfl
@[simp] theorem State.setPasses_outBits (p : Passes) : (s.setPasses p).outBits = s.outBits := rfl
@[simp] theorem State.setPasses_answers (p : Passes) : (s.setPasses p).answers = s.answers := rfl
@[simp] theorem State.setPasses_draws (p : Passes) : (s.setPasses p).draws = s.draws := rfl
@[simp] theorem State.setPasses_script (p : Passes) : (s.setPasses p).script = s.script := rfl
@[simp] theorem State.setPasses_hostData (p : Passes) : (s.setPasses p).hostData = s.hostData := rfl
@[simp] theorem State.setPasses_hostOut (p : Passes) : (s.setPasses p).hostOut = s.hostOut := rfl
@[simp] theorem State.setPasses_passes (p : Passes) : (s.setPasses p).passes = p := rfl

@[simp] theorem State.setOvr_params : (s.setOvr).params = s.params := rfl
@[simp] theorem State.setOvr_freq : (s.setOvr).freq = s.freq := rfl
@[simp] theorem State.setOvr_tree : (s.setOvr).tree = s.tree := rfl
@[simp] theorem State.setOvr_code : (s.setOvr).code = s.code := rfl
@[simp] theorem State.setOvr_status : (s.setOvr).status = { s.status with ovr := true } := rfl
@[simp] theorem State.setOvr_result : (s.setOvr).result = s.result := rfl
@[simp] theorem State.setOvr_nleaf : (s.setOvr).nleaf = s.nleaf := rfl
@[simp] theorem State.setOvr_inpos : (s.setOvr).inpos = s.inpos := rfl
@[simp] theorem State.setOvr_outpos : (s.setOvr).outpos = s.outpos := rfl
@[simp] theorem State.setOvr_cmd : (s.setOvr).cmd = s.cmd := rfl
@[simp] theorem State.setOvr_ovrSeen : (s.setOvr).ovrSeen = s.ovrSeen := rfl
@[simp] theorem State.setOvr_inBits : (s.setOvr).inBits = s.inBits := rfl
@[simp] theorem State.setOvr_inCur : (s.setOvr).inCur = s.inCur := rfl
@[simp] theorem State.setOvr_outBits : (s.setOvr).outBits = s.outBits := rfl
@[simp] theorem State.setOvr_answers : (s.setOvr).answers = s.answers := rfl
@[simp] theorem State.setOvr_draws : (s.setOvr).draws = s.draws := rfl
@[simp] theorem State.setOvr_script : (s.setOvr).script = s.script := rfl
@[simp] theorem State.setOvr_hostData : (s.setOvr).hostData = s.hostData := rfl
@[simp] theorem State.setOvr_hostOut : (s.setOvr).hostOut = s.hostOut := rfl
@[simp] theorem State.setOvr_passes : (s.setOvr).passes = s.passes := rfl

@[simp] theorem State.accept_params (w : Word) : (s.accept w).params = s.params := rfl
@[simp] theorem State.accept_freq (w : Word) : (s.accept w).freq = s.freq := rfl
@[simp] theorem State.accept_tree (w : Word) : (s.accept w).tree = s.tree := rfl
@[simp] theorem State.accept_code (w : Word) : (s.accept w).code = s.code := rfl
@[simp] theorem State.accept_status (w : Word) : (s.accept w).status = { s.status with busy := true } := rfl
@[simp] theorem State.accept_result (w : Word) : (s.accept w).result = s.result := rfl
@[simp] theorem State.accept_nleaf (w : Word) : (s.accept w).nleaf = s.nleaf := rfl
@[simp] theorem State.accept_inpos (w : Word) : (s.accept w).inpos = s.inpos := rfl
@[simp] theorem State.accept_outpos (w : Word) : (s.accept w).outpos = s.outpos := rfl
@[simp] theorem State.accept_cmd (w : Word) : (s.accept w).cmd = some w := rfl
@[simp] theorem State.accept_ovrSeen (w : Word) : (s.accept w).ovrSeen = s.status.ovr := rfl
@[simp] theorem State.accept_inBits (w : Word) : (s.accept w).inBits = s.inBits := rfl
@[simp] theorem State.accept_inCur (w : Word) : (s.accept w).inCur = s.inCur := rfl
@[simp] theorem State.accept_outBits (w : Word) : (s.accept w).outBits = s.outBits := rfl
@[simp] theorem State.accept_answers (w : Word) : (s.accept w).answers = s.answers := rfl
@[simp] theorem State.accept_draws (w : Word) : (s.accept w).draws = s.draws := rfl
@[simp] theorem State.accept_script (w : Word) : (s.accept w).script = s.script := rfl
@[simp] theorem State.accept_hostData (w : Word) : (s.accept w).hostData = s.hostData := rfl
@[simp] theorem State.accept_hostOut (w : Word) : (s.accept w).hostOut = s.hostOut := rfl
@[simp] theorem State.accept_passes (w : Word) : (s.accept w).passes = s.passes := rfl

@[simp] theorem State.complete_params : (s.complete).params = s.params := rfl
@[simp] theorem State.complete_freq : (s.complete).freq = s.freq := rfl
@[simp] theorem State.complete_tree : (s.complete).tree = s.tree := rfl
@[simp] theorem State.complete_code : (s.complete).code = s.code := rfl
@[simp] theorem State.complete_status : (s.complete).status = { s.status with busy := false } := rfl
@[simp] theorem State.complete_result : (s.complete).result = s.result := rfl
@[simp] theorem State.complete_nleaf : (s.complete).nleaf = s.nleaf := rfl
@[simp] theorem State.complete_inpos : (s.complete).inpos = s.inpos := rfl
@[simp] theorem State.complete_outpos : (s.complete).outpos = s.outpos := rfl
@[simp] theorem State.complete_cmd : (s.complete).cmd = none := rfl
@[simp] theorem State.complete_ovrSeen : (s.complete).ovrSeen = s.ovrSeen := rfl
@[simp] theorem State.complete_inBits : (s.complete).inBits = s.inBits := rfl
@[simp] theorem State.complete_inCur : (s.complete).inCur = s.inCur := rfl
@[simp] theorem State.complete_outBits : (s.complete).outBits = s.outBits := rfl
@[simp] theorem State.complete_answers : (s.complete).answers = s.answers := rfl
@[simp] theorem State.complete_draws : (s.complete).draws = s.draws := rfl
@[simp] theorem State.complete_script : (s.complete).script = s.script := rfl
@[simp] theorem State.complete_hostData : (s.complete).hostData = s.hostData := rfl
@[simp] theorem State.complete_hostOut : (s.complete).hostOut = s.hostOut := rfl
@[simp] theorem State.complete_passes : (s.complete).passes = s.passes := rfl

@[simp] theorem State.enterError_params (op : Byte) (e : Err) : (s.enterError op e).params = s.params := rfl
@[simp] theorem State.enterError_freq (op : Byte) (e : Err) : (s.enterError op e).freq = s.freq := rfl
@[simp] theorem State.enterError_tree (op : Byte) (e : Err) : (s.enterError op e).tree = s.tree := rfl
@[simp] theorem State.enterError_code (op : Byte) (e : Err) : (s.enterError op e).code = s.code := rfl
@[simp] theorem State.enterError_status (op : Byte) (e : Err) : (s.enterError op e).status = { s.status with err := true, errcode := some e, errop := op } := rfl
@[simp] theorem State.enterError_result (op : Byte) (e : Err) : (s.enterError op e).result = s.result := rfl
@[simp] theorem State.enterError_nleaf (op : Byte) (e : Err) : (s.enterError op e).nleaf = s.nleaf := rfl
@[simp] theorem State.enterError_inpos (op : Byte) (e : Err) : (s.enterError op e).inpos = s.inpos := rfl
@[simp] theorem State.enterError_outpos (op : Byte) (e : Err) : (s.enterError op e).outpos = s.outpos := rfl
@[simp] theorem State.enterError_cmd (op : Byte) (e : Err) : (s.enterError op e).cmd = s.cmd := rfl
@[simp] theorem State.enterError_ovrSeen (op : Byte) (e : Err) : (s.enterError op e).ovrSeen = s.ovrSeen := rfl
@[simp] theorem State.enterError_inBits (op : Byte) (e : Err) : (s.enterError op e).inBits = s.inBits := rfl
@[simp] theorem State.enterError_inCur (op : Byte) (e : Err) : (s.enterError op e).inCur = s.inCur := rfl
@[simp] theorem State.enterError_outBits (op : Byte) (e : Err) : (s.enterError op e).outBits = s.outBits := rfl
@[simp] theorem State.enterError_answers (op : Byte) (e : Err) : (s.enterError op e).answers = s.answers := rfl
@[simp] theorem State.enterError_draws (op : Byte) (e : Err) : (s.enterError op e).draws = s.draws := rfl
@[simp] theorem State.enterError_script (op : Byte) (e : Err) : (s.enterError op e).script = s.script := rfl
@[simp] theorem State.enterError_hostData (op : Byte) (e : Err) : (s.enterError op e).hostData = s.hostData := rfl
@[simp] theorem State.enterError_hostOut (op : Byte) (e : Err) : (s.enterError op e).hostOut = s.hostOut := rfl
@[simp] theorem State.enterError_passes (op : Byte) (e : Err) : (s.enterError op e).passes = s.passes := rfl

@[simp] theorem State.clearError_params : (s.clearError).params = s.params := rfl
@[simp] theorem State.clearError_freq : (s.clearError).freq = s.freq := rfl
@[simp] theorem State.clearError_tree : (s.clearError).tree = s.tree := rfl
@[simp] theorem State.clearError_code : (s.clearError).code = s.code := rfl
@[simp] theorem State.clearError_status : (s.clearError).status = { s.status with err := false, ovr := false, errcode := none, errop := 0 } := rfl
@[simp] theorem State.clearError_result : (s.clearError).result = s.result := rfl
@[simp] theorem State.clearError_nleaf : (s.clearError).nleaf = s.nleaf := rfl
@[simp] theorem State.clearError_inpos : (s.clearError).inpos = s.inpos := rfl
@[simp] theorem State.clearError_outpos : (s.clearError).outpos = s.outpos := rfl
@[simp] theorem State.clearError_cmd : (s.clearError).cmd = s.cmd := rfl
@[simp] theorem State.clearError_ovrSeen : (s.clearError).ovrSeen = s.ovrSeen := rfl
@[simp] theorem State.clearError_inBits : (s.clearError).inBits = s.inBits := rfl
@[simp] theorem State.clearError_inCur : (s.clearError).inCur = s.inCur := rfl
@[simp] theorem State.clearError_outBits : (s.clearError).outBits = s.outBits := rfl
@[simp] theorem State.clearError_answers : (s.clearError).answers = s.answers := rfl
@[simp] theorem State.clearError_draws : (s.clearError).draws = s.draws := rfl
@[simp] theorem State.clearError_script : (s.clearError).script = s.script := rfl
@[simp] theorem State.clearError_hostData : (s.clearError).hostData = s.hostData := rfl
@[simp] theorem State.clearError_hostOut : (s.clearError).hostOut = s.hostOut := rfl
@[simp] theorem State.clearError_passes : (s.clearError).passes = s.passes := rfl

@[simp] theorem State.startDecode_params : (s.startDecode).params = s.params := rfl
@[simp] theorem State.startDecode_freq : (s.startDecode).freq = s.freq := rfl
@[simp] theorem State.startDecode_tree : (s.startDecode).tree = s.tree := rfl
@[simp] theorem State.startDecode_code : (s.startDecode).code = s.code := rfl
@[simp] theorem State.startDecode_status : (s.startDecode).status = { s.status with eos := false, dstate := .decode } := rfl
@[simp] theorem State.startDecode_result : (s.startDecode).result = s.result := rfl
@[simp] theorem State.startDecode_nleaf : (s.startDecode).nleaf = s.nleaf := rfl
@[simp] theorem State.startDecode_inpos : (s.startDecode).inpos = s.inpos := rfl
@[simp] theorem State.startDecode_outpos : (s.startDecode).outpos = s.outpos := rfl
@[simp] theorem State.startDecode_cmd : (s.startDecode).cmd = s.cmd := rfl
@[simp] theorem State.startDecode_ovrSeen : (s.startDecode).ovrSeen = s.ovrSeen := rfl
@[simp] theorem State.startDecode_inBits : (s.startDecode).inBits = s.inBits := rfl
@[simp] theorem State.startDecode_inCur : (s.startDecode).inCur = s.inCur := rfl
@[simp] theorem State.startDecode_outBits : (s.startDecode).outBits = s.outBits := rfl
@[simp] theorem State.startDecode_answers : (s.startDecode).answers = s.answers := rfl
@[simp] theorem State.startDecode_draws : (s.startDecode).draws = s.draws := rfl
@[simp] theorem State.startDecode_script : (s.startDecode).script = s.script := rfl
@[simp] theorem State.startDecode_hostData : (s.startDecode).hostData = s.hostData := rfl
@[simp] theorem State.startDecode_hostOut : (s.startDecode).hostOut = s.hostOut := rfl
@[simp] theorem State.startDecode_passes : (s.startDecode).passes = s.passes := rfl

@[simp] theorem State.endDecode_params : (s.endDecode).params = s.params := rfl
@[simp] theorem State.endDecode_freq : (s.endDecode).freq = s.freq := rfl
@[simp] theorem State.endDecode_tree : (s.endDecode).tree = s.tree := rfl
@[simp] theorem State.endDecode_code : (s.endDecode).code = s.code := rfl
@[simp] theorem State.endDecode_status : (s.endDecode).status = { s.status with eos := true, dstate := .done } := rfl
@[simp] theorem State.endDecode_result : (s.endDecode).result = s.result := rfl
@[simp] theorem State.endDecode_nleaf : (s.endDecode).nleaf = s.nleaf := rfl
@[simp] theorem State.endDecode_inpos : (s.endDecode).inpos = s.inpos := rfl
@[simp] theorem State.endDecode_outpos : (s.endDecode).outpos = s.outpos := rfl
@[simp] theorem State.endDecode_cmd : (s.endDecode).cmd = s.cmd := rfl
@[simp] theorem State.endDecode_ovrSeen : (s.endDecode).ovrSeen = s.ovrSeen := rfl
@[simp] theorem State.endDecode_inBits : (s.endDecode).inBits = s.inBits := rfl
@[simp] theorem State.endDecode_inCur : (s.endDecode).inCur = s.inCur := rfl
@[simp] theorem State.endDecode_outBits : (s.endDecode).outBits = s.outBits := rfl
@[simp] theorem State.endDecode_answers : (s.endDecode).answers = s.answers := rfl
@[simp] theorem State.endDecode_draws : (s.endDecode).draws = s.draws := rfl
@[simp] theorem State.endDecode_script : (s.endDecode).script = s.script := rfl
@[simp] theorem State.endDecode_hostData : (s.endDecode).hostData = s.hostData := rfl
@[simp] theorem State.endDecode_hostOut : (s.endDecode).hostOut = s.hostOut := rfl
@[simp] theorem State.endDecode_passes : (s.endDecode).passes = s.passes := rfl

@[simp] theorem State.afterCalls_params (k : Nat) : (s.afterCalls k).params = s.params := rfl
@[simp] theorem State.afterCalls_freq (k : Nat) : (s.afterCalls k).freq = s.freq := rfl
@[simp] theorem State.afterCalls_tree (k : Nat) : (s.afterCalls k).tree = s.tree := rfl
@[simp] theorem State.afterCalls_code (k : Nat) : (s.afterCalls k).code = s.code := rfl
@[simp] theorem State.afterCalls_status (k : Nat) : (s.afterCalls k).status = s.status := rfl
@[simp] theorem State.afterCalls_result (k : Nat) : (s.afterCalls k).result = s.result := rfl
@[simp] theorem State.afterCalls_nleaf (k : Nat) : (s.afterCalls k).nleaf = s.nleaf := rfl
@[simp] theorem State.afterCalls_inpos (k : Nat) : (s.afterCalls k).inpos = s.inpos := rfl
@[simp] theorem State.afterCalls_outpos (k : Nat) : (s.afterCalls k).outpos = s.outpos := rfl
@[simp] theorem State.afterCalls_cmd (k : Nat) : (s.afterCalls k).cmd = s.cmd := rfl
@[simp] theorem State.afterCalls_ovrSeen (k : Nat) : (s.afterCalls k).ovrSeen = s.ovrSeen := rfl
@[simp] theorem State.afterCalls_inBits (k : Nat) : (s.afterCalls k).inBits = s.inBits := rfl
@[simp] theorem State.afterCalls_inCur (k : Nat) : (s.afterCalls k).inCur = s.inCur := rfl
@[simp] theorem State.afterCalls_outBits (k : Nat) : (s.afterCalls k).outBits = s.outBits := rfl
@[simp] theorem State.afterCalls_answers (k : Nat) : (s.afterCalls k).answers = s.answers.drop k := rfl
@[simp] theorem State.afterCalls_draws (k : Nat) : (s.afterCalls k).draws = s.draws := rfl
@[simp] theorem State.afterCalls_script (k : Nat) : (s.afterCalls k).script = s.script := rfl
@[simp] theorem State.afterCalls_hostData (k : Nat) : (s.afterCalls k).hostData = s.hostData := rfl
@[simp] theorem State.afterCalls_hostOut (k : Nat) : (s.afterCalls k).hostOut = s.hostOut := rfl
@[simp] theorem State.afterCalls_passes (k : Nat) : (s.afterCalls k).passes = s.passes := rfl

end Sys2Proof.Machine
end

