-- ==== Sys2Proof/Laws/Ops.lean ====
section
/-! SUPPORT. What the shared operations of Machine/Ops.lean do: sequencing, the end of a command, and the channel
primitives under a reliable and under a failing channel (20_memory.md R53 to R58). -/

namespace Sys2Proof.Machine

variable {α β : Type}

/-! ### Sequencing -/

@[simp] theorem Res.bind_ok (a : α) (s : State) (f : α → State → Res β) : (Res.ok a s).bind f = f a s := rfl
@[simp] theorem Res.bind_raise (e : Err) (s : State) (f : α → State → Res β) :
    (Res.raise e s : Res α).bind f = .raise e s := rfl
@[simp] theorem Res.bind_stuck (f : α → State → Res β) : (Res.stuck : Res α).bind f = .stuck := rfl
@[simp] theorem Res.andThen_ok (u : Unit) (s : State) (f : State → Res Unit) : (Res.ok u s).andThen f = f s := rfl
@[simp] theorem Res.andThen_raise (e : Err) (s : State) (f : State → Res Unit) :
    (Res.raise e s).andThen f = .raise e s := rfl
@[simp] theorem Res.andThen_stuck (f : State → Res Unit) : (Res.stuck).andThen f = .stuck := rfl
@[simp] theorem raiseIf_true (e : Err) (s : State) (k : State → Res Unit) : raiseIf true e s k = .raise e s := rfl
@[simp] theorem raiseIf_false (e : Err) (s : State) (k : State → Res Unit) : raiseIf false e s k = k s := rfl

theorem raiseIf_of_true {c : Bool} (h : c = true) (e : Err) (s : State) (k : State → Res Unit) :
    raiseIf c e s k = .raise e s := by rw [h]; rfl
theorem raiseIf_of_false {c : Bool} (h : c = false) (e : Err) (s : State) (k : State → Res Unit) :
    raiseIf c e s k = k s := by rw [h]; rfl
theorem raiseIf_pos {p : Prop} [Decidable p] (h : p) (e : Err) (s : State) (k : State → Res Unit) :
    raiseIf p e s k = .raise e s := by simp [raiseIf, h]
theorem raiseIf_neg {p : Prop} [Decidable p] (h : ¬p) (e : Err) (s : State) (k : State → Res Unit) :
    raiseIf p e s k = k s := by simp [raiseIf, h]

theorem Res.bind_eq_ok {r : Res α} {f : α → State → Res β} {b : β} {t : State} (h : r.bind f = .ok b t) :
    ∃ a s, r = .ok a s ∧ f a s = .ok b t := by
  cases r with
  | ok a s => exact ⟨a, s, rfl, h⟩
  | raise e s => simp at h
  | stuck => simp at h

theorem Res.andThen_eq_ok {r : Res Unit} {f : State → Res Unit} {t : State} (h : r.andThen f = .ok () t) :
    ∃ s, r = .ok () s ∧ f s = .ok () t := by
  obtain ⟨_, s, hr, hf⟩ := Res.bind_eq_ok h
  exact ⟨s, hr, hf⟩

@[simp] theorem Res.finish_ok (op : Byte) (u : Unit) (s : State) : (Res.ok u s).finish op = .next s.done := rfl
@[simp] theorem Res.finish_raise (op : Byte) (e : Err) (s : State) :
    (Res.raise e s).finish op = .next (s.failed op e) := rfl
@[simp] theorem Res.finish_stuck (op : Byte) : (Res.stuck).finish op = .fault .noProgress := rfl

/-- Everything the end of a command can be. -/
theorem Res.finish_eq_next {op : Byte} {r : Res Unit} {t : State} (h : r.finish op = .next t) :
    (∃ s, r = .ok () s ∧ t = s.done) ∨ (∃ e s, r = .raise e s ∧ t = s.failed op e) := by
  cases r with
  | ok u s => exact .inl ⟨s, rfl, by simpa using h.symm⟩
  | raise e s => exact .inr ⟨e, s, rfl, by simpa using h.symm⟩
  | stuck => simp at h

/-! ### The state a piece of pseudocode ends in -/

/-- `P` holds of the state `r` ends in, whether by a value or by a `raise`. -/
def Res.Ends (P : State → Prop) : Res α → Prop
  | .ok _ s => P s
  | .raise _ s => P s
  | .stuck => True

@[simp] theorem Res.ends_ok {P : State → Prop} {a : α} {s : State} : (Res.ok a s).Ends P ↔ P s := Iff.rfl
@[simp] theorem Res.ends_raise {P : State → Prop} {e : Err} {s : State} :
    (Res.raise e s : Res α).Ends P ↔ P s := Iff.rfl
@[simp] theorem Res.ends_stuck {P : State → Prop} : (Res.stuck : Res α).Ends P := trivial

theorem Res.Ends.bind {P Q : State → Prop} {r : Res α} {f : α → State → Res β} (hr : r.Ends P)
    (hPQ : ∀ s, P s → Q s) (hf : ∀ a s, P s → (f a s).Ends Q) : (r.bind f).Ends Q := by
  cases r with
  | ok a s => exact hf a s hr
  | raise e s => exact hPQ s hr
  | stuck => trivial

/-- A property every piece keeps is kept by the sequence. -/
theorem Res.Ends.seq {P : State → Prop} {r : Res α} {f : α → State → Res β} (hr : r.Ends P)
    (hf : ∀ a s, P s → (f a s).Ends P) : (r.bind f).Ends P := hr.bind (fun _ h => h) hf

theorem Res.Ends.then {P : State → Prop} {r : Res Unit} {f : State → Res Unit} (hr : r.Ends P)
    (hf : ∀ s, P s → (f s).Ends P) : (r.andThen f).Ends P := hr.seq fun _ s h => hf s h

theorem raiseIf_ends {P : State → Prop} {c : Bool} {e : Err} {s : State} {k : State → Res Unit}
    (hs : P s) (hk : c = false → (k s).Ends P) : (raiseIf c e s k).Ends P := by
  cases c
  · exact hk rfl
  · exact hs

/-- What a command's last state is, in terms of the state its pseudocode ends in. -/
theorem Res.Ends.finish {P : State → Prop} {op : Byte} {r : Res Unit} {t : State} (hr : r.Ends P)
    (h : r.finish op = .next t) : ∃ s, P s ∧ (t = s.done ∨ ∃ e, t = s.failed op e) := by
  rcases Res.finish_eq_next h with ⟨s, rfl, rfl⟩ | ⟨e, s, rfl, rfl⟩
  · exact ⟨s, hr, .inl rfl⟩
  · exact ⟨s, hr, .inr ⟨e, rfl⟩⟩

/-! ### The channel oracle -/

theorem State.takeAnswer_eq (s : State) : s.takeAnswer = (s.answers.headD .ok, s.afterCalls 1) := by
  unfold takeAnswer
  split <;> simp_all [State.afterCalls]
  · cases s; simp_all

@[simp] theorem State.afterCalls_zero (s : State) : s.afterCalls 0 = s := rfl

@[simp] theorem State.afterCalls_afterCalls (s : State) (j k : Nat) :
    (s.afterCalls j).afterCalls k = s.afterCalls (j + k) := by
  simp [State.afterCalls, List.drop_drop]

theorem State.Reliable.head {s : State} (h : s.Reliable) : s.answers.headD .ok = .ok := by
  cases ha : s.answers with
  | nil => rfl
  | cons a l => exact h a (by simp [ha])

theorem State.OkFor.head {s : State} {k : Nat} (h : s.OkFor (k + 1)) : s.answers.headD .ok = .ok := by
  cases ha : s.answers with
  | nil => rfl
  | cons a l => exact h a (by simp [ha])

theorem State.OkFor.tail {s : State} {k : Nat} (h : s.OkFor (k + 1)) : (s.afterCalls 1).OkFor k := by
  intro a ha
  cases hs : s.answers with
  | nil => simp [State.afterCalls, hs] at ha
  | cons b l => simp [State.afterCalls, hs] at ha; exact h a (by simp [hs, ha])

theorem State.OkFor.mono {s : State} {j k : Nat} (h : s.OkFor k) (hjk : j ≤ k) : s.OkFor j := by
  intro a ha
  apply h a
  rw [show j = min j k by omega, ← List.take_take] at ha
  exact List.mem_of_mem_take ha

theorem State.OkFor.drop {s : State} {j k : Nat} (h : s.OkFor (j + k)) : (s.afterCalls j).OkFor k := by
  intro a ha
  apply h a
  have : s.answers.take (j + k) = s.answers.take j ++ (s.answers.drop j).take k := List.take_add
  rw [this]
  exact List.mem_append_right _ ha

theorem State.Reliable.okFor {s : State} (h : s.Reliable) (k : Nat) : s.OkFor k :=
  fun a ha => h a (List.mem_of_mem_take ha)

/-! ### IN -/

theorem State.inRest_length (s : State) : s.inRest.length = s.inLeft := by
  simp [State.inRest, State.inLeft]

theorem State.inRest_congr {s t : State} (hb : t.inBits = s.inBits) (hc : t.inCur = s.inCur) : t.inRest = s.inRest := by
  simp [State.inRest, hb, hc]

@[simp] theorem State.inRest_afterCalls (s : State) (k : Nat) : (s.afterCalls k).inRest = s.inRest := rfl

theorem State.inRest_seekIn (s : State) (n : Nat) : (s.seekIn (s.inCur + n)).inRest = s.inRest.drop n := by
  simp [State.inRest, State.seekIn, List.drop_drop]

/-- After the bits `bs` are read, the rest is what followed them. -/
theorem State.inRest_after {s : State} {bs rest : Bits} {n : Nat} (h : s.inRest = bs ++ rest) (hn : bs.length = n) :
    (s.seekIn (s.inCur + n)).inRest = rest := by
  rw [inRest_seekIn, h, ← hn, List.drop_left]

theorem State.inRest_bit {s : State} {b : Bool} {rest : Bits} (h : s.inRest = b :: rest) :
    (s.seekIn (s.inCur + 1)).inRest = rest := inRest_after (bs := [b]) h rfl

theorem inRead_fail {n : Nat} {s : State} (h : s.answers.headD .ok = .fail) :
    inRead n s = (.fail, s.afterCalls 1) := by
  simp only [inRead, State.takeAnswer_eq, h]

theorem inRead_val {n : Nat} {s : State} {bs rest : Bits} (hok : s.answers.headD .ok = .ok)
    (h : s.inRest = bs ++ rest) (hn : bs.length = n) (h0 : 0 < n) :
    inRead n s = (.val (BitVec.ofNat n (bitsVal bs)), (s.afterCalls 1).seekIn (s.inCur + n)) := by
  have hl := congrArg List.length h
  rw [State.inRest_length, State.inLeft, List.length_append] at hl
  have hb : (s.inBits.drop s.inCur).take n = bs := by
    show s.inRest.take n = bs
    rw [h, ← hn, List.take_left]
  simp only [inRead, State.takeAnswer_eq, hok]
  rw [if_neg (by simp; omega)]
  simp [hb]

theorem inRead_end {n : Nat} {s : State} (hok : s.answers.headD .ok = .ok) (h : s.inLeft < n) :
    inRead n s = (.atEnd, s.afterCalls 1) := by
  simp only [State.inLeft] at h
  simp only [inRead, State.takeAnswer_eq, hok]
  rw [if_pos (by simp; omega)]

/-- Everything `InRead` can do (R54). -/
theorem inRead_cases (n : Nat) (s : State) :
    inRead n s = (.fail, s.afterCalls 1) ∨ inRead n s = (.atEnd, s.afterCalls 1) ∨
      ∃ v, s.inCur + n ≤ s.inBits.length ∧ inRead n s = (.val v, (s.afterCalls 1).seekIn (s.inCur + n)) := by
  simp only [inRead, State.takeAnswer_eq]
  cases s.answers.headD .ok with
  | fail => exact .inl rfl
  | ok =>
    by_cases hlt : s.inBits.length < s.inCur + n
    · exact .inr (.inl (by simp [hlt]))
    · exact .inr (.inr ⟨_, by omega, by simp [hlt]; rfl⟩)

theorem readOr_ok {n : Nat} {s : State} {short : Err} {bs rest : Bits} (hok : s.answers.headD .ok = .ok)
    (h : s.inRest = bs ++ rest) (hn : bs.length = n) (h0 : 0 < n) :
    readOr n short s = .ok (BitVec.ofNat n (bitsVal bs)) ((s.afterCalls 1).seekIn (s.inCur + n)) := by
  simp [readOr, inRead_val hok h hn h0]

/-- One bit. -/
theorem readOr_bit {s : State} {short : Err} {b : Bool} {rest : Bits} (hok : s.answers.headD .ok = .ok)
    (h : s.inRest = b :: rest) :
    readOr 1 short s = .ok (BitVec.ofBool b) ((s.afterCalls 1).seekIn (s.inCur + 1)) := by
  rw [readOr_ok (bs := [b]) (n := 1) hok h rfl (by omega)]
  cases b <;> rfl

theorem readOr_short {n : Nat} {s : State} {short : Err} (hok : s.answers.headD .ok = .ok) (h : s.inLeft < n) :
    readOr n short s = .raise short (s.afterCalls 1) := by
  simp [readOr, inRead_end hok h]

theorem readOr_fail {n : Nat} {s : State} {short : Err} (h : s.answers.headD .ok = .fail) :
    readOr n short s = .raise .ioIn (s.afterCalls 1) := by
  simp [readOr, inRead_fail h]

/-- Everything a read inside a command can do. -/
theorem readOr_cases (n : Nat) (short : Err) (s : State) :
    readOr n short s = .raise .ioIn (s.afterCalls 1) ∨ readOr n short s = .raise short (s.afterCalls 1) ∨
      ∃ v, s.inCur + n ≤ s.inBits.length ∧
        readOr n short s = .ok v ((s.afterCalls 1).seekIn (s.inCur + n)) := by
  unfold readOr
  rcases inRead_cases n s with h | h | ⟨v, hv, h⟩
  · exact .inl (by rw [h])
  · exact .inr (.inl (by rw [h]))
  · exact .inr (.inr ⟨v, hv, by rw [h]⟩)

/-! ### OUT -/

theorem outWrite_ok {n v : Nat} {s : State} (hok : s.answers.headD .ok = .ok) :
    outWrite n v s = (.ok, (s.afterCalls 1).appendOut (msbf n v)) := by
  simp only [outWrite, State.takeAnswer_eq, hok]

theorem writeOr_ok {n v : Nat} {s : State} (hok : s.answers.headD .ok = .ok) :
    writeOr n v s = .ok () ((s.afterCalls 1).appendOut (msbf n v)) := by
  simp [writeOr, outWrite_ok hok]

theorem outWrite_fail {n v : Nat} {s : State} (h : s.answers.headD .ok = .fail) :
    outWrite n v s = (.fail, s.afterCalls 1) := by
  simp only [outWrite, State.takeAnswer_eq, h]

theorem writeOr_fail {n v : Nat} {s : State} (h : s.answers.headD .ok = .fail) :
    writeOr n v s = .raise .ioOut (s.afterCalls 1) := by
  simp [writeOr, outWrite_fail h]

/-- Everything a write inside a command can do. -/
theorem writeOr_cases (n v : Nat) (s : State) :
    writeOr n v s = .raise .ioOut (s.afterCalls 1) ∨
      writeOr n v s = .ok () ((s.afterCalls 1).appendOut (msbf n v)) := by
  cases h : s.answers.headD .ok
  · exact .inr (writeOr_ok h)
  · exact .inl (writeOr_fail h)

@[simp] theorem State.appendOut_nil (s : State) : s.appendOut [] = s := by
  cases s; simp [State.appendOut]

@[simp] theorem State.appendOut_appendOut (s : State) (as bs : Bits) :
    (s.appendOut as).appendOut bs = s.appendOut (as ++ bs) := by
  simp [State.appendOut, BitVec.ofNat_add, BitVec.add_assoc]

theorem State.afterCalls_appendOut (s : State) (k : Nat) (bs : Bits) :
    (s.appendOut bs).afterCalls k = (s.afterCalls k).appendOut bs := rfl

theorem State.OkFor.congr {s t : State} {k : Nat} (h : s.OkFor k) (e : t.answers = s.answers) : t.OkFor k := by
  unfold State.OkFor; rw [e]; exact h

theorem State.OkFor.appendOut {s : State} {k : Nat} (h : s.OkFor k) (bs : Bits) : (s.appendOut bs).OkFor k := h

theorem State.OkFor.seekIn {s : State} {k : Nat} (h : s.OkFor k) (c : Nat) : (s.seekIn c).OkFor k := h

/-- A code is written bit by bit (R67, R150). -/
theorem writeBits_ok {bs : Bits} {s : State} (h : s.OkFor bs.length) :
    writeBits bs s = .ok () ((s.afterCalls bs.length).appendOut bs) := by
  induction bs generalizing s with
  | nil => simp [writeBits]
  | cons b bs ih =>
    rw [writeBits, writeOr_ok h.head, Res.andThen_ok, msbf_one_toNat]
    rw [ih (h.tail.appendOut _), State.afterCalls_appendOut, State.appendOut_appendOut]
    simp [Nat.add_comm]

/-- A failed call leaves the bits written before it in OUT (R150, R196). -/
theorem writeBits_fail {bs : Bits} {s : State} {k : Nat} (hk : k < bs.length) (h : s.OkFor k)
    (hf : s.answers[k]? = some .fail) :
    writeBits bs s = .raise .ioOut ((s.afterCalls (k + 1)).appendOut (bs.take k)) := by
  induction bs generalizing s k with
  | nil => simp at hk
  | cons b bs ih =>
    rw [writeBits]
    cases k with
    | zero =>
      have : s.answers.headD .ok = .fail := by cases ha : s.answers <;> simp_all
      rw [writeOr_fail this]; simp
    | succ k =>
      rw [writeOr_ok h.head, Res.andThen_ok, msbf_one_toNat]
      have hf' : ((s.afterCalls 1).appendOut [b]).answers[k]? = some .fail := by
        simp [State.afterCalls]; exact hf
      rw [ih (by simpa using hk) (h.tail.appendOut _) hf', State.afterCalls_appendOut,
        State.appendOut_appendOut]
      simp [Nat.add_comm, Nat.add_left_comm]

/-! ### Properties the channel calls keep -/

theorem readOr_ends {n : Nat} {short : Err} {s : State} {P : State → Prop} (h1 : P (s.afterCalls 1))
    (h2 : s.inCur + n ≤ s.inBits.length → P ((s.afterCalls 1).seekIn (s.inCur + n))) :
    (readOr n short s).Ends P := by
  rcases readOr_cases n short s with h | h | ⟨v, hv, h⟩ <;> rw [h]
  · exact h1
  · exact h1
  · exact h2 hv

theorem writeOr_ends {n v : Nat} {s : State} {P : State → Prop} (h1 : P (s.afterCalls 1))
    (h2 : P ((s.afterCalls 1).appendOut (msbf n v))) : (writeOr n v s).Ends P := by
  rcases writeOr_cases n v s with h | h <;> rw [h]
  · exact h1
  · exact h2

theorem writeBits_ends {bs : Bits} {s : State} {P : State → Prop} (hs : P s)
    (hcall : ∀ t, P t → P (t.afterCalls 1)) (happ : ∀ t b, P t → P (t.appendOut [b])) :
    (writeBits bs s).Ends P := by
  induction bs generalizing s with
  | nil => exact hs
  | cons b bs ih =>
    refine Res.Ends.then ?_ fun t ht => ih ht
    refine writeOr_ends (hcall s hs) ?_
    rw [msbf_one_toNat]
    exact happ _ b (hcall s hs)

end Sys2Proof.Machine
end

