-- ==== Sys2Proof/Laws/Tree.lean ====
section
/-! SUPPORT. Trees: their sizes, their header, their paths and their code table (00_scope.md R12, 30_encoding.md R91,
42_tree_codec.md R135, 43_code_table.md R141 to R143, 45_decoder.md R160). -/

namespace Sys2Proof.Machine

/-! ### Sizes -/

theorem Tree.leaves_pos (t : Tree) : 1 ≤ t.leaves := by
  induction t with
  | leaf => exact Nat.le_refl 1
  | node l r hl hr => simp only [leaves]; omega

theorem Tree.nodes_add_one (t : Tree) : t.nodes + 1 = 2 * t.leaves := by
  induction t with
  | leaf => rfl
  | node l r hl hr => simp only [nodes, leaves]; omega

theorem Tree.height_lt_leaves (t : Tree) : t.height < t.leaves := by
  induction t with
  | leaf => exact Nat.zero_lt_one
  | node l r hl hr =>
    have := l.leaves_pos
    have := r.leaves_pos
    simp only [height, leaves]; omega

/-- The two bounds of R25 that decide the rest. -/
theorem TreeInv.of_cap {t : Tree} (hc : t.nodes ≤ Config.nodeCap) (hr : t.degenerate = false) : TreeInv t := by
  have h1 := t.nodes_add_one
  have h2 := t.height_lt_leaves
  have hc' : t.nodes ≤ 513 := hc
  refine ⟨by omega, hc, by omega, ?_, hr⟩
  show t.height ≤ 256
  omega

theorem ser_length (t : Tree) : (ser t).length + 1 = 11 * t.leaves := by
  induction t with
  | leaf => simp [ser, Tree.leaves]
  | node l r hl hr => simp only [ser, Tree.leaves, List.length_cons, List.length_append]; omega

theorem Tree.symbols_eq_paths (t : Tree) : t.symbols = t.paths.map Prod.fst := by
  induction t with
  | leaf => rfl
  | node l r hl hr => simp [symbols, paths, hl, hr, Function.comp_def]

theorem Tree.paths_length (t : Tree) : t.paths.length = t.leaves := by
  induction t with
  | leaf => rfl
  | node l r hl hr => simp [paths, leaves, hl, hr]

theorem Tree.symbols_length (t : Tree) : t.symbols.length = t.leaves := by
  rw [symbols_eq_paths, List.length_map, paths_length]

theorem Tree.mem_paths_node {l r : Tree} {x : Symbol} {p : Bits} :
    (x, p) ∈ (Tree.node l r).paths ↔
      (∃ q, (x, q) ∈ l.paths ∧ p = false :: q) ∨ (∃ q, (x, q) ∈ r.paths ∧ p = true :: q) := by
  simp only [paths, List.mem_append, List.mem_map, Prod.mk.injEq, Prod.exists]
  constructor
  · rintro (⟨a, q, h, rfl, rfl⟩ | ⟨a, q, h, rfl, rfl⟩)
    · exact .inl ⟨q, h, rfl⟩
    · exact .inr ⟨q, h, rfl⟩
  · rintro (⟨q, h, rfl⟩ | ⟨q, h, rfl⟩)
    · exact .inl ⟨x, q, h, rfl, rfl⟩
    · exact .inr ⟨x, q, h, rfl, rfl⟩

theorem Tree.path_length_le {t : Tree} {x : Symbol} {p : Bits} (h : (x, p) ∈ t.paths) : p.length ≤ t.height := by
  induction t generalizing p with
  | leaf => simp [paths] at h; simp [h]
  | node l r hl hr =>
    rcases mem_paths_node.1 h with ⟨q, hq, rfl⟩ | ⟨q, hq, rfl⟩
    · have := hl hq; simp only [height, List.length_cons]; omega
    · have := hr hq; simp only [height, List.length_cons]; omega

/-- No leaf's path begins another leaf's path (R142). -/
theorem Tree.paths_prefix_free {t : Tree} {x y : Symbol} {p q : Bits} (hx : (x, p) ∈ t.paths)
    (hy : (y, q) ∈ t.paths) (hpq : p <+: q) : x = y ∧ p = q := by
  induction t generalizing p q with
  | leaf => simp [paths] at hx hy; simp [hx, hy]
  | node l r hl hr =>
    rcases mem_paths_node.1 hx with ⟨p', hp, rfl⟩ | ⟨p', hp, rfl⟩ <;>
      rcases mem_paths_node.1 hy with ⟨q', hq, rfl⟩ | ⟨q', hq, rfl⟩ <;>
      simp only [List.cons_prefix_cons] at hpq
    · obtain ⟨h1, h2⟩ := hl hp hq hpq.2
      exact ⟨h1, by rw [h2]⟩
    · simp at hpq
    · simp at hpq
    · obtain ⟨h1, h2⟩ := hr hp hq hpq.2
      exact ⟨h1, by rw [h2]⟩

/-! ### The order of reading and counting calls does not matter -/

theorem State.seekIn_afterCalls (s : State) (c k : Nat) : (s.seekIn c).afterCalls k = (s.afterCalls k).seekIn c := rfl

@[simp] theorem State.seekIn_seekIn (s : State) (c d : Nat) : (s.seekIn c).seekIn d = s.seekIn d := rfl

theorem State.seekIn_self {s : State} (h : s.inpos = BitVec.ofNat 32 s.inCur) : s.seekIn s.inCur = s := by
  cases s; simp_all [State.seekIn]

/-! ### The header -/

theorem headerCalls_flatten (t : Tree) : (headerCalls t).flatten = ser t := by
  induction t with
  | leaf x => simp [headerCalls, ser]
  | node l r hl hr => simp [headerCalls, ser, hl, hr]

theorem headerCalls_length (t : Tree) : (headerCalls t).length = t.nodes + t.leaves := by
  induction t with
  | leaf => rfl
  | node l r hl hr => simp only [headerCalls, List.length_cons, List.length_append, Tree.nodes, Tree.leaves]; omega

/-- The one-bit calls are the control bits, one a node (R67). -/
theorem headerCalls_controls (t : Tree) : (headerCalls t).countP (fun b => b.length = 1) = t.nodes := by
  induction t with
  | leaf => rfl
  | node l r hl hr => simp only [headerCalls, List.countP_cons, List.countP_append, hl, hr, Tree.nodes]; simp; omega

/-- Writing the calls `cs`, one after another. -/
def writeCalls : List Bits → State → Res Unit
  | [], s => .ok () s
  | c :: cs, s => (writeOr c.length (bitsVal c) s).andThen (writeCalls cs)

theorem writeCalls_append (as bs : List Bits) (s : State) :
    writeCalls (as ++ bs) s = (writeCalls as s).andThen (writeCalls bs) := by
  induction as generalizing s with
  | nil => rfl
  | cons c cs ih =>
    simp only [List.cons_append, writeCalls]
    cases writeOr c.length (bitsVal c) s with
    | ok u t => exact ih t
    | raise => rfl
    | stuck => rfl

theorem emitTree_eq_writeCalls (t : Tree) (s : State) : emitTree t s = writeCalls (headerCalls t) s := by
  induction t generalizing s with
  | leaf x =>
    have hx : bitsVal (msbf 9 x.val) = x.val := by
      rw [bitsVal_msbf]; exact Nat.mod_eq_of_lt (by have := x.isLt; omega)
    simp only [emitTree, headerCalls, writeCalls, hx, msbf_length]
    show _ = (writeOr 1 1 s).andThen fun s => (writeOr 9 x.val s).andThen fun s => .ok () s
    congr 1; funext u
    cases writeOr 9 x.val u <;> rfl
  | node l r hl hr =>
    simp only [emitTree, headerCalls, writeCalls]
    show ((writeOr 1 0 s).andThen _).andThen _ = (writeOr 1 0 s).andThen _
    cases writeOr 1 0 s with
    | ok u t =>
      simp only [Res.andThen_ok, writeCalls_append, hl]
      congr 1; funext v; exact hr v
    | raise => rfl
    | stuck => rfl

/-- A failed call leaves what the calls before it wrote (R121, R196). -/
theorem writeCalls_fail {cs : List Bits} {s : State} {k : Nat} (hk : k < cs.length) (h : s.OkFor k)
    (hf : s.answers[k]? = some .fail) :
    writeCalls cs s = .raise .ioOut ((s.afterCalls (k + 1)).appendOut (cs.take k).flatten) := by
  induction cs generalizing s k with
  | nil => simp at hk
  | cons c cs ih =>
    rw [writeCalls]
    cases k with
    | zero =>
      have : s.answers.headD .ok = .fail := by cases ha : s.answers <;> simp_all
      rw [writeOr_fail this]; simp
    | succ k =>
      rw [writeOr_ok h.head, Res.andThen_ok, msbf_bitsVal]
      have hf' : ((s.afterCalls 1).appendOut c).answers[k]? = some .fail := by
        simp [State.afterCalls]; exact hf
      rw [ih (by simpa using hk) (h.tail.appendOut _) hf', State.afterCalls_appendOut, State.appendOut_appendOut]
      simp [Nat.add_comm, Nat.add_left_comm]

/-- WTREE's calls write `ser t` (R121). -/
theorem emitTree_ok {t : Tree} {s : State} (h : s.OkFor (t.nodes + t.leaves)) :
    emitTree t s = .ok () ((s.afterCalls (t.nodes + t.leaves)).appendOut (ser t)) := by
  induction t generalizing s with
  | leaf x =>
    have h2 : s.OkFor (1 + 1) := h
    rw [emitTree, writeOr_ok h2.head, Res.andThen_ok, writeOr_ok (State.OkFor.head (h2.tail.appendOut _)),
      State.afterCalls_appendOut, State.appendOut_appendOut, State.afterCalls_afterCalls]
    rfl
  | node l r hl hr =>
    simp only [Tree.nodes, Tree.leaves] at h ⊢
    have h0 : s.OkFor (1 + ((l.nodes + l.leaves) + (r.nodes + r.leaves))) := h.mono (by omega)
    have h1 := h0.drop
    have h2 := h1.drop
    rw [emitTree, writeOr_ok (State.OkFor.head (h0.mono (by omega) : s.OkFor (0 + 1))), Res.andThen_ok,
      hl ((h1.mono (by omega)).appendOut _), Res.andThen_ok, State.afterCalls_appendOut, State.appendOut_appendOut,
      hr (h2.appendOut _), State.afterCalls_appendOut, State.appendOut_appendOut, State.afterCalls_afterCalls,
      State.afterCalls_afterCalls]
    rw [show 1 + (l.nodes + l.leaves + (r.nodes + r.leaves)) = 1 + l.nodes + r.nodes + (l.leaves + r.leaves) by omega]
    simp [ser, msbf]

theorem readLeaf_ok {s : State} {x : Symbol} {rest : Bits} (hok : s.answers.headD .ok = .ok)
    (h : s.inRest = msbf 9 x.val ++ rest) :
    readLeaf s = .ok (.leaf x) ((s.afterCalls 1).seekIn (s.inCur + 9)) := by
  rw [readLeaf, readOr_ok hok h (msbf_length _ _) (by omega), Res.bind_ok, bitsVal_msbf,
    Nat.mod_eq_of_lt (by have := x.isLt; omega), symbolOf_val]

/-- `rd()` rebuilds the tree whose header it reads, when the node cap allows it (R130, R135). -/
theorem readTree_ser {t : Tree} {depth n : Nat} {s : State} {rest : Bits} (hok : s.OkFor (t.nodes + t.leaves))
    (h : s.inRest = ser t ++ rest) (hd : Config.nodeCap ≤ depth + n) (hn : n + t.nodes ≤ Config.nodeCap) :
    readTree depth n s =
      .ok (t, n + t.nodes) ((s.afterCalls (t.nodes + t.leaves)).seekIn (s.inCur + (ser t).length)) := by
  induction t generalizing depth n s rest with
  | leaf x =>
    simp only [Tree.nodes] at hn
    obtain ⟨depth, rfl⟩ : ∃ d, depth = d + 1 := ⟨depth - 1, by omega⟩
    have h2 : s.OkFor (1 + 1) := hok
    have hb : s.inRest = true :: (msbf 9 x.val ++ rest) := by simpa [ser] using h
    rw [readTree, if_neg (by omega), readOr_bit h2.head hb, Res.bind_ok]
    rw [if_neg (by decide), readLeaf_ok (rest := rest) (State.OkFor.head (h2.tail.seekIn _))
      (by exact (State.inRest_bit (s := s.afterCalls 1) hb))]
    simp [ser, Tree.nodes, Tree.leaves, State.seekIn_afterCalls, Nat.add_assoc]
  | node l r hl hr =>
    simp only [Tree.nodes, Tree.leaves] at hn hok ⊢
    obtain ⟨depth, rfl⟩ : ∃ d, depth = d + 1 := ⟨depth - 1, by omega⟩
    have h0 : s.OkFor (1 + ((l.nodes + l.leaves) + (r.nodes + r.leaves))) := hok.mono (by omega)
    have h1 := h0.drop
    have h2 := h1.drop
    have hb : s.inRest = false :: (ser l ++ (ser r ++ rest)) := by simpa [ser] using h
    have hb1 : ((s.afterCalls 1).seekIn (s.inCur + 1)).inRest = ser l ++ (ser r ++ rest) :=
      State.inRest_bit (s := s.afterCalls 1) hb
    have hb2 := State.inRest_after hb1 (n := (ser l).length) rfl
    rw [readTree, if_neg (by omega),
      readOr_bit (State.OkFor.head (h0.mono (by omega) : s.OkFor (0 + 1))) hb, Res.bind_ok,
      if_pos (by decide), hl ((h1.mono (by omega)).seekIn _) hb1 (by omega) (by omega), Res.bind_ok,
      hr (by exact (h2.seekIn _).seekIn _) (by exact hb2) (by simp only; omega) (by simp only; omega), Res.bind_ok]
    simp only [State.seekIn_afterCalls, State.seekIn_seekIn, State.afterCalls_afterCalls, State.seekIn_inCur, ser, List.length_cons, List.length_append]
    rw [show 1 + (l.nodes + l.leaves) + (r.nodes + r.leaves) = 1 + l.nodes + r.nodes + (l.leaves + r.leaves) by omega,
      show n + 1 + l.nodes + r.nodes = n + (1 + l.nodes + r.nodes) by omega,
      show s.inCur + 1 + (ser l).length + (ser r).length = s.inCur + ((ser l).length + (ser r).length + 1) by omega]

/-- `rd()` stops where its `k`-th call raises, when the calls up to it start no more nodes than the cap (R130, R132). -/
theorem readTree_cut {t : Tree} {depth n k : Nat} {s s' : State} {c rest : Bits} {e : Err}
    (hc : (headerCalls t)[k]? = some c) (hok : s.OkFor k) (h : s.inRest = ((headerCalls t).take k).flatten ++ rest)
    (hi : s.inpos = BitVec.ofNat 32 s.inCur) (hd : Config.nodeCap ≤ depth + n)
    (hn : n + ((headerCalls t).take (k + 1)).countP (fun b => b.length = 1) ≤ Config.nodeCap)
    (hr : (if c.length = 1 then (readOr 1 .fmtTreeTrunc
          ((s.afterCalls k).seekIn (s.inCur + ((headerCalls t).take k).flatten.length))).bind fun _ _ => .stuck
        else (readLeaf ((s.afterCalls k).seekIn (s.inCur + ((headerCalls t).take k).flatten.length))).bind
          fun _ _ => .stuck) = (.raise e s' : Res Unit)) :
    readTree depth n s = .raise e s' := by
  induction t generalizing depth n s rest k with
  | leaf x =>
    have hn1 : n < Config.nodeCap := by
      simp only [headerCalls, List.take_succ_cons, List.countP_cons] at hn
      simp at hn
      omega
    obtain ⟨depth, rfl⟩ : ∃ d, depth = d + 1 := ⟨depth - 1, by omega⟩
    rw [readTree, if_neg (by omega)]
    match k, hc with
    | 0, hc =>
      simp only [headerCalls, List.getElem?_cons_zero, Option.some.injEq] at hc
      subst hc
      simp only [List.length_singleton, if_true, List.take_zero, List.flatten_nil, List.length_nil, Nat.add_zero,
        State.afterCalls_zero, State.seekIn_self hi] at hr
      cases hro : readOr 1 .fmtTreeTrunc s with
      | ok => rw [hro] at hr; simp at hr
      | raise e1 s1 => rw [hro] at hr; simp at hr; obtain ⟨rfl, rfl⟩ := hr; rfl
      | stuck => rw [hro] at hr; simp at hr
    | 1, hc =>
      simp only [headerCalls, List.getElem?_cons_succ, List.getElem?_cons_zero, Option.some.injEq] at hc
      subst hc
      rw [msbf_length, if_neg (by decide)] at hr
      have hb : s.inRest = true :: rest := by simpa [headerCalls] using h
      rw [readOr_bit hok.head hb, Res.bind_ok, if_neg (by decide)]
      simp only [headerCalls, List.take_succ_cons, List.take_zero, List.flatten_cons, List.flatten_nil,
        List.append_nil, List.length_singleton] at hr
      cases hro : readLeaf ((s.afterCalls 1).seekIn (s.inCur + 1)) with
      | ok => rw [hro] at hr; simp at hr
      | raise e1 s1 => rw [hro] at hr; simp at hr; obtain ⟨rfl, rfl⟩ := hr; rfl
      | stuck => rw [hro] at hr; simp at hr
    | k + 2, hc => simp [headerCalls] at hc
  | node l r hl hrr =>
    have hn1 : n < Config.nodeCap := by
      simp only [headerCalls, List.take_succ_cons, List.countP_cons] at hn
      simp at hn
      omega
    obtain ⟨depth, rfl⟩ : ∃ d, depth = d + 1 := ⟨depth - 1, by omega⟩
    rw [readTree, if_neg (by omega)]
    match k, hc with
    | 0, hc =>
      simp only [headerCalls, List.getElem?_cons_zero, Option.some.injEq] at hc
      subst hc
      simp only [List.length_singleton, if_true, List.take_zero, List.flatten_nil, List.length_nil, Nat.add_zero,
        State.afterCalls_zero, State.seekIn_self hi] at hr
      cases hro : readOr 1 .fmtTreeTrunc s with
      | ok => rw [hro] at hr; simp at hr
      | raise e1 s1 => rw [hro] at hr; simp at hr; obtain ⟨rfl, rfl⟩ := hr; rfl
      | stuck => rw [hro] at hr; simp at hr
    | k + 1, hc =>
      simp only [headerCalls, List.getElem?_cons_succ] at hc
      simp only [headerCalls, List.take_succ_cons, List.countP_cons, List.length_singleton, decide_true, if_true] at hn
      simp only [headerCalls, List.take_succ_cons, List.flatten_cons, List.cons_append, List.nil_append,
        List.length_cons] at h hr
      have hb1 : ((s.afterCalls 1).seekIn (s.inCur + 1)).inRest = ((headerCalls l ++ headerCalls r).take k).flatten ++ rest :=
        State.inRest_bit (s := s.afterCalls 1) h
      rw [readOr_bit hok.head h, Res.bind_ok, if_pos (by decide)]
      by_cases hk : k < (headerCalls l).length
      · rw [List.getElem?_append_left hk] at hc
        rw [List.take_append_of_le_length (by omega)] at hb1 hr hn
        rw [hl hc (hok.tail.seekIn _) hb1 rfl (by omega) (by omega) ?_]
        · rfl
        · rw [← hr]
          simp only [State.seekIn_afterCalls, State.seekIn_seekIn, State.afterCalls_afterCalls, State.seekIn_inCur]
          rw [show s.inCur + 1 + ((headerCalls l).take k).flatten.length
            = s.inCur + (((headerCalls l).take k).flatten.length + 1) by omega, Nat.add_comm 1 k]
      · obtain ⟨m, rfl⟩ := Nat.exists_eq_add_of_le (Nat.le_of_not_lt hk)
        rw [List.getElem?_append_right (by omega), Nat.add_sub_cancel_left] at hc
        have htake : ∀ m, (headerCalls l ++ headerCalls r).take ((headerCalls l).length + m)
            = headerCalls l ++ (headerCalls r).take m := by intro m; rw [List.take_append]; simp
        rw [Nat.add_assoc _ m 1, htake, List.countP_append, headerCalls_controls] at hn
        rw [htake, List.flatten_append, headerCalls_flatten, List.append_assoc] at hb1
        rw [htake, List.flatten_append, headerCalls_flatten, List.length_append] at hr
        have hok2 : s.OkFor (1 + ((headerCalls l).length + m)) := hok.mono (by omega)
        have h1 := hok2.drop
        rw [readTree_ser (rest := ((headerCalls r).take m).flatten ++ rest)
          (by rw [← headerCalls_length]; exact (h1.mono (by omega)).seekIn _) hb1 (by omega) (by omega), Res.bind_ok]
        have h2 := h1.drop
        rw [headerCalls_length] at h2
        have hb2 := State.inRest_after hb1 (n := (ser l).length) rfl
        rw [hrr (k := m) hc (by exact (h2.seekIn _).seekIn _) (by exact hb2) rfl (by simp only; omega) (by simp only; omega) ?_]
        · rfl
        · rw [← hr]
          simp only [State.seekIn_afterCalls, State.seekIn_seekIn, State.afterCalls_afterCalls, State.seekIn_inCur]
          rw [show s.inCur + 1 + (ser l).length + ((headerCalls r).take m).flatten.length
              = s.inCur + ((ser l).length + ((headerCalls r).take m).flatten.length + 1) by omega,
            ← headerCalls_length, show 1 + (headerCalls l).length + m = (headerCalls l).length + m + 1 by omega]

/-- `rd()` raises `FMT_TREE_OVF` where it would start one node more than the cap (R132). -/
theorem readTree_overflow {t : Tree} {depth n k : Nat} {s : State} {c rest : Bits} (hc : (headerCalls t)[k]? = some c)
    (h1 : c.length = 1) (hcount : n + ((headerCalls t).take k).countP (fun b => b.length = 1) = Config.nodeCap)
    (hok : s.OkFor k) (h : s.inRest = ((headerCalls t).take k).flatten ++ rest)
    (hi : s.inpos = BitVec.ofNat 32 s.inCur) (hd : Config.nodeCap ≤ depth + n) :
    readTree depth n s =
      .raise .fmtTreeOvf ((s.afterCalls k).seekIn (s.inCur + ((headerCalls t).take k).flatten.length)) := by
  have zero : ∀ (depth n : Nat) (s : State), n = Config.nodeCap → readTree depth n s = .raise .fmtTreeOvf s := by
    intro depth n s hn
    cases depth with
    | zero => rfl
    | succ d => rw [readTree, if_pos hn]
  induction t generalizing depth n s rest k with
  | leaf x =>
    match k, hc with
    | 0, hc => rw [zero _ _ _ (by simpa using hcount)]; simp [State.seekIn_self hi]
    | 1, hc =>
      simp only [headerCalls, List.getElem?_cons_succ, List.getElem?_cons_zero, Option.some.injEq] at hc
      rw [← hc, msbf_length] at h1
      omega
    | k + 2, hc => simp [headerCalls] at hc
  | node l r hl hr =>
    match k, hc with
    | 0, hc => rw [zero _ _ _ (by simpa using hcount)]; simp [State.seekIn_self hi]
    | k + 1, hc =>
      simp only [headerCalls, List.getElem?_cons_succ] at hc
      simp only [headerCalls, List.take_succ_cons, List.flatten_cons, List.cons_append, List.nil_append,
        List.length_cons, List.countP_cons] at h hcount ⊢
      simp only [List.length_nil, Nat.zero_add, decide_true, if_true] at hcount
      obtain ⟨depth, rfl⟩ : ∃ d, depth = d + 1 := ⟨depth - 1, by omega⟩
      have hb1 : ((s.afterCalls 1).seekIn (s.inCur + 1)).inRest = ((headerCalls l ++ headerCalls r).take k).flatten ++ rest :=
        State.inRest_bit (s := s.afterCalls 1) h
      rw [readTree, if_neg (by omega), readOr_bit hok.head h, Res.bind_ok, if_pos (by decide)]
      by_cases hk : k < (headerCalls l).length
      · rw [List.getElem?_append_left hk] at hc
        rw [List.take_append_of_le_length (by omega)] at hb1 hcount ⊢
        rw [hl hc (by omega) (hok.tail.seekIn _) hb1 rfl (by omega), Res.bind_raise]
        simp only [State.seekIn_afterCalls, State.seekIn_seekIn, State.afterCalls_afterCalls, State.seekIn_inCur]
        rw [show s.inCur + 1 + ((headerCalls l).take k).flatten.length
          = s.inCur + (((headerCalls l).take k).flatten.length + 1) by omega, Nat.add_comm 1 k]
      · obtain ⟨m, rfl⟩ := Nat.exists_eq_add_of_le (Nat.le_of_not_lt hk)
        rw [List.getElem?_append_right (by omega), Nat.add_sub_cancel_left] at hc
        have htake : (headerCalls l ++ headerCalls r).take ((headerCalls l).length + m)
            = headerCalls l ++ (headerCalls r).take m := by rw [List.take_append]; simp
        rw [htake, List.flatten_append, headerCalls_flatten, List.append_assoc] at hb1
        rw [htake, List.countP_append, headerCalls_controls] at hcount
        rw [htake, List.flatten_append, headerCalls_flatten, List.length_append]
        have hok2 : s.OkFor (1 + ((headerCalls l).length + m)) := hok.mono (by omega)
        have h3 := hok2.drop
        rw [readTree_ser (rest := ((headerCalls r).take m).flatten ++ rest)
          (by rw [← headerCalls_length]; exact (h3.mono (by omega)).seekIn _) hb1 (by omega) (by omega), Res.bind_ok]
        have h2 := h3.drop
        rw [headerCalls_length] at h2
        have hb2 := State.inRest_after hb1 (n := (ser l).length) rfl
        rw [hr (k := m) hc (by simp only; omega) (by exact (h2.seekIn _).seekIn _) (by exact hb2) rfl (by simp only; omega), Res.bind_raise]
        simp only [State.seekIn_afterCalls, State.seekIn_seekIn, State.afterCalls_afterCalls, State.seekIn_inCur]
        rw [show s.inCur + 1 + (ser l).length + ((headerCalls r).take m).flatten.length
              = s.inCur + ((ser l).length + ((headerCalls r).take m).flatten.length + 1) by omega,
            ← headerCalls_length, show 1 + (headerCalls l).length + m = (headerCalls l).length + m + 1 by omega]

/-- A successful `rd()` returns the count of nodes it started, within the cap (R130, R132). -/
theorem readTree_count {depth n : Nat} {s s' : State} {tm : Tree × Nat} (h : readTree depth n s = .ok tm s')
    (hn : n ≤ Config.nodeCap) : tm.2 = n + tm.1.nodes ∧ tm.2 ≤ Config.nodeCap := by
  induction depth generalizing n s s' tm with
  | zero => simp [readTree] at h
  | succ depth ih =>
    rw [readTree] at h
    split at h
    · simp at h
    · obtain ⟨c, s1, _, h⟩ := Res.bind_eq_ok h
      split at h
      · obtain ⟨ln, s2, h2, h⟩ := Res.bind_eq_ok h
        obtain ⟨rn, s3, h3, h⟩ := Res.bind_eq_ok h
        obtain ⟨e2, b2⟩ := ih h2 (by omega)
        obtain ⟨e3, b3⟩ := ih h3 b2
        simp only [Res.ok.injEq] at h
        obtain ⟨rfl, -⟩ := h
        simp only [Tree.nodes]
        exact ⟨by omega, b3⟩
      · obtain ⟨t, s2, h2, h⟩ := Res.bind_eq_ok h
        simp only [Res.ok.injEq] at h
        obtain ⟨rfl, -⟩ := h
        obtain ⟨v, s3, _, h2⟩ := Res.bind_eq_ok h2
        split at h2
        · simp only [Res.ok.injEq] at h2
          obtain ⟨rfl, -⟩ := h2
          simp only [Tree.nodes]
          exact ⟨trivial, by omega⟩
        · simp at h2

/-! ### The walk -/

/-- The walk resolves the leaf whose path it reads, and reads exactly that path (R160). -/
theorem walk_path {t : Tree} {s : State} {x : Symbol} {p rest : Bits} (hp : (x, p) ∈ t.paths)
    (hok : s.OkFor p.length) (h : s.inRest = p ++ rest) (hi : s.inpos = BitVec.ofNat 32 s.inCur) :
    walk t s = .ok x ((s.afterCalls p.length).seekIn (s.inCur + p.length)) := by
  induction t generalizing p s with
  | leaf y =>
    simp [Tree.paths] at hp
    obtain ⟨rfl, rfl⟩ := hp
    simp [walk, State.seekIn_self hi]
  | node l r hl hr =>
    rcases Tree.mem_paths_node.1 hp with ⟨q, hq, rfl⟩ | ⟨q, hq, rfl⟩
    all_goals
      have hb : s.inRest = _ :: (q ++ rest) := h
      have hb1 : ((s.afterCalls 1).seekIn (s.inCur + 1)).inRest = q ++ rest :=
        State.inRest_bit (s := s.afterCalls 1) hb
      rw [walk, readOr_bit hok.head hb, Res.bind_ok]
    · rw [if_pos (by decide), hl hq (hok.tail.seekIn _) hb1 rfl]
      simp [State.seekIn_afterCalls, Nat.add_comm, Nat.add_left_comm]
    · rw [if_neg (by decide), hr hq (hok.tail.seekIn _) hb1 rfl]
      simp [State.seekIn_afterCalls, Nat.add_comm, Nat.add_left_comm]

/-- What the bits ahead are to a tree: a whole path is among them, or they run out inside one. -/
theorem Tree.path_or_short (t : Tree) (bs : Bits) :
    (∃ x p rest, (x, p) ∈ t.paths ∧ bs = p ++ rest) ∨ (∃ x p, (x, p) ∈ t.paths ∧ bs <+: p ∧ bs ≠ p) := by
  induction t generalizing bs with
  | leaf x => exact .inl ⟨x, [], bs, by simp [paths], rfl⟩
  | node l r hl hr =>
    cases bs with
    | nil =>
      obtain ⟨x, q, hq⟩ : ∃ x q, (x, q) ∈ l.paths := by
        have := l.leaves_pos
        rw [← paths_length] at this
        obtain ⟨a, ha⟩ := List.exists_mem_of_length_pos this
        exact ⟨a.1, a.2, ha⟩
      exact .inr ⟨x, false :: q, mem_paths_node.2 (.inl ⟨q, hq, rfl⟩), by simp, by simp⟩
    | cons b bs =>
      cases b
      · rcases hl bs with ⟨x, p, rest, hp, rfl⟩ | ⟨x, p, hp, h1, h2⟩
        · exact .inl ⟨x, false :: p, rest, mem_paths_node.2 (.inl ⟨p, hp, rfl⟩), rfl⟩
        · exact .inr ⟨x, false :: p, mem_paths_node.2 (.inl ⟨p, hp, rfl⟩), by simpa using h1, by simpa using h2⟩
      · rcases hr bs with ⟨x, p, rest, hp, rfl⟩ | ⟨x, p, hp, h1, h2⟩
        · exact .inl ⟨x, true :: p, rest, mem_paths_node.2 (.inr ⟨p, hp, rfl⟩), rfl⟩
        · exact .inr ⟨x, true :: p, mem_paths_node.2 (.inr ⟨p, hp, rfl⟩), by simpa using h1, by simpa using h2⟩

/-- Bits that run out inside a path raise `FMT_DATA_TRUNC`, and stay consumed (R160, R161). -/
theorem walk_short {t : Tree} {s : State} {x : Symbol} {p : Bits} (hp : (x, p) ∈ t.paths)
    (hok : s.OkFor (s.inLeft + 1)) (h1 : s.inRest <+: p) (h2 : s.inRest ≠ p)
    (hi : s.inpos = BitVec.ofNat 32 s.inCur) :
    walk t s = .raise .fmtDataTrunc ((s.afterCalls (s.inLeft + 1)).seekIn (s.inCur + s.inLeft)) := by
  induction t generalizing p s with
  | leaf y =>
    simp [Tree.paths] at hp
    obtain ⟨rfl, rfl⟩ := hp
    simp at h1
    exact absurd h1 h2
  | node l r hl hr =>
    cases hrest : s.inRest with
    | nil =>
      have hl0 : s.inLeft = 0 := by rw [← State.inRest_length, hrest]; rfl
      rw [walk, readOr_short hok.head (by omega), Res.bind_raise, hl0, Nat.add_zero]
      congr 1
      exact (State.seekIn_self (s := s.afterCalls 1) hi).symm
    | cons b bs =>
      have hlen : s.inLeft = bs.length + 1 := by rw [← State.inRest_length, hrest]; rfl
      have hb : s.inRest = b :: bs := hrest
      have hb1 : ((s.afterCalls 1).seekIn (s.inCur + 1)).inRest = bs :=
        State.inRest_bit (s := s.afterCalls 1) hb
      have hleft : ((s.afterCalls 1).seekIn (s.inCur + 1)).inLeft = bs.length := by
        rw [← State.inRest_length]; exact congrArg List.length hb1
      rw [walk, readOr_bit hok.head hb, Res.bind_ok]
      have hok' : ((s.afterCalls 1).seekIn (s.inCur + 1)).OkFor
          (((s.afterCalls 1).seekIn (s.inCur + 1)).inLeft + 1) := by
        rw [hleft, ← hlen]; exact hok.tail.seekIn _
      rcases Tree.mem_paths_node.1 hp with ⟨q, hq, rfl⟩ | ⟨q, hq, rfl⟩ <;>
        rw [hrest] at h1 h2 <;> simp only [List.cons_prefix_cons, ne_eq, List.cons.injEq, not_and] at h1 h2 <;>
        obtain ⟨rfl, h1⟩ := h1
      · rw [if_pos (by decide), hl hq hok' (by rw [show _ = bs from hb1]; exact h1)
          (by rw [show _ = bs from hb1]; exact h2 rfl) rfl]
        simp [hleft, hlen, State.seekIn_afterCalls, Nat.add_comm, Nat.add_left_comm]
      · rw [if_neg (by decide), hr hq hok' (by rw [show _ = bs from hb1]; exact h1)
          (by rw [show _ = bs from hb1]; exact h2 rfl) rfl]
        simp [hleft, hlen, State.seekIn_afterCalls, Nat.add_comm, Nat.add_left_comm]

/-- A read that fails inside a path raises `IO_IN`; the bits before it stay consumed (R160, R196). -/
theorem walk_fail {t : Tree} {s : State} {x : Symbol} {p rest : Bits} {k : Nat} (hp : (x, p) ∈ t.paths)
    (hok : s.OkFor k) (hf : s.answers[k]? = some .fail) (hk : k < p.length) (h : s.inRest = p.take k ++ rest)
    (hi : s.inpos = BitVec.ofNat 32 s.inCur) :
    walk t s = .raise .ioIn ((s.afterCalls (k + 1)).seekIn (s.inCur + k)) := by
  induction t generalizing p s k with
  | leaf y =>
    simp [Tree.paths] at hp
    obtain ⟨rfl, rfl⟩ := hp
    simp at hk
  | node l r hl hr =>
    cases k with
    | zero =>
      have : s.answers.headD .ok = .fail := by cases ha : s.answers <;> simp_all
      rw [walk, readOr_fail this, Res.bind_raise]
      congr 1
      exact (State.seekIn_self (s := s.afterCalls 1) hi).symm
    | succ k =>
      have hf' : ((s.afterCalls 1).seekIn (s.inCur + 1)).answers[k]? = some .fail := by
        simp [State.afterCalls]; exact hf
      rcases Tree.mem_paths_node.1 hp with ⟨q, hq, rfl⟩ | ⟨q, hq, rfl⟩
      all_goals
        have hb : s.inRest = _ :: (q.take k ++ rest) := h
        have hb1 : ((s.afterCalls 1).seekIn (s.inCur + 1)).inRest = q.take k ++ rest :=
          State.inRest_bit (s := s.afterCalls 1) hb
        rw [walk, readOr_bit hok.head hb, Res.bind_ok]
      · rw [if_pos (by decide), hl hq (hok.tail.seekIn _) hf' (by simpa using hk) hb1 rfl]
        simp [State.seekIn_afterCalls, Nat.add_comm, Nat.add_left_comm]
      · rw [if_neg (by decide), hr hq (hok.tail.seekIn _) hf' (by simpa using hk) hb1 rfl]
        simp [State.seekIn_afterCalls, Nat.add_comm, Nat.add_left_comm]

/-! ### The code table -/

theorem CodeTable.get_set {c : CodeTable} {x y : Symbol} {v : Option Bits} :
    Vector.get (c.set x.val v x.isLt) y = if y = x then v else c.get y := by
  simp only [Vector.get_eq_getElem, Vector.getElem_set, Fin.ext_iff, eq_comm]

/-- The last path of `x` among `ps`, in order (R143). -/
def lastPath (ps : List (Symbol × Bits)) (x : Symbol) : Option Bits :=
  ((ps.filter fun sp => sp.1 = x).getLast?).map Prod.snd

theorem lastPath_append (ps qs : List (Symbol × Bits)) (x : Symbol) :
    lastPath (ps ++ qs) x = (lastPath qs x).or (lastPath ps x) := by
  simp only [lastPath, List.filter_append, List.getLast?_append]
  cases (qs.filter fun sp => sp.1 = x).getLast? <;> simp

theorem lastPath_cons_map (ps : List (Symbol × Bits)) (x : Symbol) (b : Bool) :
    lastPath (ps.map fun sp => (sp.1, b :: sp.2)) x = (lastPath ps x).map (b :: ·) := by
  simp [lastPath, List.filter_map, Function.comp_def, List.getLast?_map]

/-- GENCODE's walk gives each symbol the path of its last leaf, and leaves the other entries (R140, R143). -/
theorem genWalk_get (t : Tree) (p : Bits) (c : CodeTable) (x : Symbol) :
    (genWalk t p c).get x = ((lastPath t.paths x).map (p ++ ·)).or (c.get x) := by
  induction t generalizing p c with
  | leaf y =>
    rw [genWalk, CodeTable.get_set]
    by_cases h : x = y
    · subst h; simp [Tree.paths, lastPath]
    · simp [Tree.paths, lastPath, h, Ne.symm h]
  | node l r hl hr =>
    rw [genWalk, hr, hl, Tree.paths, lastPath_append, lastPath_cons_map, lastPath_cons_map]
    cases lastPath r.paths x <;> cases lastPath l.paths x <;> simp

theorem genTable_get (t : Tree) (x : Symbol) : (genTable t).get x = lastPath t.paths x := by
  rw [genTable, genWalk_get]
  cases lastPath t.paths x <;> simp [CodeTable.empty, Vector.get_eq_getElem]

theorem lastPath_mem {ps : List (Symbol × Bits)} {x : Symbol} {p : Bits} (h : lastPath ps x = some p) :
    (x, p) ∈ ps := by
  simp only [lastPath, Option.map_eq_some_iff] at h
  obtain ⟨a, ha, rfl⟩ := h
  have := List.mem_of_getLast? ha
  simp only [List.mem_filter, decide_eq_true_eq] at this
  obtain ⟨h1, rfl⟩ := this
  exact h1

theorem lastPath_isSome {ps : List (Symbol × Bits)} {x : Symbol} : (lastPath ps x).isSome ↔ ∃ p, (x, p) ∈ ps := by
  constructor
  · intro h
    obtain ⟨p, hp⟩ := Option.isSome_iff_exists.1 h
    exact ⟨p, lastPath_mem hp⟩
  · rintro ⟨p, hp⟩
    have hne : (ps.filter fun sp => sp.1 = x) ≠ [] := List.ne_nil_of_mem (a := (x, p)) (by simp [hp])
    rw [lastPath, List.getLast?_eq_some_getLast hne]
    rfl

end Sys2Proof.Machine
end

