-- ==== Sys2Proof/Laws/Build.lean ====
section
/-! SUPPORT. The tree builder: extraction (41_tree_builder.md R112), the merge loop and the leaves of the built tree
(R110, R111, R114). -/

namespace Sys2Proof.Machine

/-! ### Extraction -/

theorem extractMin_perm (x : Item) (xs : List Item) :
    List.Perm ((extractMin x xs).1 :: (extractMin x xs).2) (x :: xs) := by
  induction xs generalizing x with
  | nil => exact .refl _
  | cons y ys ih =>
    rw [extractMin]
    split
    · exact ((List.Perm.swap _ _ _).trans ((ih y).cons x))
    · exact ((List.Perm.swap _ _ _).trans ((ih x).cons y)).trans (List.Perm.swap _ _ _)

theorem Item.before_iff {a b : Item} : a.before b = true ↔ a.w < b.w ∨ (a.w = b.w ∧ a.q < b.q) := by
  simp [before]

theorem Item.not_before_trans {a b c : Item} (h1 : a.before b = false) (h2 : b.before c = false) :
    a.before c = false := by
  simp only [Bool.eq_false_iff, ne_eq, before_iff] at *
  omega

theorem Item.before_asymm {a b : Item} (h : a.before b = true) : b.before a = false := by
  simp only [Bool.eq_false_iff, ne_eq, before_iff] at *
  omega

/-- Nothing left behind comes before the item extracted, and it was not worse than the first item. -/
theorem extractMin_least (x : Item) (xs : List Item) :
    (∀ y ∈ (extractMin x xs).2, y.before (extractMin x xs).1 = false) ∧ x.before (extractMin x xs).1 = false := by
  induction xs generalizing x with
  | nil =>
    refine ⟨by simp [extractMin], ?_⟩
    simp [extractMin, Item.before]
  | cons y ys ih =>
    rw [extractMin]
    split
    case isTrue h =>
      obtain ⟨h1, h2⟩ := ih y
      have hx : x.before (extractMin y ys).1 = false := Item.not_before_trans (Item.before_asymm h) h2
      refine ⟨?_, hx⟩
      intro z hz
      rcases List.mem_cons.1 hz with rfl | hz
      · exact hx
      · exact h1 z hz
    case isFalse h =>
      obtain ⟨h1, h2⟩ := ih x
      refine ⟨?_, h2⟩
      intro z hz
      rcases List.mem_cons.1 hz with rfl | hz
      · exact Item.not_before_trans (by simpa using h) h2
      · exact h1 z hz

theorem extractMin_length (x : Item) (xs : List Item) : (extractMin x xs).2.length = xs.length := by
  have := (extractMin_perm x xs).length_eq
  simpa using this

/-! ### The merge loop -/

/-- One round of the loop: two extractions and one insertion (R110, R113). -/
theorem mergeAll_round {fuel q : Nat} {x y : Item} {rest : List Item} :
    ∃ a b pq, mergeAll (fuel + 1) q (x :: y :: rest) =
        mergeAll fuel (q + 1) (pq ++ [⟨a.w + b.w, q, .node a.t b.t⟩]) ∧
      List.Perm (a :: b :: pq) (x :: y :: rest) ∧ pq.length = rest.length ∧
      (∀ z ∈ b :: pq, z.before a = false) ∧ (∀ z ∈ pq, z.before b = false) := by
  have hp := extractMin_perm x (y :: rest)
  have hm := (extractMin_least x (y :: rest)).1
  have hlen := extractMin_length x (y :: rest)
  rw [mergeAll]
  generalize extractMin x (y :: rest) = e at hp hm hlen ⊢
  obtain ⟨a, zs⟩ := e
  cases zs with
  | nil => simp at hlen
  | cons z zs =>
    have hp2 := extractMin_perm z zs
    have hm2 := (extractMin_least z zs).1
    have hlen2 := extractMin_length z zs
    refine ⟨a, (extractMin z zs).1, (extractMin z zs).2, rfl, (hp2.cons a).trans hp, ?_, ?_, hm2⟩
    · rw [hlen2]; simpa using hlen
    · intro w hw
      exact hm w (hp2.subset hw)

/-- Between distinct insertion numbers the extraction order is strict (R112). -/
theorem Item.before_of_not_before {a b : Item} (h : b.before a = false) (hq : a.q ≠ b.q) : a.before b = true := by
  simp only [Bool.eq_false_iff, ne_eq, before_iff] at *
  omega

/-- One round on a collection with distinct insertion numbers below `q`: the items extracted come strictly before what is
left, and the numbers stay distinct and below `q + 1` (R112, R113). -/
theorem mergeAll_step {fuel q : Nat} {x y : Item} {rest : List Item} (hn : ((x :: y :: rest).map Item.q).Nodup)
    (hq : ∀ i ∈ x :: y :: rest, i.q < q) :
    ∃ (a b : Item) (pq : List Item), List.Perm (a :: b :: pq) (x :: y :: rest) ∧
      (∀ z ∈ b :: pq, a.before z = true) ∧ (∀ z ∈ pq, b.before z = true) ∧
      mergeAll (fuel + 1) q (x :: y :: rest) = mergeAll fuel (q + 1) (pq ++ [⟨a.w + b.w, q, .node a.t b.t⟩]) ∧
      ((pq ++ [(⟨a.w + b.w, q, .node a.t b.t⟩ : Item)]).map Item.q).Nodup ∧
      ∀ i ∈ pq ++ [(⟨a.w + b.w, q, .node a.t b.t⟩ : Item)], i.q < q + 1 := by
  obtain ⟨a, b, pq, he, hp, -, ha, hb⟩ := mergeAll_round (fuel := fuel) (q := q) (x := x) (y := y) (rest := rest)
  have hd := (hp.map Item.q).nodup_iff.2 hn
  rw [List.map_cons, List.map_cons, List.nodup_cons, List.nodup_cons] at hd
  obtain ⟨ha1, hb1, hpq⟩ := hd
  have hlt : ∀ z ∈ pq, z.q < q := fun z hz => hq z (hp.subset (by simp [hz]))
  refine ⟨a, b, pq, hp, fun z hz => ?_, fun z hz => ?_, he, ?_, fun i hi => ?_⟩
  · exact Item.before_of_not_before (ha z hz) fun e => ha1 (e ▸ List.mem_map_of_mem (f := Item.q) hz)
  · exact Item.before_of_not_before (hb z hz) fun e => hb1 (e ▸ List.mem_map_of_mem (f := Item.q) hz)
  · rw [List.map_append, List.nodup_append]
    refine ⟨hpq, by simp, fun u hu v hv => ?_⟩
    obtain ⟨z, hz, rfl⟩ := List.mem_map.1 hu
    have := hlt z hz
    simp at hv
    omega
  · rcases List.mem_append.1 hi with hi | hi
    · have := hlt i hi; omega
    · rw [List.mem_singleton.1 hi]; exact Nat.lt_succ_self q

/-- An induction over the merges: a relation between collections and trees that one round preserves backwards holds
of the whole loop, and the loop ends within its bound. -/
theorem mergeAll_induct (P : List Item → Tree → Prop) (base : ∀ x, P [x] x.t)
    (perm : ∀ {xs ys t}, List.Perm xs ys → P xs t → P ys t)
    (round : ∀ a b pq q t, (∀ z ∈ b :: pq, z.before a = false) → (∀ z ∈ pq, z.before b = false) →
      P (pq ++ [⟨a.w + b.w, q, .node a.t b.t⟩]) t → P (a :: b :: pq) t)
    {fuel q : Nat} {pq : List Item} (h0 : pq ≠ []) (hl : pq.length ≤ fuel + 1) :
    ∃ t, mergeAll fuel q pq = some t ∧ P pq t := by
  induction fuel generalizing q pq with
  | zero =>
    match pq, h0, hl with
    | [x], _, _ => exact ⟨x.t, by rw [mergeAll], base x⟩
  | succ fuel ih =>
    match pq, h0, hl with
    | [x], _, _ => exact ⟨x.t, by rw [mergeAll], base x⟩
    | x :: y :: rest, _, hl =>
      obtain ⟨a, b, pq, he, hp, hlen, ha, hb⟩ := mergeAll_round (fuel := fuel) (q := q) (x := x) (y := y) (rest := rest)
      obtain ⟨t, ht, hP⟩ := ih (q := q + 1) (pq := pq ++ [⟨a.w + b.w, q, .node a.t b.t⟩]) (by simp)
        (by simp only [List.length_append, List.length_cons, List.length_nil] at hl ⊢; omega)
      exact ⟨t, he.trans ht, perm hp (round a b pq q t ha hb hP)⟩

/-- The loop ends, and the leaves of its tree are the leaves of the collection. -/
theorem mergeAll_symbols {fuel q : Nat} {pq : List Item} (h0 : pq ≠ []) (hl : pq.length ≤ fuel + 1) :
    ∃ t, mergeAll fuel q pq = some t ∧ List.Perm t.symbols (pq.flatMap fun x => x.t.symbols) := by
  refine mergeAll_induct (fun pq t => List.Perm t.symbols (pq.flatMap fun x => x.t.symbols)) ?_ ?_ ?_ h0 hl
  · intro x; simp
  · intro xs ys t h ht; exact ht.trans (h.flatMap_right _)
  · intro a b pq q t _ _ ht
    refine ht.trans ?_
    simp only [List.flatMap_append, List.flatMap_cons, List.flatMap_nil, List.append_nil, Tree.symbols]
    exact List.perm_append_comm.trans (by simp)

/-! ### The built tree -/

theorem initialItems_symbols (freq : Vector Nat 256) :
    (initialItems freq).flatMap (fun x => x.t.symbols) = (weightedLeaves freq).map Prod.snd := by
  have h : ∀ (l : List (Nat × Symbol)) k,
      ((l.zipIdx k).map fun wsq => (⟨wsq.1.1, wsq.2, .leaf wsq.1.2⟩ : Item)).flatMap (fun x => x.t.symbols)
        = l.map Prod.snd := by
    intro l
    induction l with
    | nil => intro k; rfl
    | cons a l ih => intro k; simp [List.zipIdx_cons, Tree.symbols, ih]
  exact h _ 0

theorem initialItems_length (freq : Vector Nat 256) : (initialItems freq).length = (weightedLeaves freq).length := by
  simp [initialItems]

theorem initialItems_ne_nil (freq : Vector Nat 256) : initialItems freq ≠ [] := by
  intro h
  have := congrArg List.length h
  rw [initialItems_length] at this
  simp [weightedLeaves] at this

/-- BUILD succeeds for every content of FREQ, and the leaves are the bytes with a nonzero count and `SENT`
(R110, R111). -/
theorem buildTree_symbols (freq : Vector Nat 256) :
    ∃ t, buildTree freq = some t ∧ List.Perm t.symbols ((weightedLeaves freq).map Prod.snd) := by
  obtain ⟨t, ht, hp⟩ := mergeAll_symbols (q := (initialItems freq).length) (initialItems_ne_nil freq)
    (Nat.le_succ (initialItems freq).length)
  exact ⟨t, ht, by rw [← initialItems_symbols]; exact hp⟩

theorem allBytes_nodup : allBytes.Nodup := by
  refine List.Nodup.map_on ?_ List.nodup_range
  intro a ha b hb h
  simp only [List.mem_range] at ha hb
  have := congrArg BitVec.toNat h
  simp only [BitVec.toNat_ofNat] at this
  omega

theorem mem_allBytes (b : Byte) : b ∈ allBytes := by
  refine List.mem_map.2 ⟨b.toNat, List.mem_range.2 b.isLt, ?_⟩
  simp

theorem weightedLeaves_symbols (freq : Vector Nat 256) :
    (weightedLeaves freq).map Prod.snd =
      ((allBytes.filter fun b => 0 < freq[b.toNat]'b.isLt).map byteSymbol) ++ [Config.sent] := by
  simp [weightedLeaves, Function.comp_def]

theorem weightedLeaves_nodup (freq : Vector Nat 256) : ((weightedLeaves freq).map Prod.snd).Nodup := by
  rw [weightedLeaves_symbols]
  refine List.Nodup.append ?_ (by simp) ?_
  · exact (allBytes_nodup.filter _).map fun a b h => byteSymbol_inj.1 h
  · intro x hx hs
    simp only [List.mem_map] at hx
    obtain ⟨b, -, rfl⟩ := hx
    exact byteSymbol_ne_sent b (by simpa using hs)

theorem mem_weightedLeaves {freq : Vector Nat 256} {x : Symbol} :
    x ∈ (weightedLeaves freq).map Prod.snd ↔ x = Config.sent ∨ ∃ b, x = byteSymbol b ∧ 0 < freq[b.toNat]'b.isLt := by
  rw [weightedLeaves_symbols]
  simp only [List.mem_append, List.mem_map, List.mem_filter, mem_allBytes, true_and, decide_eq_true_eq,
    List.mem_singleton]
  constructor
  · rintro (⟨b, h, rfl⟩ | h)
    · exact .inr ⟨b, rfl, h⟩
    · exact .inl h
  · rintro (h | ⟨b, rfl, h⟩)
    · exact .inr h
    · exact .inl ⟨b, h, rfl⟩

theorem weightedLeaves_length_le (freq : Vector Nat 256) : (weightedLeaves freq).length ≤ 257 := by
  have h : (allBytes.filter fun b => 0 < freq[b.toNat]'b.isLt).length ≤ 256 :=
    (List.length_filter_le _ _).trans (by simp [allBytes])
  simp only [weightedLeaves, List.length_append, List.length_map, List.length_singleton]
  omega

/-- What the encoder and decoder need of a built tree: distinct symbols, exactly the leaves of R111, and the
invariants of R25. -/
theorem buildTree_spec (freq : Vector Nat 256) :
    ∃ t, buildTree freq = some t ∧ TreeInv t ∧ t.symbols.Nodup ∧ t.leaves = (weightedLeaves freq).length ∧
      ∀ x, x ∈ t.symbols ↔ x = Config.sent ∨ ∃ b, x = byteSymbol b ∧ 0 < freq[b.toNat]'b.isLt := by
  obtain ⟨t, ht, hp⟩ := buildTree_symbols freq
  have hl : t.leaves = (weightedLeaves freq).length := by
    rw [← t.symbols_length, hp.length_eq, List.length_map]
  have hm : ∀ x, x ∈ t.symbols ↔ x = Config.sent ∨ ∃ b, x = byteSymbol b ∧ 0 < freq[b.toNat]'b.isLt :=
    fun x => hp.mem_iff.trans mem_weightedLeaves
  refine ⟨t, ht, TreeInv.of_cap ?_ ?_, hp.nodup_iff.2 (weightedLeaves_nodup freq), hl, hm⟩
  · have := t.nodes_add_one
    have := weightedLeaves_length_le freq
    show t.nodes ≤ 513
    omega
  · cases t with
    | node => rfl
    | leaf x =>
      have : Config.sent ∈ (Tree.leaf x).symbols := (hm _).2 (.inl rfl)
      simp [Tree.symbols] at this
      simp [Tree.degenerate, this]

end Sys2Proof.Machine
end

