-- ==== Sys2Proof/Laws/Frame.lean ====
section
/-! SUPPORT. What each command's pseudocode can touch, said once: a property of states that is kept by the updates a
command makes holds of the state the command ends in. Frames and the invariant follow from these lemmas. -/

namespace Sys2Proof.Machine

/-- `P` is kept by calls of IN. -/
structure KeptByIn (P : State → Prop) : Prop where
  calls : ∀ t, P t → P (t.afterCalls 1)
  seek  : ∀ t c, P t → c ≤ t.inBits.length → P (t.seekIn c)

/-- `P` is kept by writes to an open OUT. -/
structure KeptByOut (P : State → Prop) : Prop where
  calls  : ∀ t, P t → P (t.afterCalls 1)
  append : ∀ t bs, P t → t.status.oclosed = false → P (t.appendOut bs)

/-- While OUT is open, also its being open is kept. -/
theorem KeptByOut.andOpen {P : State → Prop} (h : KeptByOut P) :
    KeptByOut fun t => P t ∧ t.status.oclosed = false :=
  ⟨fun t ht => ⟨h.calls t ht.1, ht.2⟩, fun t bs ht ho => ⟨h.append t bs ht.1 ho, ht.2⟩⟩

theorem KeptByIn.andOpen {P : State → Prop} (h : KeptByIn P) :
    KeptByIn fun t => P t ∧ t.status.oclosed = false :=
  ⟨fun t ht => ⟨h.calls t ht.1, ht.2⟩, fun t c ht hc => ⟨h.seek t c ht.1 hc, ht.2⟩⟩

variable {P : State → Prop} {s : State}

theorem KeptByIn.readOr (h : KeptByIn P) (hs : P s) (n : Nat) (short : Err) : (readOr n short s).Ends P :=
  readOr_ends (h.calls s hs) fun hc => h.seek _ _ (h.calls s hs) hc

theorem KeptByOut.writeOr (h : KeptByOut P) (hs : P s) (ho : s.status.oclosed = false) (n v : Nat) :
    (writeOr n v s).Ends fun t => P t ∧ t.status.oclosed = false :=
  writeOr_ends ⟨h.calls s hs, ho⟩ ⟨h.append _ _ (h.calls s hs) ho, ho⟩

theorem KeptByOut.writeBits (h : KeptByOut P) (hs : P s) (ho : s.status.oclosed = false) (bs : Bits) :
    (writeBits bs s).Ends fun t => P t ∧ t.status.oclosed = false :=
  writeBits_ends ⟨hs, ho⟩ (fun t ht => h.andOpen.calls t ht) fun t b ht => h.andOpen.append t [b] ht ht.2

/-- Dropping what was carried along. -/
theorem Res.Ends.mono {α : Type} {Q : State → Prop} {r : Res α} (h : r.Ends Q) (hq : ∀ t, Q t → P t) : r.Ends P := by
  cases r with
  | ok a t => exact hq t h
  | raise e t => exact hq t h
  | stuck => trivial

/-! ### Control -/

theorem rewindBody_ends (h : KeptByIn P) (hs : P s) : (rewindBody s).Ends P := by
  simp only [rewindBody, inRewind, State.takeAnswer_eq]
  cases s.answers.headD .ok
  · exact h.seek _ 0 (h.calls s hs) (Nat.zero_le _)
  · exact h.calls s hs

theorem closeBody_ends (hcalls : ∀ t, P t → P (t.afterCalls 1))
    (hclose : ∀ t, P t → t.status.oclosed = false → P t.closeOut) (hs : P s) : (closeBody s).Ends P := by
  refine raiseIf_ends hs fun ho => ?_
  simp only [outClose, State.takeAnswer_eq]
  cases s.answers.headD .ok
  · exact hclose _ (hcalls s hs) ho
  · exact hcalls s hs

/-! ### Counting -/

theorem countUnit_ends (hs : P s)
    (hfreq : ∀ t b, P t → t.freqAt b ≠ t.params.cntMax → P (t.setFreq b (t.freqAt b + 1))) (b : Byte) :
    (countUnit b s).Ends P :=
  raiseIf_ends hs fun hne => hfreq s b hs (by simpa using hne)

theorem countLoop_ends (h : KeptByIn P)
    (hfreq : ∀ t b, P t → t.freqAt b ≠ t.params.cntMax → P (t.setFreq b (t.freqAt b + 1))) (fuel : Nat) (hs : P s) :
    (countLoop fuel s).Ends P := by
  induction fuel generalizing s with
  | zero => trivial
  | succ fuel ih =>
    rw [countLoop]
    rcases inRead_cases 8 s with e | e | ⟨v, hv, e⟩ <;> rw [e]
    · exact h.calls s hs
    · exact h.calls s hs
    · exact (countUnit_ends (h.seek _ _ (h.calls s hs) hv) hfreq v).then fun t ht => ih ht

theorem cntsymBody_ends (hs : P s)
    (hfreq : ∀ t b, P t → t.freqAt b ≠ t.params.cntMax → P (t.setFreq b (t.freqAt b + 1))) (b : BitVec 9) :
    (cntsymBody b s).Ends P :=
  raiseIf_ends hs fun _ => countUnit_ends hs hfreq _

/-! ### The tree, its header and its codes -/

theorem buildBody_ends (hs : P s) (hbuild : ∀ t tr, P t → buildTree t.freq = some tr → P (t.storeTree tr).dropCode) :
    (buildBody s).Ends P := by
  unfold buildBody
  split
  · next tr h => exact hbuild s tr hs h
  · trivial

theorem withTree_ends {k : Tree → State → Res Unit} (hs : P s)
    (hk : ∀ t, s.status.treeValid = true → s.tree = some t → (k t s).Ends P) : (withTree s k).Ends P := by
  unfold withTree
  split
  · next hv =>
    split
    · next t ht => exact hk t hv ht
    · exact hs
  · exact hs

theorem wmagicBody_ends (h : KeptByOut P) (hs : P s) : (wmagicBody s).Ends P :=
  raiseIf_ends hs fun ho => (h.writeOr hs ho _ _).mono fun _ ht => ht.1

theorem emitTree_ends (h : KeptByOut P) (t : Tree) (hs : P s) (ho : s.status.oclosed = false) :
    (emitTree t s).Ends fun u => P u ∧ u.status.oclosed = false := by
  induction t generalizing s with
  | leaf x => exact (h.writeOr hs ho _ _).then fun u hu => h.writeOr hu.1 hu.2 _ _
  | node l r hl hr =>
    exact ((h.writeOr hs ho _ _).then fun u hu => hl hu.1 hu.2).then fun u hu => hr hu.1 hu.2

theorem wtreeBody_ends (h : KeptByOut P) (hs : P s) : (wtreeBody s).Ends P :=
  withTree_ends hs fun t _ _ => raiseIf_ends hs fun ho => (emitTree_ends h t hs ho).mono fun _ hu => hu.1

theorem rmagicBody_ends (h : KeptByIn P) (hd : ∀ t d, P t → P (t.setDState d)) (hs : P s) :
    (rmagicBody s).Ends P :=
  (h.readOr (hd s _ hs) _ _).seq fun _ t ht => raiseIf_ends ht fun _ => hd t _ ht

theorem readLeaf_ends (h : KeptByIn P) (hs : P s) : (readLeaf s).Ends P := by
  refine (h.readOr hs _ _).seq fun v t ht => ?_
  cases symbolOf v <;> exact ht

theorem readTree_ends (h : KeptByIn P) (depth n : Nat) (hs : P s) : (readTree depth n s).Ends P := by
  induction depth generalizing n s with
  | zero => exact hs
  | succ depth ih =>
    rw [readTree]
    split
    · exact hs
    · refine (h.readOr hs _ _).seq fun c t ht => ?_
      split
      · exact (ih _ ht).seq fun _ u hu => (ih _ hu).seq fun _ v hv => hv
      · exact (readLeaf_ends h ht).seq fun _ u hu => hu

/-- `Q` is what holds from the start of RTREE on, `P` at its end. -/
theorem rtreeBody_ends {Q : State → Prop} (h : KeptByIn Q) (hs : Q ((s.setDState .readHeader).dropTree.dropCode))
    (hstore : ∀ t tr, Q t → TreeInv tr → P ((t.storeTree tr).setDState .decode)) (hq : ∀ t, Q t → P t) :
    (rtreeBody s).Ends P := by
  unfold rtreeBody
  cases he : readTree Config.nodeCap 0 ((s.setDState .readHeader).dropTree.dropCode) with
  | stuck => trivial
  | raise e t =>
    have := readTree_ends h Config.nodeCap 0 hs
    rw [he] at this
    exact hq t this
  | ok tn t =>
    have ht := readTree_ends h Config.nodeCap 0 hs
    rw [he] at ht
    obtain ⟨h1, h2⟩ := readTree_count he (Nat.zero_le _)
    show (raiseIf tn.1.degenerate .fmtTreeDegen t fun s => .ok () ((s.storeTree tn.1).setDState .decode)).Ends P
    exact raiseIf_ends (hq t ht) fun hd => hstore t tn.1 ht (TreeInv.of_cap (by omega) hd)

theorem gencodeBody_ends (hs : P s)
    (hcode : ∀ tr, s.tree = some tr → P (s.storeCode (genTable tr))) : (gencodeBody s).Ends P :=
  withTree_ends hs fun t _ ht => hcode t ht

/-! ### Encoding -/

theorem writeCode_ends (h : KeptByOut P) (x : Symbol) (hs : P s) (ho : s.status.oclosed = false) :
    (writeCode x s).Ends fun u => P u ∧ u.status.oclosed = false := by
  unfold writeCode
  split
  · exact ⟨hs, ho⟩
  · exact h.writeBits hs ho _

theorem withEncoder_ends {k : State → Res Unit} (hs : P s)
    (hk : s.status.codeValid = true → s.status.oclosed = false → (k s).Ends P) : (withEncoder s k).Ends P :=
  raiseIf_ends hs fun hv => raiseIf_ends hs fun ho => hk (by simpa using hv) ho

theorem encsymBody_ends (h : KeptByOut P) (x : Symbol) (hs : P s) : (encsymBody x s).Ends P :=
  withEncoder_ends hs fun _ ho => (writeCode_ends h x hs ho).mono fun _ hu => hu.1

theorem encsymArgBody_ends (h : KeptByOut P) (a : BitVec 9) (hs : P s) : (encsymArgBody a s).Ends P := by
  unfold encsymArgBody
  split
  · exact encsymBody_ends h _ hs
  · exact hs

theorem encodeLoop_ends (hi : KeptByIn P) (h : KeptByOut P) (fuel : Nat) (hs : P s) (ho : s.status.oclosed = false) :
    (encodeLoop fuel s).Ends fun u => P u ∧ u.status.oclosed = false := by
  induction fuel generalizing s with
  | zero => trivial
  | succ fuel ih =>
    rw [encodeLoop]
    rcases inRead_cases 8 s with e | e | ⟨v, hv, e⟩ <;> rw [e]
    · exact ⟨h.calls s hs, ho⟩
    · exact ⟨h.calls s hs, ho⟩
    · exact (writeCode_ends h _ (hi.seek _ _ (h.calls s hs) hv) ho).then fun t ht => ih ht.1 ht.2

theorem encodeBody_ends (hi : KeptByIn P) (h : KeptByOut P) (hs : P s) : (encodeBody s).Ends P :=
  withEncoder_ends hs fun _ ho => (encodeLoop_ends hi h _ hs ho).mono fun _ hu => hu.1

/-! ### Decoding -/

theorem walk_ends (h : KeptByIn P) (t : Tree) (hs : P s) : (walk t s).Ends P := by
  induction t generalizing s with
  | leaf => exact hs
  | node l r hl hr =>
    refine (h.readOr hs _ _).seq fun c u hu => ?_
    split
    · exact hl hu
    · exact hr hu

theorem decsymBody_ends (h : KeptByIn P) (hstart : ∀ t, P t → P t.startDecode) (hend : ∀ t, P t → P t.endDecode)
    (hres : ∀ t x, P t → P (t.setResult x)) (hs : P s) : (decsymBody s).Ends P := by
  refine withTree_ends hs fun t _ _ => (walk_ends h t (hstart s hs)).seq fun x u hu => ?_
  simp only
  split
  · exact hend _ (hres u x hu)
  · exact hres u x hu

theorem decodeLoop_ends (hi : KeptByIn P) (h : KeptByOut P) (hend : ∀ t, P t → P t.endDecode)
    (hres : ∀ t x, P t → P (t.setResult x)) (t : Tree) (fuel : Nat) (hs : P s) (ho : s.status.oclosed = false) :
    (decodeLoop t fuel s).Ends fun u => P u ∧ u.status.oclosed = false := by
  induction fuel generalizing s with
  | zero => trivial
  | succ fuel ih =>
    rw [decodeLoop]
    refine (walk_ends hi.andOpen t ⟨hs, ho⟩).seq fun x u hu => ?_
    simp only
    split
    · exact ⟨hend _ (hres u x hu.1), hu.2⟩
    · exact (h.writeOr (hres u x hu.1) hu.2 _ _).then fun v hv => ih hv.1 hv.2

theorem decodeBody_ends (hi : KeptByIn P) (h : KeptByOut P) (hstart : ∀ t, P t → P t.startDecode)
    (hend : ∀ t, P t → P t.endDecode) (hres : ∀ t x, P t → P (t.setResult x)) (hs : P s) : (decodeBody s).Ends P :=
  withTree_ends hs fun t _ _ => raiseIf_ends hs fun ho =>
    (decodeLoop_ends hi h hend hres t _ (hstart s hs) ho).mono fun _ hu => hu.1

/-! ### The loops end within their bounds (R219) -/

theorem raiseIf_ne_stuck {c : Bool} {e : Err} {s : State} {k : State → Res Unit} (hk : c = false → k s ≠ .stuck) :
    raiseIf c e s k ≠ .stuck := by
  cases c
  · exact hk rfl
  · simp

theorem withTree_some {s : State} {t : Tree} {k : Tree → State → Res Unit} (h1 : s.status.treeValid = true)
    (h2 : s.tree = some t) : withTree s k = k t s := by
  simp [withTree, h1, h2]

theorem withTree_ne_stuck {s : State} {k : Tree → State → Res Unit} (hk : ∀ t, s.tree = some t → k t s ≠ .stuck) :
    withTree s k ≠ .stuck := by
  unfold withTree
  split
  · split
    · next t ht => exact hk t ht
    · simp
  · simp

theorem State.inLeft_seek {s : State} {n : Nat} (h : s.inCur + n ≤ s.inBits.length) :
    ((s.afterCalls 1).seekIn (s.inCur + n)).inLeft + n = s.inLeft := by
  simp only [State.inLeft, State.seekIn_inBits, State.seekIn_inCur, State.afterCalls_inBits]; omega

theorem countUnit_ne_stuck (b : Byte) (s : State) : countUnit b s ≠ .stuck := by
  unfold countUnit raiseIf; split <;> simp

theorem countUnit_ok {b : Byte} {s t : State} (h : countUnit b s = .ok () t) : t.inLeft = s.inLeft := by
  unfold countUnit raiseIf at h
  split at h
  · simp at h
  · simp only [Res.ok.injEq, true_and] at h; subst h; rfl

theorem Res.andThen_ne_stuck {r : Res Unit} {f : State → Res Unit} (hr : r ≠ .stuck)
    (hf : ∀ t, r = .ok () t → f t ≠ .stuck) : r.andThen f ≠ .stuck := by
  cases r with
  | ok u t => exact hf t rfl
  | raise e t => simp
  | stuck => exact absurd rfl hr

theorem Res.bind_ne_stuck {α β : Type} {r : Res α} {f : α → State → Res β} (hr : r ≠ .stuck)
    (hf : ∀ a t, r = .ok a t → f a t ≠ .stuck) : r.bind f ≠ .stuck := by
  cases r with
  | ok a t => exact hf a t rfl
  | raise e t => simp
  | stuck => exact absurd rfl hr

theorem countLoop_ne_stuck (fuel : Nat) (s : State) (h : s.inLeft / 8 < fuel) : countLoop fuel s ≠ .stuck := by
  induction fuel generalizing s with
  | zero => omega
  | succ fuel ih =>
    rw [countLoop]
    rcases inRead_cases 8 s with e | e | ⟨v, hv, e⟩ <;> rw [e]
    · simp
    · simp
    · refine Res.andThen_ne_stuck (countUnit_ne_stuck _ _) fun t ht => ih t ?_
      rw [countUnit_ok ht]
      have := State.inLeft_seek hv
      omega

theorem readOr_ne_stuck (n : Nat) (short : Err) (s : State) : readOr n short s ≠ .stuck := by
  rcases readOr_cases n short s with h | h | ⟨v, -, h⟩ <;> simp [h]

theorem writeOr_ne_stuck (n v : Nat) (s : State) : writeOr n v s ≠ .stuck := by
  rcases writeOr_cases n v s with h | h <;> simp [h]

theorem writeBits_ne_stuck (bs : Bits) (s : State) : writeBits bs s ≠ .stuck := by
  induction bs generalizing s with
  | nil => simp [writeBits]
  | cons b bs ih => exact Res.andThen_ne_stuck (writeOr_ne_stuck _ _ _) fun t _ => ih t

theorem writeCode_ne_stuck (x : Symbol) (s : State) : writeCode x s ≠ .stuck := by
  unfold writeCode
  split
  · simp
  · exact writeBits_ne_stuck _ _

/-- Writing to OUT does not move IN. -/
theorem writeCode_inLeft {x : Symbol} {s t : State} (h : writeCode x s = .ok () t) : t.inLeft = s.inLeft := by
  have hw : ∀ bs : Bits, (writeBits bs s).Ends fun u => u.inLeft = s.inLeft := fun bs =>
    writeBits_ends rfl (fun u hu => hu) fun u b hu => hu
  unfold writeCode at h
  split at h
  · simp at h
  · next bs _ =>
    have := hw bs
    rw [h] at this
    exact this

theorem encodeLoop_ne_stuck (fuel : Nat) (s : State) (h : s.inLeft / 8 < fuel) : encodeLoop fuel s ≠ .stuck := by
  induction fuel generalizing s with
  | zero => omega
  | succ fuel ih =>
    rw [encodeLoop]
    rcases inRead_cases 8 s with e | e | ⟨v, hv, e⟩ <;> rw [e]
    · simp
    · simp
    · refine Res.andThen_ne_stuck (writeCode_ne_stuck _ _) fun t ht => ih t ?_
      rw [writeCode_inLeft ht]
      have := State.inLeft_seek hv
      omega

theorem emitTree_ne_stuck (t : Tree) (s : State) : emitTree t s ≠ .stuck := by
  induction t generalizing s with
  | leaf x => exact Res.andThen_ne_stuck (writeOr_ne_stuck _ _ _) fun u _ => writeOr_ne_stuck _ _ _
  | node l r hl hr =>
    exact Res.andThen_ne_stuck (Res.andThen_ne_stuck (writeOr_ne_stuck _ _ _) fun u _ => hl u) fun u _ => hr u

theorem readLeaf_ne_stuck (s : State) : readLeaf s ≠ .stuck := by
  refine Res.bind_ne_stuck (readOr_ne_stuck _ _ _) fun v t _ => ?_
  cases symbolOf v <;> simp

theorem readTree_ne_stuck (depth n : Nat) (s : State) : readTree depth n s ≠ .stuck := by
  induction depth generalizing n s with
  | zero => simp [readTree]
  | succ depth ih =>
    rw [readTree]
    split
    · simp
    · refine Res.bind_ne_stuck (readOr_ne_stuck _ _ _) fun c t _ => ?_
      split
      · exact Res.bind_ne_stuck (ih _ _) fun _ u _ => Res.bind_ne_stuck (ih _ _) fun _ v _ => by simp
      · exact Res.bind_ne_stuck (readLeaf_ne_stuck _) fun _ u _ => by simp

theorem walk_ne_stuck (t : Tree) (s : State) : walk t s ≠ .stuck := by
  induction t generalizing s with
  | leaf => simp [walk]
  | node l r hl hr =>
    refine Res.bind_ne_stuck (readOr_ne_stuck _ _ _) fun c u _ => ?_
    split
    · exact hl u
    · exact hr u

/-- The walk never moves IN backwards. -/
theorem walk_inLeft {t : Tree} {s u : State} {x : Symbol} (h : walk t s = .ok x u) : u.inLeft ≤ s.inLeft := by
  induction t generalizing s with
  | leaf => simp [walk] at h; exact (congrArg State.inLeft h.2).ge
  | node l r hl hr =>
    obtain ⟨c, v, hv, h⟩ := Res.bind_eq_ok h
    have hle : v.inLeft ≤ s.inLeft := by
      rcases readOr_cases 1 .fmtDataTrunc s with e | e | ⟨b, hb, e⟩ <;> rw [e] at hv <;> simp at hv
      obtain ⟨-, rfl⟩ := hv
      have := State.inLeft_seek hb
      omega
    split at h
    · exact (hl h).trans hle
    · exact (hr h).trans hle

/-- A walk from an internal node reads at least one bit (R219). -/
theorem walk_node_inLeft {l r : Tree} {s u : State} {x : Symbol} (h : walk (.node l r) s = .ok x u) :
    u.inLeft < s.inLeft := by
  obtain ⟨c, v, hv, h⟩ := Res.bind_eq_ok h
  have hlt : v.inLeft < s.inLeft := by
    rcases readOr_cases 1 .fmtDataTrunc s with e | e | ⟨b, hb, e⟩ <;> rw [e] at hv <;> simp at hv
    obtain ⟨-, rfl⟩ := hv
    have := State.inLeft_seek hb
    omega
  split at h
  · exact (walk_inLeft h).trans_lt hlt
  · exact (walk_inLeft h).trans_lt hlt

theorem writeOr_inLeft {n v : Nat} {s t : State} (h : writeOr n v s = .ok () t) : t.inLeft = s.inLeft := by
  rcases writeOr_cases n v s with e | e <;> rw [e] at h <;> simp at h
  subst h; rfl

/-- DECODE ends on every tree that RTREE and BUILD store (R219). -/
theorem decodeLoop_ne_stuck {t : Tree} (ht : t.degenerate = false) (fuel : Nat) (s : State) (h : s.inLeft < fuel) :
    decodeLoop t fuel s ≠ .stuck := by
  induction fuel generalizing s with
  | zero => omega
  | succ fuel ih =>
    rw [decodeLoop]
    refine Res.bind_ne_stuck (walk_ne_stuck _ _) fun x u hu => ?_
    simp only
    split
    · simp
    · next hx =>
      refine Res.andThen_ne_stuck (writeOr_ne_stuck _ _ _) fun v hv => ih v ?_
      rw [writeOr_inLeft hv]
      show u.inLeft < fuel
      cases t with
      | leaf y =>
        simp [walk] at hu
        simp [Tree.degenerate] at ht
        exact absurd (hu.1.symm.trans ht) hx
      | node l r =>
        have := walk_node_inLeft hu
        omega

end Sys2Proof.Machine
end

