-- ==== Sys2Proof/Laws/Loops.lean ====
section
/-! SUPPORT. What the loops of COUNT, ENCODE and DECODE do when the channels answer (40_frequency.md R101,
44_encoder.md R151, 45_decoder.md R162). -/

namespace Sys2Proof.Machine

/-! ### Counts -/

theorem State.freqAt_setFreq (s : State) (a b : Byte) (v : Nat) :
    (s.setFreq a v).freqAt b = if b = a then v else s.freqAt b := by
  simp only [freqAt, setFreq, Vector.getElem_set, BitVec.toNat_eq, eq_comm]

/-- The counts after each byte of `us` is counted once. -/
def State.addCounts (s : State) (us : List Byte) : State := us.foldl (fun s b => s.setFreq b (s.freqAt b + 1)) s

@[simp] theorem State.addCounts_nil (s : State) : s.addCounts [] = s := rfl

theorem State.addCounts_cons (s : State) (b : Byte) (us : List Byte) :
    s.addCounts (b :: us) = (s.setFreq b (s.freqAt b + 1)).addCounts us := rfl

theorem State.freqAt_addCounts (s : State) (us : List Byte) (b : Byte) :
    (s.addCounts us).freqAt b = s.freqAt b + us.count b := by
  induction us generalizing s with
  | nil => rfl
  | cons a us ih =>
    rw [addCounts_cons, ih, freqAt_setFreq, List.count_cons]
    by_cases h : b = a
    · subst h; simp; omega
    · simp [h, Ne.symm h]

/-- Counting changes FREQ and nothing else. -/
theorem State.addCounts_frame (s : State) (us : List Byte) : s.addCounts us = { s with freq := (s.addCounts us).freq } := by
  induction us generalizing s with
  | nil => rfl
  | cons a us ih => rw [addCounts_cons, ih]; rfl

theorem State.addCounts_setFreq_congr {s t : State} (h : t = { s with answers := t.answers, inCur := t.inCur, inpos := t.inpos })
    (us : List Byte) :
    t.addCounts us = { s.addCounts us with answers := t.answers, inCur := t.inCur, inpos := t.inpos } := by
  induction us generalizing s t with
  | nil => exact h
  | cons a us ih =>
    rw [addCounts_cons, addCounts_cons]
    have hf : t.freqAt a = s.freqAt a := by rw [h]; rfl
    have h' : t.setFreq a (t.freqAt a + 1) =
        { s.setFreq a (s.freqAt a + 1) with answers := t.answers, inCur := t.inCur, inpos := t.inpos } := by
      rw [hf, h]; rfl
    rw [ih (s := s.setFreq a (s.freqAt a + 1)) (t := t.setFreq a (t.freqAt a + 1)) h']
    rfl

theorem State.addCounts_afterCalls_seekIn (s : State) (us : List Byte) (k c : Nat) :
    ((s.afterCalls k).seekIn c).addCounts us = ((s.addCounts us).afterCalls k).seekIn c := by
  rw [State.addCounts_setFreq_congr (s := s) (t := (s.afterCalls k).seekIn c) rfl]
  have h := s.addCounts_frame us
  rw [h]
  rfl

theorem countUnit_eq (b : Byte) (s : State) :
    countUnit b s = if s.freqAt b = s.params.cntMax then .raise .countOvf s
      else .ok () (s.setFreq b (s.freqAt b + 1)) := by
  unfold countUnit raiseIf
  by_cases h : s.freqAt b = s.params.cntMax <;> simp [h]

theorem State.inRest_addCounts (s : State) (us : List Byte) : (s.addCounts us).inRest = s.inRest := by
  rw [addCounts_frame]; rfl

/-- One unit read. -/
theorem inRead_unit {s : State} {b : Byte} {rest : Bits} (hok : s.answers.headD .ok = .ok)
    (h : s.inRest = msbf 8 b.toNat ++ rest) :
    inRead 8 s = (.val b, (s.afterCalls 1).seekIn (s.inCur + 8)) := by
  rw [inRead_val hok h (msbf_length _ _) (by omega), bitsVal_ofNat_msbf]

/-- The units `us` are counted, one read each, and the loop goes on from there with what follows them. -/
theorem countLoop_units {us : List Byte} {fuel : Nat} {s : State} {rest : Bits}
    (h : s.inRest = bytesToBits us ++ rest) (hok : s.OkFor us.length)
    (hfit : ∀ b, s.freqAt b + us.count b ≤ s.params.cntMax) (hi : s.inpos = BitVec.ofNat 32 s.inCur) :
    countLoop (us.length + fuel) s =
      countLoop fuel (((s.addCounts us).afterCalls us.length).seekIn (s.inCur + 8 * us.length)) := by
  induction us generalizing s with
  | nil => simp [State.seekIn_self hi]
  | cons b us ih =>
    have hb : s.inRest = msbf 8 b.toNat ++ (bytesToBits us ++ rest) := by
      rw [h, bytesToBits_cons, List.append_assoc]
    have hb1 := State.inRest_after (s := s.afterCalls 1) hb (msbf_length _ _)
    have hlt : s.freqAt b + 1 ≤ s.params.cntMax := by
      have := hfit b
      rw [List.count_cons] at this
      simp at this
      omega
    rw [show (b :: us).length + fuel = (us.length + fuel) + 1 by simp; omega, countLoop, inRead_unit hok.head hb]
    simp only
    rw [countUnit_eq, if_neg (by show ¬ s.freqAt b = s.params.cntMax; omega), Res.andThen_ok, ih (s := _) (by exact hb1) (by exact hok.tail) ?_ rfl]
    · rw [← State.addCounts_cons, State.addCounts_afterCalls_seekIn]
      simp only [State.seekIn_afterCalls, State.seekIn_seekIn, State.afterCalls_afterCalls, List.length_cons]
      congr 2
      · congr 1; omega
      · simp; omega
    · intro c
      rw [State.freqAt_setFreq]
      have := hfit c
      rw [List.count_cons] at this
      show (if c = b then s.freqAt b + 1 else s.freqAt c) + us.count c ≤ s.params.cntMax
      by_cases hcb : c = b
      · subst hcb; simp at this ⊢; omega
      · simp [hcb, Ne.symm hcb] at this ⊢; omega

/-! ### Encoding -/

theorem writeCode_ok {x : Symbol} {bs : Bits} {s : State} (hc : s.codeAt x = some bs) (hok : s.OkFor bs.length) :
    writeCode x s = .ok () ((s.afterCalls bs.length).appendOut bs) := by
  simp only [writeCode, hc]; exact writeBits_ok hok

/-- A write that fails inside a code leaves the bits of the code before it (R150, R151). -/
theorem writeCode_fail {x : Symbol} {bs : Bits} {s : State} {k : Nat} (hc : s.codeAt x = some bs) (hk : k < bs.length)
    (hok : s.OkFor k) (hf : s.answers[k]? = some .fail) :
    writeCode x s = .raise .ioOut ((s.afterCalls (k + 1)).appendOut (bs.take k)) := by
  simp only [writeCode, hc]; exact writeBits_fail hk hok hf

/-- The units `us` are encoded, and the loop goes on from there with what follows them. -/
theorem encodeLoop_units {us : List Byte} {fuel : Nat} {s : State} {rest bs : Bits}
    (h : s.inRest = bytesToBits us ++ rest) (hc : codesOf s.code (us.map byteSymbol) = some bs)
    (hok : s.OkFor (us.length + bs.length)) (hi : s.inpos = BitVec.ofNat 32 s.inCur) :
    encodeLoop (us.length + fuel) s =
      encodeLoop fuel (((s.afterCalls (us.length + bs.length)).appendOut bs).seekIn (s.inCur + 8 * us.length)) := by
  induction us generalizing s bs with
  | nil =>
    simp [codesOf] at hc
    subst hc
    simp [State.seekIn_self hi]
  | cons b us ih =>
    simp only [List.map_cons, codesOf] at hc
    split at hc
    case h_2 => simp at hc
    case h_1 c bs' hc1 hc2 =>
    simp only [Option.some.injEq] at hc
    subst hc
    have hb : s.inRest = msbf 8 b.toNat ++ (bytesToBits us ++ rest) := by
      rw [h, bytesToBits_cons, List.append_assoc]
    have hb1 := State.inRest_after (s := s.afterCalls 1) hb (msbf_length _ _)
    have h0 : s.OkFor (1 + (c.length + (us.length + bs'.length))) :=
      hok.mono (by simp only [List.length_cons, List.length_append]; omega)
    have h1 := h0.drop
    have h2 := h1.drop
    rw [show (b :: us).length + fuel = (us.length + fuel) + 1 by simp; omega, encodeLoop,
      inRead_unit (State.OkFor.head (h0.mono (by omega) : s.OkFor (0 + 1))) hb]
    simp only
    rw [writeCode_ok (bs := c) (by exact hc1) (by exact h1.mono (by omega)), Res.andThen_ok,
      ih (s := _) (bs := bs') (by exact hb1) (by exact hc2) (by exact h2) rfl]
    simp only [State.seekIn_afterCalls, State.afterCalls_appendOut, State.afterCalls_afterCalls]
    have e : 1 + c.length + (us.length + bs'.length) = (b :: us).length + (c ++ bs').length := by simp; omega
    rw [e]
    show encodeLoop fuel ((((s.afterCalls _).appendOut c).appendOut bs').seekIn (s.inCur + 8 + 8 * us.length)) = _
    rw [State.appendOut_appendOut, show s.inCur + 8 + 8 * us.length = s.inCur + 8 * (b :: us).length by simp; omega]

/-- An exhausted IN ends COUNT and ENCODE (R101, R151). -/
theorem countLoop_end {fuel : Nat} {s : State} (hok : s.OkFor 1) (h : s.inLeft < 8) :
    countLoop (fuel + 1) s = .ok () (s.afterCalls 1) := by
  rw [countLoop, inRead_end (State.OkFor.head (k := 0) hok) h]

theorem encodeLoop_end {fuel : Nat} {s : State} (hok : s.OkFor 1) (h : s.inLeft < 8) :
    encodeLoop (fuel + 1) s = .ok () (s.afterCalls 1) := by
  rw [encodeLoop, inRead_end (State.OkFor.head (k := 0) hok) h]

/-! ### Decoding -/

/-- The byte a symbol is written as (R162). -/
def symbolByte (x : Symbol) : Byte := BitVec.ofNat 8 x.val

theorem symbolByte_byteSymbol (b : Byte) : symbolByte (byteSymbol b) = b := by
  simp [symbolByte, byteSymbol]

theorem symbolByte_toNat {x : Symbol} (h : x ≠ Config.sent) : (symbolByte x).toNat = x.val := by
  rcases symbol_cases x with rfl | ⟨b, rfl⟩
  · exact absurd rfl h
  · rw [symbolByte_byteSymbol]; rfl

/-- `s` after the symbols `xs`, each with its path, were resolved and written (R162). -/
def State.decoded (s : State) (xs : List (Symbol × Bits)) : State :=
  { s with outBits := s.outBits ++ bytesToBits (xs.map fun a => symbolByte a.1),
           outpos := s.outpos + BitVec.ofNat 32 (8 * xs.length),
           result := (xs.getLast?.map fun a => BitVec.ofNat 9 a.1.val).getD s.result,
           inCur := s.inCur + (xs.flatMap Prod.snd).length,
           inpos := BitVec.ofNat 32 (s.inCur + (xs.flatMap Prod.snd).length),
           answers := s.answers.drop ((xs.flatMap Prod.snd).length + xs.length) }

theorem State.decoded_nil {s : State} (h : s.inpos = BitVec.ofNat 32 s.inCur) : s.decoded [] = s := by
  cases s; simp_all [State.decoded]

theorem State.decoded_cons (s : State) (a : Symbol × Bits) (xs : List (Symbol × Bits)) :
    (((((s.afterCalls a.2.length).seekIn (s.inCur + a.2.length)).setResult a.1).afterCalls 1).appendOut
      (bytesToBits [symbolByte a.1])).decoded xs = s.decoded (a :: xs) := by
  have hlast : ((a :: xs).getLast?.map fun a => BitVec.ofNat 9 a.1.val).getD s.result =
      (xs.getLast?.map fun a => BitVec.ofNat 9 a.1.val).getD (BitVec.ofNat 9 a.1.val) := by
    rw [List.getLast?_cons]; cases xs.getLast? <;> rfl
  simp only [State.decoded, hlast, State.appendOut, State.afterCalls, State.setResult, State.seekIn, List.drop_drop,
    List.map_cons, List.flatMap_cons, List.length_append, List.append_assoc, List.length_cons, Nat.add_assoc,
    BitVec.add_assoc, ← BitVec.ofNat_add, bytesToBits_length, List.length_nil, Nat.mul_add, Nat.mul_one]
  rw [← bytesToBits_append]
  simp only [List.cons_append, List.nil_append]
  congr 1 <;> congr 1 <;> congr 1 <;> omega

theorem State.inRest_decoded {s : State} {xs : List (Symbol × Bits)} {rest : Bits}
    (h : s.inRest = xs.flatMap Prod.snd ++ rest) : (s.decoded xs).inRest = rest :=
  State.inRest_after (s := s) h rfl

/-- The symbols `xs` are resolved and written, and the loop goes on from there with what follows them (R160, R162). -/
theorem decodeLoop_symbols {t : Tree} {xs : List (Symbol × Bits)} {rest : Bits} {s : State} {fuel : Nat}
    (hxs : ∀ a ∈ xs, a ∈ t.paths ∧ a.1 ≠ Config.sent) (h : s.inRest = xs.flatMap Prod.snd ++ rest)
    (hok : s.OkFor ((xs.flatMap Prod.snd).length + xs.length)) (hi : s.inpos = BitVec.ofNat 32 s.inCur) :
    decodeLoop t (xs.length + fuel) s = decodeLoop t fuel (s.decoded xs) := by
  induction xs generalizing s with
  | nil => rw [State.decoded_nil hi, List.length_nil, Nat.zero_add]
  | cons a xs ih =>
    obtain ⟨ha, hne⟩ := hxs a (by simp)
    have hrest : s.inRest = a.2 ++ (xs.flatMap Prod.snd ++ rest) := by
      rw [h, List.flatMap_cons, List.append_assoc]
    have hlen : ((a :: xs).flatMap Prod.snd).length + (a :: xs).length =
        a.2.length + (1 + ((xs.flatMap Prod.snd).length + xs.length)) := by
      simp only [List.flatMap_cons, List.length_append, List.length_cons]; omega
    rw [hlen] at hok
    have h1 := hok.drop
    have h2 := h1.drop
    rw [show (a :: xs).length + fuel = (xs.length + fuel) + 1 by simp; omega, decodeLoop,
      walk_path (x := a.1) (p := a.2) ha (hok.mono (by omega)) hrest hi, Res.bind_ok]
    simp only [if_neg hne]
    rw [writeOr_ok (s := ((s.afterCalls a.2.length).seekIn (s.inCur + a.2.length)).setResult a.1)
      (State.OkFor.head (k := 0) (by exact h1.mono (by omega))), Res.andThen_ok]
    have hb1 := State.inRest_after (s := s.afterCalls a.2.length) hrest rfl
    rw [ih (s := _) (fun b hb => hxs b (by simp [hb])) (by exact hb1) (by exact h2) rfl, ← State.decoded_cons]
    have hbyte : msbf 8 a.1.val = bytesToBits [symbolByte a.1] := by
      simp [bytesToBits, symbolByte_toNat hne]
    rw [hbyte]

/-- The symbols `xs` are resolved and written, and then the sentinel is resolved (R162). -/
theorem decodeLoop_ok {t : Tree} {xs : List (Symbol × Bits)} {p rest : Bits} {s : State} {fuel : Nat}
    (hxs : ∀ a ∈ xs, a ∈ t.paths ∧ a.1 ≠ Config.sent) (hp : (Config.sent, p) ∈ t.paths)
    (h : s.inRest = xs.flatMap Prod.snd ++ (p ++ rest))
    (hok : s.OkFor ((xs.flatMap Prod.snd).length + xs.length + p.length)) (hi : s.inpos = BitVec.ofNat 32 s.inCur) :
    decodeLoop t (xs.length + 1 + fuel) s =
      .ok () (((((s.decoded xs).afterCalls p.length).seekIn ((s.decoded xs).inCur + p.length)).setResult
        Config.sent).endDecode) := by
  rw [Nat.add_assoc, decodeLoop_symbols hxs h (hok.mono (by omega)) hi, Nat.add_comm 1 fuel, decodeLoop,
    walk_path (s := s.decoded xs) (rest := rest) hp (State.OkFor.congr (s := s.afterCalls _) hok.drop rfl)
      (State.inRest_decoded h) rfl, Res.bind_ok]
  simp

/-- DECODE ends with the error of the walk after `xs` (R162, R196). -/
theorem decodeLoop_walk_raises {t : Tree} {xs : List (Symbol × Bits)} {rest : Bits} {s s' : State} {fuel : Nat} {e : Err}
    (hxs : ∀ a ∈ xs, a ∈ t.paths ∧ a.1 ≠ Config.sent) (h : s.inRest = xs.flatMap Prod.snd ++ rest)
    (hok : s.OkFor ((xs.flatMap Prod.snd).length + xs.length)) (hi : s.inpos = BitVec.ofNat 32 s.inCur)
    (hw : walk t (s.decoded xs) = .raise e s') :
    decodeLoop t (xs.length + 1 + fuel) s = .raise e s' := by
  rw [Nat.add_assoc, decodeLoop_symbols hxs h hok hi, Nat.add_comm 1 fuel, decodeLoop, hw, Res.bind_raise]

end Sys2Proof.Machine
end

