-- ==== Sys2Proof/Laws/Encoding.lean ====
section
/-! SUPPORT. The fields of a command word (30_encoding.md R80, R81) and what the decoder accepts. -/

namespace Sys2Proof

/-- A bit of a word put together from its three fields. -/
theorem getLsbD_fields (r : BitVec 15) (a : BitVec 9) (o : BitVec 8) (i : Nat) :
    (((r ++ a) ++ o : BitVec (15 + 9 + 8))).getLsbD i =
      if i < 8 then o.getLsbD i else if i - 8 < 9 then a.getLsbD (i - 8) else r.getLsbD (i - 8 - 9) := by
  rw [BitVec.getLsbD_append, BitVec.getLsbD_append]

theorem fieldOpc_append (a : BitVec 9) (o : Byte) : fieldOpc ((0#15 ++ a) ++ o) = o := by
  unfold fieldOpc; apply BitVec.eq_of_getLsbD_eq; intro i hi
  have := getLsbD_fields 0#15 a o i
  simp only [BitVec.getLsbD_extractLsb', hi, decide_true, Bool.true_and, Nat.zero_add]
  exact this.trans (by simp [hi])

theorem fieldArg_append (a : BitVec 9) (o : Byte) : fieldArg ((0#15 ++ a) ++ o) = a := by
  unfold fieldArg; apply BitVec.eq_of_getLsbD_eq; intro i hi
  have := getLsbD_fields 0#15 a o (8 + i)
  simp only [BitVec.getLsbD_extractLsb', hi, decide_true, Bool.true_and]
  exact this.trans (by simp [hi])

theorem fieldRsv_append (a : BitVec 9) (o : Byte) : fieldRsv ((0#15 ++ a) ++ o) = 0 := by
  unfold fieldRsv; apply BitVec.eq_of_getLsbD_eq; intro i hi
  have := getLsbD_fields 0#15 a o (17 + i)
  simp only [BitVec.getLsbD_extractLsb', hi, decide_true, Bool.true_and]
  exact this.trans (by simp [show ¬ 17 + i < 8 by omega, show ¬ 17 + i - 8 < 9 by omega])

/-- A word is its three fields. -/
theorem word_eq (w : Word) : w = (fieldRsv w ++ fieldArg w) ++ fieldOpc w := by
  apply BitVec.eq_of_getLsbD_eq; intro i hi
  refine Eq.trans ?_ (getLsbD_fields _ _ _ i).symm
  simp only [fieldRsv, fieldArg, fieldOpc, BitVec.getLsbD_extractLsb']
  split
  · simp [*]
  · split
    · simp [*]; congr 1; omega
    · have : i - 8 - 9 < 15 := by omega
      simp [*]; congr 1; omega

/-- R83: the words without an operand have ARG = 0. -/
theorem ok_iff_noOperand {a i j} : noOperand a i = .ok j ↔ a = 0 ∧ i = j := by
  unfold noOperand; split <;> simp_all

/-- R83: an operand is accepted exactly where the command is well-formed. -/
theorem ok_iff_withOperand {i j} : withOperand i = .ok j ↔ i.wf = true ∧ i = j := by
  unfold withOperand; split <;> simp_all

/-- What an accepted opcode and operand say of the command. -/
theorem decodeOpc_ok {o : Byte} {a : BitVec 9} {i : Instr} (h : decodeOpc o a = .ok i) :
    i.wf = true ∧ opcode i = o ∧ operand i = a := by
  unfold decodeOpc at h
  split at h <;> first
    | (rw [ok_iff_noOperand] at h; obtain ⟨rfl, rfl⟩ := h; refine ⟨rfl, ?_, rfl⟩; apply BitVec.eq_of_toNat_eq; simp [opcode, *])
    | (rw [ok_iff_withOperand] at h; obtain ⟨hw, rfl⟩ := h; refine ⟨hw, ?_, rfl⟩; apply BitVec.eq_of_toNat_eq; simp [opcode, *])
    | simp at h

end Sys2Proof
end

