-- ==== Sys2Proof/Laws/Commands.lean ====
section
/-! SUPPORT. Every command is its pseudocode and then completion, and a step is the turn it takes. -/

namespace Sys2Proof.Machine

/-- The Core's turn, given by the script or by its end. -/
theorem step_core {s : State} (h : s.CoreNext) : step s = coreTurn s.turnTaken := by
  rcases h with h | ⟨rest, h⟩ <;> unfold step <;> rw [h]
  · simp [State.turnTaken, h]; cases s; simp_all
  · simp [State.turnTaken, h]

/-- The host's turn. -/
theorem step_host {s : State} {m rest} (h : s.script = .host m :: rest) : step s = hostTurn m { s with script := rest } := by
  unfold step; rw [h]

/-- Everything recording the passes can do to a next state. -/
theorem recordPass_eq_next {i : Instr} {s : State} {r t} (h : recordPass i s r = .next t) :
    ∃ u, r = .next u ∧ t = u.setPasses (passesAfter i s u) := by
  cases r with
  | next u => exact ⟨u, rfl, (Host.Outcome.next.inj h).symm⟩
  | fault => cases h
  | refused => cases h

/-- No move of the host changes the turns to come, and only an attach changes IN's bits. -/
theorem hostMove_frame {m : HostMove} {s t : State} (h : hostMove m s = .next t) :
    t.script = s.script ∧ (m.attaches = false → t.inBits = s.inBits) := by
  cases m with
  | memWrite a n v =>
    obtain rfl := Host.Outcome.next.inj h
    unfold memWrite cmdWrite freqWrite
    split
    · split
      · split
        · exact ⟨rfl, fun _ => rfl⟩
        · split <;> exact ⟨rfl, fun _ => rfl⟩
      · split
        · split <;> exact ⟨rfl, fun _ => rfl⟩
        · exact ⟨rfl, fun _ => rfl⟩
    · exact ⟨rfl, fun _ => rfl⟩
  | memRead a n =>
    obtain rfl := Host.Outcome.next.inj h
    unfold memRead
    split
    · split <;> exact ⟨rfl, fun _ => rfl⟩
    · exact ⟨rfl, fun _ => rfl⟩
  | attachIn b =>
    simp only [hostMove] at h
    split at h
    · cases h
    · obtain rfl := Host.Outcome.next.inj h; exact ⟨rfl, by simp [HostMove.attaches]⟩
  | attachOut =>
    simp only [hostMove] at h
    split at h
    · cases h
    · obtain rfl := Host.Outcome.next.inj h; exact ⟨rfl, by simp [HostMove.attaches]⟩
  | takeOut => obtain rfl := Host.Outcome.next.inj h; exact ⟨rfl, fun _ => rfl⟩
  | reset => obtain rfl := Host.Outcome.next.inj h; exact ⟨rfl, fun _ => rfl⟩

/-- A move that attaches no channel is a host's turn as it is. -/
theorem hostTurn_of_not_attaches {m : HostMove} {s : State} (h : m.attaches = false) : hostTurn m s = hostMove m s := by
  unfold hostTurn
  cases hostMove m s <;> simp [h]

/-- Everything a host's turn can do (R64, R66). -/
theorem hostTurn_cases (m : HostMove) (s : State) :
    (m.attaches = true ∧ s.status.busy = true ∧ hostTurn m s = .refused .attachWhileBusy) ∨
    ∃ t, hostMove m s = .next t ∧
      ((m.attaches = true ∧ s.status.busy = false ∧ encodesCounted s.passes.count s.script t = true ∧
          hostTurn m s = .refused .attachBetweenPasses) ∨
        ((m.attaches = true → s.status.busy = false ∧ encodesCounted s.passes.count s.script t = false) ∧
          hostTurn m s = .next t)) := by
  have attach : ∀ t, m.attaches = true → hostMove m s = (if s.status.busy then .refused .attachWhileBusy else .next t) →
      (m.attaches = true ∧ s.status.busy = true ∧ hostTurn m s = .refused .attachWhileBusy) ∨
      ∃ t, hostMove m s = .next t ∧
        ((m.attaches = true ∧ s.status.busy = false ∧ encodesCounted s.passes.count s.script t = true ∧
            hostTurn m s = .refused .attachBetweenPasses) ∨
          ((m.attaches = true → s.status.busy = false ∧ encodesCounted s.passes.count s.script t = false) ∧
            hostTurn m s = .next t)) := by
    intro t ha hm
    cases hb : s.status.busy <;> rw [hb] at hm <;> unfold hostTurn <;> rw [hm] <;>
      cases he : encodesCounted s.passes.count s.script t <;> simp_all
  cases m with
  | attachIn bytes => exact attach _ rfl rfl
  | attachOut => exact attach _ rfl rfl
  | memWrite | memRead | takeOut | reset => exact .inr ⟨_, rfl, .inr ⟨by simp [HostMove.attaches], rfl⟩⟩

theorem hostTurn_eq_next {m : HostMove} {s t : State} (h : hostTurn m s = .next t) :
    hostMove m s = .next t ∧ (m.attaches = true → encodesCounted s.passes.count s.script t = false) := by
  rcases hostTurn_cases m s with ⟨-, -, e⟩ | ⟨u, hu, ⟨-, -, -, e⟩ | ⟨ha, e⟩⟩ <;> rw [e] at h
  · cases h
  · cases h
  · obtain rfl := Host.Outcome.next.inj h; exact ⟨hu, fun h => (ha h).2⟩

theorem mem_changedCounters {old new : Vector Nat 256} {b : Byte} :
    b ∈ changedCounters old new ↔ old[b.toNat]'b.isLt ≠ new[b.toNat]'b.isLt := by
  simp only [changedCounters, List.mem_map, List.mem_filter, List.mem_zipIdx_iff_getElem?, decide_eq_true_eq]
  constructor
  · rintro ⟨⟨⟨x, y⟩, k⟩, ⟨h, hne⟩, rfl⟩
    obtain ⟨hk, h⟩ := List.getElem?_eq_some_iff.1 h
    simp at hk h
    simp [Nat.mod_eq_of_lt hk, h.1, h.2, hne]
  · intro h
    exact ⟨((old[b.toNat]'b.isLt, new[b.toNat]'b.isLt), b.toNat),
      ⟨List.getElem?_eq_some_iff.2 ⟨by simpa using b.isLt, by simp⟩, h⟩, by simp⟩

theorem Passes.mem_counted_own {p : Passes} {old new : Vector Nat 256} {b : Byte} :
    b ∈ (p.counted old new).own ↔ b ∈ p.own ∨ old[b.toNat]'b.isLt ≠ new[b.toNat]'b.isLt := by
  simp only [Passes.counted, List.mem_append, List.mem_filter, decide_eq_true_eq, mem_changedCounters]
  tauto

theorem Passes.closed_done (n : Nat) : (Passes.closed n).Done := by simp [Passes.Done, Passes.closed]

theorem Passes.Done.overwrite {p : Passes} (h : p.Done) (b : Byte) : (p.overwrite b).Done := by
  intro k hk
  refine h k (hk.imp_left fun hf => ?_)
  simp only [Passes.overwrite] at hf
  split at hf
  · cases hf
  · exact hf

/-- A command's record names no pass that is not done, and no pass is undone (R64, log 19). -/
theorem passesAfter_done (i : Instr) {s t : State} (h : t.passes.Done) :
    (passesAfter i s t).Done ∧ t.passes.count ≤ (passesAfter i s t).count := by
  unfold passesAfter
  split
  · exact ⟨h, Nat.le_refl _⟩
  · cases i
    case count =>
      refine ⟨fun k hk => ?_, Nat.le_succ _⟩
      simp only [Passes.counted, Option.some.injEq] at hk ⊢
      rcases hk with rfl | hk
      · exact Nat.le_refl _
      · exact Nat.le_succ_of_le (h k (.inr hk))
    case encode =>
      refine ⟨fun k hk => h k ?_, Nat.le_refl _⟩
      simp only [Passes.encoded, ite_eq_iff, reduceCtorEq, or_false, and_false, false_or] at hk
      exact hk.imp And.right fun h => .inl h.2
    case clr | close | compress | decompress => exact ⟨Passes.closed_done _, Nat.le_refl _⟩
    case build => exact ⟨fun k hk => h k (by simp at hk; exact .inl hk), Nat.le_refl _⟩
    case rtree => exact ⟨fun k hk => h k (by simp at hk; exact .inl hk), Nat.le_refl _⟩
    case gencode => exact ⟨fun k hk => h k (by simp at hk; tauto), Nat.le_refl _⟩
    all_goals exact ⟨h, Nat.le_refl _⟩

theorem encodesNow_iff {n : Nat} {s : State} :
    encodesNow n s = true ↔ ∃ w k, s.cmd = some w ∧ decode w = .ok .encode ∧ s.status.codeValid = true ∧
      s.status.oclosed = false ∧ s.passes.code = some k ∧ k ≤ n := by
  unfold encodesNow
  cases hw : s.cmd with
  | none => simp
  | some w =>
    rw [Option.map_some]
    cases hd : decode w with
    | error => simp [hd]
    | ok i =>
      cases hc : s.passes.code <;> cases i <;> simp [hd, and_assoc]

/-- R194: every end of a command clears BUSY and drops the word. -/
theorem finish_notbusy {op r t} (h : Res.finish op r = .next t) : t.status.busy = false ∧ t.cmd = none := by
  rcases Res.finish_eq_next h with ⟨s, rfl, rfl⟩ | ⟨e, s, rfl, rfl⟩ <;> exact ⟨rfl, rfl⟩

/-- The pseudocode of each command's rule. -/
def bodyOf : Instr → State → Res Unit
  | .nop => nopBody | .clr => clrBody | .rewind => rewindBody | .close => closeBody | .cntsym b => cntsymBody b
  | .count => countBody | .build => buildBody | .wmagic => wmagicBody | .wtree => wtreeBody | .rmagic => rmagicBody
  | .rtree => rtreeBody | .gencode => gencodeBody | .encsym a => encsymArgBody a | .encode => encodeBody
  | .decsym => decsymBody | .decode => decodeBody | .compress => compressBody | .decompress => decompressBody

/-- A meaning is its pseudocode and then completion under its own opcode. -/
theorem exec_eq (i : Instr) (s : State) : exec i s = (bodyOf i s).finish (opcode i) := by
  cases i <;> rfl

end Sys2Proof.Machine
end

