-- ==== Sys2Proof/Laws/Invariant.lean ====
section
/-! SUPPORT. Every update and every command's pseudocode keeps the machine's invariant, and no command runs out of a loop's bound. -/

namespace Sys2Proof.Machine

/-- Channel calls do not touch what the invariant speaks of. -/
theorem inv_calls {s : State} (h : s.Inv) (k : Nat) : (s.afterCalls k).Inv := { h with }

theorem inv_seek {s : State} (h : s.Inv) (c : Nat) (hc : c ≤ s.inBits.length) : (s.seekIn c).Inv :=
  { h with cursor := hc, inpos := rfl }

theorem inv_append {s : State} (h : s.Inv) (bs : Bits) (ho : s.status.oclosed = false) : (s.appendOut bs).Inv :=
  { h with
    closed := fun hc => absurd hc (by show ¬ s.status.oclosed = true; simp [ho])
    outpos := fun _ => by
      show s.outpos + _ = BitVec.ofNat 32 (s.outBits ++ bs).length
      rw [h.outpos ho, List.length_append, BitVec.ofNat_add] }

theorem padBits_length (s : State) : s.padBits.length = padLength s.outBits.length := by
  unfold State.padBits padLength; simp; omega

theorem inv_close {s : State} (h : s.Inv) (ho : s.status.oclosed = false) : (s.closeOut).Inv :=
  { h with
    closed := fun _ => by
      show (s.outBits ++ s.padBits).length % 8 = 0
      rw [List.length_append, padBits_length, padLength]; omega
    outpos := fun hc => by simp at hc }

/-- The invariant is kept by reads of IN (R53). -/
theorem keptIn : KeptByIn State.Inv := ⟨fun t ht => inv_calls ht 1, fun t c ht hc => inv_seek ht c hc⟩

/-- The invariant is kept by writes to an open OUT (R56). -/
theorem keptOut : KeptByOut State.Inv := ⟨fun t ht => inv_calls ht 1, fun t bs ht ho => inv_append ht bs ho⟩

theorem inv_freq {s : State} (h : s.Inv) (b : Byte) (v : Nat) (hv : v ≤ s.params.cntMax) : (s.setFreq b v).Inv :=
  { h with freqOk := fun c => by rw [State.freqAt_setFreq]; split; exacts [hv, h.freqOk c] }

/-- R22: a count below `CNT_MAX` may go up by one. -/
theorem inv_count {s : State} (h : s.Inv) (b : Byte) (hne : s.freqAt b ≠ s.params.cntMax) : (s.setFreq b (s.freqAt b + 1)).Inv :=
  inv_freq h b _ (by have := h.freqOk b; omega)

theorem inv_clearFreq {s : State} (h : s.Inv) : s.clearFreq.Inv :=
  { h with freqOk := fun b => by simp [State.freqAt] }

theorem inv_dropCode {s : State} (h : s.Inv) : s.dropCode.Inv :=
  { h with codeOk := fun hc => by simp at hc, codeNone := fun _ => rfl }

theorem toNat_leaves {t : Tree} (ht : TreeInv t) : (BitVec.ofNat 10 t.leaves).toNat = t.leaves := by
  have := ht.leaves; simp; omega

theorem inv_storeTree {s : State} (h : s.Inv) {t : Tree} (ht : TreeInv t) (hc : s.status.codeValid = false) : (s.storeTree t).Inv :=
  { h with
    treeValid := rfl
    treeOk := fun u hu => by obtain rfl := Option.some.inj hu; exact ht
    nleaf := toNat_leaves ht
    codeOk := fun hv => absurd hv (by show ¬ s.status.codeValid = true; simp [hc]) }

/-- R26: a stored tree with no code table. -/
theorem inv_build {s : State} (h : s.Inv) {t : Tree} (ht : TreeInv t) : ((s.storeTree t).dropCode).Inv :=
  inv_storeTree (inv_dropCode h) ht rfl

theorem inv_dropTree {s : State} (h : s.Inv) : (s.dropTree.dropCode).Inv :=
  { h with
    treeValid := rfl
    treeOk := fun u hu => by simp at hu
    nleaf := rfl
    codeOk := fun hv => by simp at hv
    codeNone := fun _ => rfl }

theorem inv_setDState {s : State} (h : s.Inv) (d) : (s.setDState d).Inv := { h with }

theorem inv_setEos {s : State} (h : s.Inv) (b) : (s.setEos b).Inv := { h with }

theorem inv_setResult {s : State} (h : s.Inv) (x) : (s.setResult x).Inv :=
  { h with resultOk := by have := x.isLt; simp; omega }

theorem inv_storeCode {s : State} (h : s.Inv) {t} (ht : s.tree = some t) : (s.storeCode (genTable t)).Inv :=
  { h with codeOk := fun _ => ⟨t, ht, rfl⟩, codeNone := fun hv => by simp at hv }

/-- R25: a built tree is a storable one. -/
theorem treeInv_build {f t} (h : buildTree f = some t) : TreeInv t := by
  obtain ⟨u, hu, hi, -⟩ := buildTree_spec f
  rw [hu] at h; cases h; exact hi

theorem rtreeBody_inv {s : State} (h : s.Inv) : (rtreeBody s).Ends State.Inv := by
  refine rtreeBody_ends (Q := fun t => t.Inv ∧ t.status.codeValid = false)
    ⟨fun t ht => ⟨inv_calls ht.1 1, ht.2⟩, fun t c ht hc => ⟨inv_seek ht.1 c hc, ht.2⟩⟩ ⟨inv_dropTree (inv_setDState h _), rfl⟩ ?_ (fun t ht => ht.1)
  intro t tr ht htr
  exact inv_setDState (inv_storeTree ht.1 htr ht.2) _

theorem countBody_inv {s : State} (h : s.Inv) : (countBody s).Ends State.Inv :=
  countLoop_ends keptIn (fun _ b ht hne => inv_count ht b hne) _ h

theorem buildBody_inv {s : State} (h : s.Inv) : (buildBody s).Ends State.Inv :=
  buildBody_ends h fun _ _ ht hb => inv_build ht (treeInv_build hb)

theorem closeBody_inv {s : State} (h : s.Inv) : (closeBody s).Ends State.Inv :=
  closeBody_ends (fun _ ht => inv_calls ht 1) (fun _ ht ho => inv_close ht ho) h

theorem gencodeBody_inv {s : State} (h : s.Inv) : (gencodeBody s).Ends State.Inv :=
  gencodeBody_ends h fun _ ht => inv_storeCode h ht

theorem rmagicBody_inv {s : State} (h : s.Inv) : (rmagicBody s).Ends State.Inv :=
  rmagicBody_ends keptIn (fun _ d ht => inv_setDState ht d) h

theorem decodeBody_inv {s : State} (h : s.Inv) : (decodeBody s).Ends State.Inv :=
  decodeBody_ends keptIn keptOut (fun _ ht => inv_setDState (inv_setEos ht _) _) (fun _ ht => inv_setDState (inv_setEos ht _) _) (fun _ x ht => inv_setResult ht x) h

/-- The pseudocode of every command keeps the invariant, on success and on `raise`. -/
theorem body_inv (i : Instr) {s : State} (h : s.Inv) : (bodyOf i s).Ends State.Inv := by
  cases i with
  | nop => exact h
  | clr => exact { inv_dropTree (inv_clearFreq h) with resultOk := by simp [Res.Ends], errCode := rfl, errOp := fun _ => rfl, errPending := fun hv => by simp [clrBody] at hv }
  | rewind => exact rewindBody_ends keptIn h
  | close => exact closeBody_inv h
  | cntsym b => exact cntsymBody_ends h (fun _ b ht hne => inv_count ht b hne) b
  | count => exact countBody_inv h
  | build => exact buildBody_inv h
  | wmagic => exact wmagicBody_ends keptOut h
  | wtree => exact wtreeBody_ends keptOut h
  | rmagic => exact rmagicBody_inv h
  | rtree => exact rtreeBody_inv h
  | gencode => exact gencodeBody_inv h
  | encsym a => exact encsymArgBody_ends keptOut a h
  | encode => exact encodeBody_ends keptIn keptOut h
  | decsym => exact decsymBody_ends keptIn (fun _ ht => inv_setDState (inv_setEos ht _) _) (fun _ ht => inv_setDState (inv_setEos ht _) _) (fun _ x ht => inv_setResult ht x) h
  | decode => exact decodeBody_inv h
  | compress =>
    exact ((((((((countBody_inv (inv_clearFreq h)).then fun _ => buildBody_inv).then fun _ ht => rewindBody_ends keptIn ht).then
      fun _ ht => wmagicBody_ends keptOut ht).then fun _ ht => wtreeBody_ends keptOut ht).then fun _ => gencodeBody_inv).then
      fun _ ht => encodeBody_ends keptIn keptOut ht).then fun _ ht => encsymBody_ends keptOut _ ht).then fun _ => closeBody_inv
  | decompress =>
    exact (((rmagicBody_inv (inv_setEos h _)).then fun _ => rtreeBody_inv).then fun _ => decodeBody_inv).then fun _ => closeBody_inv

theorem inv_done {s : State} (h : s.Inv) : s.done.Inv := { h with busy := rfl, errPending := fun _ w hw => by simp [State.done] at hw }

theorem inv_failed {s : State} (h : s.Inv) (op e) : (s.failed op e).Inv :=
  { h with busy := rfl, errCode := rfl, errOp := fun hv => by simp [State.failed] at hv, errPending := fun _ w hw => by simp [State.failed] at hw }

/-- Completion and error entry keep it too. -/
theorem finish_inv {r : Res Unit} {op t} (h : r.Ends State.Inv) (ht : r.finish op = .next t) : t.Inv := by
  rcases Res.finish_eq_next ht with ⟨s, rfl, rfl⟩ | ⟨e, s, rfl, rfl⟩
  · exact inv_done h
  · exact inv_failed h _ _

theorem inv_script {s : State} (h : s.Inv) (l) : ({ s with script := l } : State).Inv := { h with }

/-- R219: no loop bound runs out in a state of the invariant. -/
theorem body_ne_stuck (i : Instr) {s : State} (h : s.Inv) : bodyOf i s ≠ .stuck := by
  have hd : ∀ s : State, s.Inv → decodeBody s ≠ .stuck := fun s h =>
    withTree_ne_stuck fun t ht => raiseIf_ne_stuck fun _ =>
      decodeLoop_ne_stuck (h.treeOk t ht).root _ _ (by show s.inLeft < _; omega)
  have hbld : ∀ s : State, buildBody s ≠ .stuck := by
    intro s; obtain ⟨t, ht, -⟩ := buildTree_spec s.freq
    simp [buildBody, ht]
  have hrew : ∀ s, rewindBody s ≠ .stuck := by
    intro s; unfold rewindBody inRewind; rw [State.takeAnswer_eq]; cases s.answers.headD .ok <;> simp
  have hclose : ∀ s, closeBody s ≠ .stuck := by
    intro s; refine raiseIf_ne_stuck fun _ => ?_
    simp only [outClose]; rw [State.takeAnswer_eq]; cases s.answers.headD .ok <;> simp
  have hwm : ∀ s, wmagicBody s ≠ .stuck := fun s => raiseIf_ne_stuck fun _ => writeOr_ne_stuck _ _ _
  have hwt : ∀ s, wtreeBody s ≠ .stuck := fun s => withTree_ne_stuck fun t _ => raiseIf_ne_stuck fun _ => emitTree_ne_stuck _ _
  have hgen : ∀ s, gencodeBody s ≠ .stuck := fun s => withTree_ne_stuck fun t _ => by simp
  have hwe : ∀ s (k : State → Res Unit), (s.status.codeValid = true → k s ≠ .stuck) → withEncoder s k ≠ .stuck := fun s k hk =>
    raiseIf_ne_stuck (k := fun s => raiseIf s.status.oclosed .outClosed s k) fun hv => raiseIf_ne_stuck fun _ => hk (by simpa using hv)
  have henc : ∀ x s, encsymBody x s ≠ .stuck := fun x s => hwe _ _ fun _ => writeCode_ne_stuck _ _
  have hencode : ∀ s, encodeBody s ≠ .stuck := fun s => hwe _ _ fun _ => encodeLoop_ne_stuck _ _ (by omega)
  have hrm : ∀ s, rmagicBody s ≠ .stuck := fun s =>
    Res.bind_ne_stuck (readOr_ne_stuck _ _ _) fun v t _ => raiseIf_ne_stuck fun _ => by simp
  have hrt : ∀ s, rtreeBody s ≠ .stuck := fun s =>
    Res.bind_ne_stuck (readTree_ne_stuck _ _ _) fun v t _ => raiseIf_ne_stuck fun _ => by simp
  have hcount : ∀ s, countBody s ≠ .stuck := fun s => countLoop_ne_stuck _ _ (by omega)
  cases i with
  | nop => simp [bodyOf, nopBody]
  | clr => simp [bodyOf, clrBody]
  | rewind => exact hrew s
  | close => exact hclose s
  | cntsym b =>
    show cntsymBody b s ≠ .stuck
    exact raiseIf_ne_stuck fun _ => countUnit_ne_stuck _ _
  | count => exact hcount s
  | build => exact hbld s
  | wmagic => exact hwm s
  | wtree => exact hwt s
  | rmagic => exact hrm s
  | rtree => exact hrt s
  | gencode => exact hgen s
  | encsym a =>
    show encsymArgBody a s ≠ .stuck
    unfold encsymArgBody; split
    · exact henc _ _
    · simp
  | encode => exact hencode s
  | decsym =>
    show decsymBody s ≠ .stuck
    exact withTree_ne_stuck fun t _ => Res.bind_ne_stuck (walk_ne_stuck _ _) fun x u _ => by simp
  | decode => exact hd s h
  | compress =>
    exact Res.andThen_ne_stuck (Res.andThen_ne_stuck (Res.andThen_ne_stuck (Res.andThen_ne_stuck (Res.andThen_ne_stuck (Res.andThen_ne_stuck (Res.andThen_ne_stuck (Res.andThen_ne_stuck (hcount _) fun t _ => hbld t) fun t _ => hrew t) fun t _ => hwm t) fun t _ => hwt t) fun t _ => hgen t) fun t _ => hencode t) fun t _ => henc _ t) fun t _ => hclose t
  | decompress =>
    show Res.andThen _ _ ≠ _
    refine Res.andThen_ne_stuck (Res.andThen_ne_stuck (Res.andThen_ne_stuck (hrm _) fun t _ => hrt t) fun t ht => hd t ?_) fun t _ => hclose t
    have := (rmagicBody_inv (inv_setEos h false)).then fun _ => rtreeBody_inv
    rw [ht] at this
    exact this

end Sys2Proof.Machine
end

