-- ==== Sys2Proof/Laws/Bodies.lean ====
section
/-! SUPPORT. How each command's pseudocode ends where its conditions hold, with the state it leaves, and the two drivers from these. -/

namespace Sys2Proof.Machine

theorem sym_of {a : BitVec 9} (h : a.toNat < 257) : symbolOf a = some ⟨a.toNat, h⟩ := by simp [symbolOf, h]

theorem fail_head {s : State} (h : s.FailsAt 0) : s.answers.headD .ok = .fail := by
  have := h.2; cases hs : s.answers <;> simp_all

/-- The bits left are the whole units left and fewer than 8 more (R54, R101). -/
theorem count_split {s : State} (h : s.Inv) : ∃ tail : Bits, s.inRest = bytesToBits s.unitsLeft ++ tail ∧ tail.length < 8 := by
  obtain ⟨tail, h1, h2⟩ := bits_split s.inRest
  exact ⟨tail, h1, by omega⟩

theorem freq_addCounts (s : State) (us : List Byte) (b : Byte) : (s.addCounts us).freq[b.toNat]'b.isLt = s.freqAt b + us.count b :=
  State.freqAt_addCounts s us b

/-- The bound of the unit loops, by the units left. -/
theorem units_fuel {s : State} {us : List Byte} {post : List Byte} (h : s.unitsLeft = us ++ post) : s.inLeft / 8 + 1 = us.length + (post.length + 1) := by
  have := congrArg List.length h
  rw [State.unitsLeft, bitsToBytes_length, State.inRest_length, List.length_append] at this
  omega

theorem addCounts_status (s : State) (us) : (s.addCounts us).status = s.status := by rw [State.addCounts_frame]

/-- After counting, only FREQ, the cursor and the answers differ. -/
theorem finalCount (s : State) (us : List Byte) (k c : Nat) :
    ((s.addCounts us).afterCalls k).seekIn c = { s with freq := (s.addCounts us).freq, answers := s.answers.drop k, inCur := c, inpos := BitVec.ofNat 32 c } := by
  conv_lhs => rw [State.addCounts_frame]
  rfl

/-- RTREE ends where reading the tree raises. -/
theorem rtree_raise {s s' : State} {e} (h : readTree Config.nodeCap 0 ((s.setDState .readHeader).dropTree.dropCode) = .raise e s') :
   exec .rtree s = .next (s'.failed 0x33 e) := by
  rw [exec_eq]; simp only [bodyOf, rtreeBody, h, Res.bind_raise]; rfl

/-- R33. -/
theorem inv_tv {s : State} {t} (hi : s.Inv) (ht : s.tree = some t) : s.status.treeValid = true := by rw [hi.treeValid, ht]; rfl

theorem inLeft_of {s : State} {bs : Bits} (h : s.inRest = bs) : s.inLeft = bs.length := by rw [← State.inRest_length, h]

theorem flat_len {xs : List (Byte × Bits)} {t : Tree} (hne : ∀ a ∈ xs, a.2 ≠ []) : xs.length ≤ (xs.flatMap Prod.snd).length := by
  induction xs with
  | nil => simp
  | cons a xs ih =>
    have := ih fun b hb => hne b (by simp [hb])
    have := List.length_pos_iff.2 (hne a (by simp))
    simp only [List.flatMap_cons, List.length_append, List.length_cons]; omega

/-- under a valid tree, byte symbol's paths are non-empty -/
theorem path_ne_nil {t : Tree} (ht : t.degenerate = false) {b : Byte} {p : Bits} (h : (byteSymbol b, p) ∈ t.paths) : p ≠ [] := by
  rintro rfl
  cases t with
  | leaf y =>
    simp [Machine.Tree.paths] at h
    simp [Machine.Tree.degenerate] at ht
    exact byteSymbol_ne_sent b (h.trans ht)
  | node l r => simp [Machine.Tree.paths] at h

/-- The bytes of a list as symbols, with their paths. -/
def symsOf (xs : List (Byte × Bits)) : List (Symbol × Bits) := xs.map fun a => (byteSymbol a.1, a.2)

theorem symsOf_flat (xs) : (symsOf xs).flatMap Prod.snd = xs.flatMap Prod.snd := by simp [symsOf, List.flatMap_map]

theorem symsOf_len (xs) : (symsOf xs).length = xs.length := by simp [symsOf]

theorem symsOf_bytes (xs) : (symsOf xs).map (fun a => symbolByte a.1) = xs.map Prod.fst := by
  simp [symsOf, Function.comp_def, symbolByte_byteSymbol]

theorem symsOf_mem {xs : List (Byte × Bits)} {t : Tree} (h : ∀ a ∈ xs, (byteSymbol a.1, a.2) ∈ t.paths) : ∀ a ∈ symsOf xs, a ∈ t.paths ∧ a.1 ≠ Config.sent := by
  intro a ha; obtain ⟨b, hb, rfl⟩ := List.mem_map.1 ha; exact ⟨h b hb, byteSymbol_ne_sent _⟩

/-- R162 where the stream holds the paths of bytes and then of the sentinel. -/
theorem decodeBody_ok {s : State} {t : Tree} {xs : List (Byte × Bits)} {p rest : Bits} (hi : s.Inv) (ht : s.tree = some t)
    (ho : s.status.oclosed = false) (hxs : ∀ a ∈ xs, (byteSymbol a.1, a.2) ∈ t.paths) (hp : ((256 : Symbol), p) ∈ t.paths)
    (h : s.inRest = xs.flatMap Prod.snd ++ p ++ rest)
    (hok : s.OkFor ((xs.flatMap Prod.snd).length + xs.length + p.length)) :
    decodeBody s = .ok ()
      { s with outBits := s.outBits ++ bytesToBits (xs.map Prod.fst),
               outpos := s.outpos + BitVec.ofNat 32 (8 * xs.length), result := 256,
               inCur := s.inCur + (xs.flatMap Prod.snd ++ p).length,
               inpos := BitVec.ofNat 32 (s.inCur + (xs.flatMap Prod.snd ++ p).length),
               answers := s.answers.drop ((xs.flatMap Prod.snd).length + xs.length + p.length),
               status := { s.status with eos := true, dstate := .done } } := by
  rw [decodeBody, withTree_some (inv_tv hi ht) ht, raiseIf_of_false ho]
  have hlen := flat_len (t := t) (xs := xs) fun a ha => path_ne_nil (hi.treeOk t ht).root (hxs a ha)
  have hL := inLeft_of h
  obtain ⟨f, hf⟩ : ∃ f, s.inLeft + 1 = (symsOf xs).length + 1 + f := by
    rw [hL, symsOf_len]; simp only [List.length_append]; exact ⟨(xs.flatMap Prod.snd).length - xs.length + p.length + rest.length, by omega⟩
  rw [hf, decodeLoop_ok (s := s.startDecode) (xs := symsOf xs) (p := p) (rest := rest) (symsOf_mem hxs) hp (by rw [symsOf_flat, ← List.append_assoc]; exact h)
    (by rw [symsOf_flat, symsOf_len]; exact hok) hi.inpos]
  simp only [State.decoded, symsOf_flat, symsOf_len, symsOf_bytes]
  simp only [State.afterCalls, State.seekIn, State.setResult, State.endDecode, State.startDecode, State.setEos, State.setDState, List.drop_drop, List.length_append, Nat.add_assoc]
  rfl

/-- The codes of a built table, one after another, are paths of the tree (R92, R163). -/
theorem codesOf_split {t : Tree} {xs : List Byte} {codes : Bits} (h : codesOf (genTable t) (xs.map byteSymbol ++ [256]) = some codes) :
    ∃ (ps : List (Byte × Bits)) (p : Bits), ps.map Prod.fst = xs ∧ (∀ a ∈ ps, (byteSymbol a.1, a.2) ∈ t.paths) ∧ ((256:Symbol), p) ∈ t.paths ∧ codes = ps.flatMap Prod.snd ++ p := by
  induction xs generalizing codes with
  | nil =>
    simp only [List.map_nil, List.nil_append, codesOf] at h
    split at h
    · next bs r h1 h2 =>
      simp at h h2; subst h2 h
      rw [genTable_get] at h1
      exact ⟨[], bs, rfl, by simp, lastPath_mem h1, by simp⟩
    · simp at h
  | cons b xs ih =>
    simp only [List.map_cons, List.cons_append, codesOf] at h
    split at h
    · next bs r h1 h2 =>
      obtain ⟨ps, p, e1, e2, e3, e4⟩ := ih h2
      simp at h; subst h
      rw [genTable_get] at h1
      refine ⟨(b, bs) :: ps, p, by simp [e1], ?_, e3, by simp [e4]⟩
      intro a ha; rcases List.mem_cons.1 ha with rfl | ha
      · exact lastPath_mem h1
      · exact e2 a ha
    · simp at h

theorem decoded_syms (s : State) (xs : List (Byte × Bits)) : s.startDecode.decoded (symsOf xs) = s.bytesDecoded xs := by
  have hr : ((symsOf xs).getLast?.map fun a => BitVec.ofNat 9 a.1.val).getD s.result = (xs.getLast?.map fun a => a.1.setWidth 9).getD s.result := by
    rw [symsOf, List.getLast?_map, Option.map_map]
    congr 2; funext a; apply BitVec.eq_of_toNat_eq; simp [byteSymbol]
  simp only [State.decoded, State.bytesDecoded, symsOf_flat, symsOf_len, symsOf_bytes]
  rw [← hr]; rfl

theorem fuel_ex {s : State} {xs : List (Byte × Bits)} {rest : Bits} {t} (hi : s.Inv) (ht : s.tree = some t)
    (hxs : ∀ a ∈ xs, (byteSymbol a.1, a.2) ∈ t.paths) (h : s.inRest = xs.flatMap Prod.snd ++ rest) :
    ∃ f, s.inLeft + 1 = (symsOf xs).length + 1 + f := by
  have hlen := flat_len (t := t) (xs := xs) fun a ha => path_ne_nil (hi.treeOk t ht).root (hxs a ha)
  rw [inLeft_of h, symsOf_len, List.length_append]
  exact ⟨(xs.flatMap Prod.snd).length - xs.length + rest.length, by omega⟩

theorem failsAt_drop {s : State} {j k} (h : s.FailsAt (j + k)) : (s.afterCalls j).FailsAt k :=
  ⟨h.1.drop, by show (s.answers.drop j)[k]? = _; rw [List.getElem?_drop]; exact h.2⟩

/-- R101 where no counter overflows. -/
theorem countBody_ok {s : State} {us : List Byte} {tail : Bits} (h : s.inRest = bytesToBits us ++ tail) (ht : tail.length < 8)
    (hok : s.OkFor (us.length + 1)) (hfit : ∀ b, s.freqAt b + us.count b ≤ s.params.cntMax) (hi : s.inpos = BitVec.ofNat 32 s.inCur) :
    countBody s = .ok () (((s.addCounts us).afterCalls (us.length + 1)).seekIn (s.inCur + 8 * us.length)) := by
  have hf : s.inLeft / 8 + 1 = us.length + (0 + 1) := by
    rw [inLeft_of h, List.length_append, bytesToBits_length]; omega
  rw [countBody, hf, countLoop_units h (hok.mono (by omega)) hfit hi, countLoop_end]
  · rw [State.seekIn_afterCalls, State.afterCalls_afterCalls]
  · rw [finalCount]; exact State.OkFor.congr (s := s.afterCalls _) hok.drop rfl
  · have := congrArg List.length h
    rw [State.inRest_length, List.length_append, bytesToBits_length, State.inLeft] at this
    rw [finalCount]; show s.inBits.length - (s.inCur + _) < 8
    omega

/-- R110. -/
theorem buildBody_ok {s : State} {t} (h : buildTree s.freq = some t) : buildBody s = .ok () (s.storeTree t).dropCode := by simp [buildBody, h]

/-- R182. -/
theorem rewindBody_ok {s : State} (h : s.OkFor 1) : rewindBody s = .ok () ((s.afterCalls 1).seekIn 0) := by
  simp only [rewindBody, inRewind, State.takeAnswer_eq]; rw [State.OkFor.head (k := 0) h]

/-- R120. -/
theorem wmagicBody_ok {s : State} (ho : s.status.oclosed = false) (h : s.OkFor 1) :
    wmagicBody s = .ok () ((s.afterCalls 1).appendOut (msbf 32 s.params.magic.toNat)) := by
  rw [wmagicBody, raiseIf_of_false ho, writeOr_ok (State.OkFor.head (k := 0) h)]

/-- R121. -/
theorem wtreeBody_ok {s : State} {t : Tree} (hv : s.status.treeValid = true) (ht : s.tree = some t) (ho : s.status.oclosed = false)
    (h : s.OkFor (t.nodes + t.leaves)) : wtreeBody s = .ok () ((s.afterCalls (t.nodes + t.leaves)).appendOut (ser t)) := by
  rw [wtreeBody, withTree_some hv ht, raiseIf_of_false ho, emitTree_ok h]

/-- R140. -/
theorem gencodeBody_ok {s : State} {t : Tree} (hv : s.status.treeValid = true) (ht : s.tree = some t) :
    gencodeBody s = .ok () (s.storeCode (genTable t)) := by rw [gencodeBody, withTree_some hv ht]

theorem withEncoder_ok {s : State} {k} (hv : s.status.codeValid = true) (ho : s.status.oclosed = false) : withEncoder s k = k s := by
  rw [withEncoder, raiseIf_of_false (by simp [hv]), raiseIf_of_false ho]

/-- R151 where every byte has a code. -/
theorem encodeBody_ok {s : State} {us : List Byte} {tail bs : Bits} (hv : s.status.codeValid = true) (ho : s.status.oclosed = false)
    (h : s.inRest = bytesToBits us ++ tail) (ht : tail.length < 8) (hc : codesOf s.code (us.map byteSymbol) = some bs)
    (hok : s.OkFor (us.length + bs.length + 1)) (hi : s.inpos = BitVec.ofNat 32 s.inCur) :
    encodeBody s = .ok () (((s.afterCalls (us.length + bs.length + 1)).appendOut bs).seekIn (s.inCur + 8 * us.length)) := by
  have hf : s.inLeft / 8 + 1 = us.length + (0 + 1) := by
    rw [inLeft_of h, List.length_append, bytesToBits_length]; omega
  rw [encodeBody, withEncoder_ok hv ho, hf, encodeLoop_units h hc (hok.mono (by omega)) hi, encodeLoop_end]
  · rw [State.seekIn_afterCalls, State.afterCalls_appendOut, State.afterCalls_afterCalls]
  · exact State.OkFor.congr (s := s.afterCalls _) hok.drop rfl
  · have := congrArg List.length h
    rw [State.inRest_length, List.length_append, bytesToBits_length, State.inLeft] at this
    show s.inBits.length - (s.inCur + _) < 8
    omega

/-- R150. -/
theorem encsymBody_ok {s : State} {x : Symbol} {bs : Bits} (hv : s.status.codeValid = true) (ho : s.status.oclosed = false)
    (hc : s.codeAt x = some bs) (hok : s.OkFor bs.length) : encsymBody x s = .ok () ((s.afterCalls bs.length).appendOut bs) := by
  rw [encsymBody, withEncoder_ok hv ho, writeCode_ok hc hok]

/-- R183. -/
theorem closeBody_ok {s : State} (ho : s.status.oclosed = false) (h : s.OkFor 1) : closeBody s = .ok () (s.afterCalls 1).closeOut := by
  rw [closeBody, raiseIf_of_false ho]; simp only [outClose, State.takeAnswer_eq]; rw [State.OkFor.head (k := 0) h]

theorem codesOf_append {c : CodeTable} {xs ys : List Symbol} {bs : Bits} (h : codesOf c (xs ++ ys) = some bs) :
    ∃ b1 b2, codesOf c xs = some b1 ∧ codesOf c ys = some b2 ∧ bs = b1 ++ b2 := by
  induction xs generalizing bs with
  | nil => exact ⟨[], bs, rfl, h, rfl⟩
  | cons x xs ih =>
    simp only [List.cons_append, codesOf] at h ⊢
    split at h
    · next p r h1 h2 =>
      obtain ⟨b1, b2, e1, e2, rfl⟩ := ih h2
      simp at h; subst h
      exact ⟨p ++ b1, b2, by rw [h1, e1], e2, by simp⟩
    · simp at h

theorem codesOf_some {c : CodeTable} {xs : List Symbol} (h : ∀ x ∈ xs, (c.get x).isSome) : ∃ bs, codesOf c xs = some bs := by
  induction xs with
  | nil => exact ⟨[], rfl⟩
  | cons x xs ih =>
    obtain ⟨b, hb⟩ := Option.isSome_iff_exists.1 (h x (by simp))
    obtain ⟨r, hr⟩ := ih fun y hy => h y (by simp [hy])
    exact ⟨b ++ r, by simp [codesOf, hb, hr]⟩

theorem reliable_congr {s t : State} (h : s.Reliable) (k) (e : t.answers = s.answers.drop k) : t.Reliable := by
  intro a ha; rw [e] at ha; exact h a (List.mem_of_mem_drop ha)

/-- Every symbol of the tree has a code (R140). -/
theorem genTable_isSome {t : Tree} {x} (h : x ∈ t.symbols) : ((genTable t).get x).isSome := by
  rw [Machine.Tree.symbols_eq_paths] at h
  rw [genTable_get]
  obtain ⟨sp, hsp, rfl⟩ := List.mem_map.1 h
  unfold lastPath
  cases hl : (t.paths.filter fun q => q.1 = sp.1).getLast? with
  | some => rfl
  | none =>
    rw [List.getLast?_eq_none_iff, List.filter_eq_nil_iff] at hl
    exact absurd (decide_eq_true rfl) (hl sp hsp)

/-- R170, all nine sub-steps. -/
theorem compressBody_ok {s : State} (hi : s.Inv) (hr : s.Reliable) (h0 : s.inCur = 0) (ho : s.status.oclosed = false)
    (hfit : ∀ b, s.unitsLeft.count b ≤ s.params.cntMax) :
    ∃ (f : Vector Nat 256) (tr : Tree) (codes : Bits) (k : Nat) (S : State), (∀ b : Byte, f[b.toNat]'b.isLt = s.unitsLeft.count b) ∧ buildTree f = some tr ∧
      codesOf (genTable tr) (s.unitsLeft.map byteSymbol ++ [256]) = some codes ∧
      compressBody s = .ok () S.closeOut ∧ S = (
                 { s with
                   freq := f, tree := some tr, nleaf := BitVec.ofNat 10 tr.leaves, code := genTable tr,
                   inCur := s.inBits.length, inpos := BitVec.ofNat 32 s.inBits.length,
                   outBits := s.outBits ++ (msbf 32 s.params.magic.toNat ++ ser tr ++ codes),
                   outpos := s.outpos + BitVec.ofNat 32 (32 + (ser tr).length + codes.length),
                   answers := s.answers.drop k,
                   status := { s.status with treeValid := true, codeValid := true } }) := by
  have hin : s.inRest = s.inBits := by unfold State.inRest; rw [h0]; rfl
  have hu : s.inBits = bytesToBits s.unitsLeft := by unfold State.unitsLeft; rw [hin, bytesToBits_bitsToBytes _ hi.wholeBytes]
  have hul : 8 * s.unitsLeft.length = s.inBits.length := by conv_rhs => rw [hu]; simp
  generalize hus : s.unitsLeft = us at *
  have hc : countBody s.clearFreq = .ok () (((s.clearFreq.addCounts us).afterCalls (us.length + 1)).seekIn (s.inCur + 8 * us.length)) :=
    countBody_ok (tail := []) (by rw [List.append_nil, ← hu]; exact hin) (by simp) (hr.okFor _) (fun b => by
      have : s.clearFreq.freqAt b = 0 := by simp [State.freqAt]
      rw [this, Nat.zero_add]; exact hfit b) hi.inpos
  rw [finalCount, h0, Nat.zero_add, hul] at hc
  have hf : ∀ b : Byte, (s.clearFreq.addCounts us).freq[b.toNat]'b.isLt = us.count b := fun b => by
    rw [freq_addCounts]; simp [State.freqAt]
  generalize (s.clearFreq.addCounts us).freq = f at *
  obtain ⟨tr, hb, -, -, -, hsym⟩ := buildTree_spec f
  have hall : ∀ x ∈ us.map byteSymbol ++ [(256 : Symbol)], ((genTable tr).get x).isSome := by
    intro x hx
    apply genTable_isSome
    rw [hsym]
    rcases List.mem_append.1 hx with hx | hx
    · obtain ⟨b, hb, rfl⟩ := List.mem_map.1 hx
      exact .inr ⟨b, rfl, by rw [hf]; exact List.count_pos_iff.2 hb⟩
    · exact .inl (List.mem_singleton.1 hx)
  obtain ⟨codes, hcodes⟩ := codesOf_some hall
  obtain ⟨c1, c2, e1, e2, rfl⟩ := codesOf_append hcodes
  have e2' : (genTable tr).get Config.sent = some c2 := by
    simp only [codesOf] at e2; split at e2
    · next h1 h2 => simp at h2; subst h2; simp at e2; subst e2; exact h1
    · simp at e2
  refine ⟨f, tr, c1 ++ c2, us.length + 1 + 1 + 1 + (tr.nodes + tr.leaves) + (us.length + c1.length + 1) + c2.length + 1, _, hf, hb, hcodes, ?_, rfl⟩
  rw [compressBody, hc, Res.andThen_ok, buildBody_ok (by exact hb), Res.andThen_ok,
    rewindBody_ok (by exact (reliable_congr hr _ rfl).okFor _), Res.andThen_ok,
    wmagicBody_ok (by exact ho) (by exact (reliable_congr hr (us.length + 1 + 1) (by simp [List.drop_drop])).okFor _), Res.andThen_ok,
    wtreeBody_ok (t := tr) rfl rfl (by exact ho) (by exact (reliable_congr hr (us.length + 1 + 1 + 1) (by simp [List.drop_drop])).okFor _), Res.andThen_ok,
    gencodeBody_ok (t := tr) rfl rfl, Res.andThen_ok,
    encodeBody_ok (us := us) (tail := []) (bs := c1) rfl (by exact ho) (by rw [List.append_nil, ← hu]; rfl) (by simp) (by exact e1)
      (by exact (reliable_congr hr (us.length + 1 + 1 + 1 + (tr.nodes + tr.leaves)) (by simp [List.drop_drop])).okFor _) rfl, Res.andThen_ok,
    encsymBody_ok (bs := c2) rfl (by exact ho) (by exact e2')
      (by exact (reliable_congr hr (us.length + 1 + 1 + 1 + (tr.nodes + tr.leaves) + (us.length + c1.length + 1)) (by simp [List.drop_drop])).okFor _), Res.andThen_ok,
    closeBody_ok (by exact ho)
      (by exact (reliable_congr hr (us.length + 1 + 1 + 1 + (tr.nodes + tr.leaves) + (us.length + c1.length + 1) + c2.length) (by simp [List.drop_drop])).okFor _)]
  congr 2
  simp only [State.afterCalls, State.appendOut, State.seekIn, State.storeTree, State.dropCode, State.storeCode, State.clearFreq, List.drop_drop, hul,
    Nat.zero_add, List.length_append, msbf_length, List.append_assoc, BitVec.add_assoc, ← BitVec.ofNat_add, Nat.add_assoc, State.mk.injEq, true_and, and_true]

/-- R125 on the magic word. -/
theorem rmagicBody_ok {s : State} {rest : Bits} (h : s.inRest = msbf 32 s.params.magic.toNat ++ rest) (hok : s.OkFor 1) :
    rmagicBody s = .ok () ((((s.setDState .expectMagic).afterCalls 1).seekIn (s.inCur + 32)).setDState .readHeader) := by
  rw [rmagicBody, readOr_ok (s := s.setDState .expectMagic) (bs := msbf 32 s.params.magic.toNat) (State.OkFor.head (k := 0) hok) h (msbf_length _ _) (by omega), Res.bind_ok, bitsVal_ofNat_msbf]
  rw [raiseIf_neg (by simp)]; rfl

/-- R130 on a header. -/
theorem rtreeBody_ok {s : State} {t : Tree} {rest : Bits} (ht : TreeInv t) (h : s.inRest = ser t ++ rest) (hok : s.OkFor (t.nodes + t.leaves)) :
    rtreeBody s = .ok () ((((((s.setDState .readHeader).dropTree.dropCode).afterCalls (t.nodes + t.leaves)).seekIn (s.inCur + (ser t).length)).storeTree t).setDState .decode) := by
  rw [rtreeBody, readTree_ser (s := (s.setDState .readHeader).dropTree.dropCode) (rest := rest) hok h (by decide) (by have := ht.cap; omega), Res.bind_ok, raiseIf_of_false ht.root]; rfl

/-- The magic word and the header, as DECOMPRESS reads them. -/
theorem header_ok {s : State} {t : Tree} {rest : Bits} (hi : s.Inv) (hr : s.Reliable) (ht : TreeInv t)
    (h : s.inRest = msbf 32 s.params.magic.toNat ++ (ser t ++ rest)) :
    ∃ k S, (rmagicBody (s.setEos false)).andThen rtreeBody = .ok () S ∧ S.Inv ∧ S.inRest = rest ∧
      S = { s with tree := some t, nleaf := BitVec.ofNat 10 t.leaves, code := Vector.replicate 257 none,
                   inCur := s.inCur + (32 + (ser t).length), inpos := BitVec.ofNat 32 (s.inCur + (32 + (ser t).length)),
                   answers := s.answers.drop k,
                   status := { s.status with treeValid := true, codeValid := false, eos := false, dstate := .decode } } := by
  have hm := rmagicBody_ok (s := s.setEos false) h (hr.okFor _)
  have hinv1 := rmagicBody_inv (inv_setEos hi false)
  rw [hm, Res.ends_ok] at hinv1
  have h2 := State.inRest_after (s := s) h (msbf_length _ _)
  obtain ⟨S1, hS1⟩ : ∃ S1, S1 = State.setDState ((((s.setEos false).setDState .expectMagic).afterCalls 1).seekIn ((s.setEos false).inCur + 32)) .readHeader := ⟨_, rfl⟩
  rw [← hS1] at hm hinv1
  have hr1 : S1.Reliable := reliable_congr hr 1 (by rw [hS1]; rfl)
  have h2 : S1.inRest = ser t ++ rest := by rw [← h2, hS1]; rfl
  have htree := rtreeBody_ok ht h2 (hr1.okFor _)
  have hinv2 := rtreeBody_inv hinv1
  rw [htree, Res.ends_ok] at hinv2
  have h3 := State.inRest_after h2 rfl
  refine ⟨1 + (t.nodes + t.leaves), _, by rw [hm, Res.andThen_ok, htree], hinv2, h3, ?_⟩
  rw [hS1]
  simp only [State.afterCalls, State.seekIn, State.storeTree, State.dropCode, State.dropTree, State.setDState, State.setEos, List.drop_drop, Nat.add_assoc]

/-- R171, all four sub-steps. -/
theorem decompressBody_ok {s : State} {t : Tree} {xs : List (Byte × Bits)} {p rest : Bits} (hi : s.Inv) (hr : s.Reliable)
    (ho : s.status.oclosed = false) (ho8 : s.outBits.length % 8 = 0) (ht : TreeInv t)
    (hxs : ∀ a ∈ xs, (byteSymbol a.1, a.2) ∈ t.paths) (hp : ((256 : Symbol), p) ∈ t.paths)
    (h : s.inRest = msbf 32 s.params.magic.toNat ++ ser t ++ xs.flatMap Prod.snd ++ p ++ rest) :
    ∃ k, decompressBody s = .ok ()
      { s with
        tree := some t, nleaf := BitVec.ofNat 10 t.leaves, code := Vector.replicate 257 none, result := 256
        inCur := s.inBits.length - rest.length, inpos := BitVec.ofNat 32 (s.inBits.length - rest.length)
        outBits := s.outBits ++ bytesToBits (xs.map Prod.fst)
        outpos := s.outpos + BitVec.ofNat 32 (8 * xs.length), draws := s.draws + 1, answers := s.answers.drop k
        status := { s.status with treeValid := true, codeValid := false, eos := true, oclosed := true, dstate := .done } } := by
  obtain ⟨k, S, h1, hSi, hSr, hS⟩ := header_ok (rest := xs.flatMap Prod.snd ++ p ++ rest) hi hr ht (by rw [h]; simp only [List.append_assoc])
  have hSrel : S.Reliable := reliable_congr hr k (by rw [hS])
  have hcur : s.inCur + (32 + (ser t).length + (xs.flatMap Prod.snd ++ p).length) = s.inBits.length - rest.length := by
    have e := inLeft_of h
    have hc := hi.cursor
    simp only [State.inLeft, List.length_append, msbf_length] at e ⊢
    omega
  have hd := decodeBody_ok hSi (by rw [hS]) (by rw [hS]; exact ho) hxs hp hSr (hSrel.okFor _)
  refine ⟨k + ((xs.flatMap Prod.snd).length + xs.length + p.length) + 1, ?_⟩
  obtain ⟨T, hT⟩ : ∃ T : State, T =
      { S with
               outBits := S.outBits ++ bytesToBits (xs.map Prod.fst),
               outpos := S.outpos + BitVec.ofNat 32 (8 * xs.length), result := 256,
               inCur := S.inCur + (xs.flatMap Prod.snd ++ p).length,
               inpos := BitVec.ofNat 32 (S.inCur + (xs.flatMap Prod.snd ++ p).length),
               answers := S.answers.drop ((xs.flatMap Prod.snd).length + xs.length + p.length),
               status := { S.status with eos := true, dstate := .done } } := ⟨_, rfl⟩
  rw [← hT] at hd
  have hTr : T.Reliable := reliable_congr hSrel _ (by rw [hT])
  rw [decompressBody, h1, Res.andThen_ok, hd, Res.andThen_ok,
    closeBody_ok (by rw [hT, hS]; exact ho) (hTr.okFor _)]
  have hpad : ∀ u : State, u.outBits.length % 8 = 0 → u.closeOut = { u with draws := u.draws + 1, status := { u.status with oclosed := true } } := by
    intro u hu
    have : u.padBits = [] := List.eq_nil_of_length_eq_zero (by rw [padBits_length, padLength, hu])
    simp only [State.closeOut, this, List.append_nil]
  rw [hpad _ (by show T.outBits.length % 8 = 0; rw [hT, hS]; show (s.outBits ++ _).length % 8 = 0; rw [List.length_append, bytesToBits_length]; omega)]
  rw [hT, hS]
  simp only [Nat.add_assoc] at hcur
  simp only [State.afterCalls, List.drop_drop, hcur, Nat.add_assoc, State.mk.injEq, true_and, and_true]

end Sys2Proof.Machine
end

