-- ==== Sys2Proof/Laws/Effects.lean ====
section
/-! SUPPORT. Frames of whole commands, and which error each piece of pseudocode can end in. -/

namespace Sys2Proof.Machine

/-- a property kept by everything -/
structure Kept (P : State → Prop) : Prop where
  calls : ∀ t k, P t → P (t.afterCalls k)
  seek : ∀ t c, P t → P (t.seekIn c)
  app : ∀ t bs, P t → t.status.oclosed = false → P (t.appendOut bs)
  close : ∀ t, P t → t.status.oclosed = false → P t.closeOut
  freq : ∀ t b v, P t → P (t.setFreq b v)
  clearF : ∀ t, P t → P t.clearFreq
  store : ∀ t tr, P t → P (t.storeTree tr)
  dropT : ∀ t, P t → P t.dropTree
  storeC : ∀ t c, P t → P (t.storeCode c)
  dropC : ∀ t, P t → P t.dropCode
  eos : ∀ t b, P t → P (t.setEos b)
  dst : ∀ t d, P t → P (t.setDState d)
  res : ∀ t x, P t → P (t.setResult x)

/-- A property kept by the updates holds where the command ends. -/
theorem Kept.body {P} (h : Kept P) (i : Instr) (hi : i ≠ .clr) {s : State} (hs : P s) : (bodyOf i s).Ends P := by
  have kin : KeptByIn P := ⟨fun t ht => h.calls t 1 ht, fun t c ht _ => h.seek t c ht⟩
  have kout : KeptByOut P := ⟨fun t ht => h.calls t 1 ht, fun t bs ht ho => h.app t bs ht ho⟩
  have hcount : ∀ s, P s → (countBody s).Ends P := fun s hs => countLoop_ends kin (fun t b ht _ => h.freq t b _ ht) _ hs
  have hbuild : ∀ s, P s → (buildBody s).Ends P := fun s hs => buildBody_ends hs fun t tr ht _ => h.dropC _ (h.store _ _ ht)
  have hclose : ∀ s, P s → (closeBody s).Ends P := fun s hs => closeBody_ends (fun t ht => h.calls t 1 ht) (fun t ht ho => h.close t ht ho) hs
  have hgen : ∀ s, P s → (gencodeBody s).Ends P := fun s hs => gencodeBody_ends hs fun t _ => h.storeC _ _ hs
  have hrm : ∀ s, P s → (rmagicBody s).Ends P := fun s hs => rmagicBody_ends kin (fun t d ht => h.dst t d ht) hs
  have hrt : ∀ s, P s → (rtreeBody s).Ends P := fun s hs => rtreeBody_ends kin (h.dropC _ (h.dropT _ (h.dst _ _ hs))) (fun t tr ht _ => h.dst _ _ (h.store _ _ ht)) fun t ht => ht
  have hst : ∀ t, P t → P t.startDecode := fun t ht => h.dst _ _ (h.eos _ _ ht)
  have hen : ∀ t, P t → P t.endDecode := fun t ht => h.dst _ _ (h.eos _ _ ht)
  have hdec : ∀ s, P s → (decodeBody s).Ends P := fun s hs => decodeBody_ends kin kout hst hen (fun t x ht => h.res t x ht) hs
  cases i with
  | nop => exact hs
  | clr => exact absurd rfl hi
  | rewind => exact rewindBody_ends kin hs
  | close => exact hclose s hs
  | cntsym b => exact cntsymBody_ends hs (fun t b ht _ => h.freq t b _ ht) b
  | count => exact hcount s hs
  | build => exact hbuild s hs
  | wmagic => exact wmagicBody_ends kout hs
  | wtree => exact wtreeBody_ends kout hs
  | rmagic => exact hrm s hs
  | rtree => exact hrt s hs
  | gencode => exact hgen s hs
  | encsym a => exact encsymArgBody_ends kout a hs
  | encode => exact encodeBody_ends kin kout hs
  | decsym => exact decsymBody_ends kin hst hen (fun t x ht => h.res t x ht) hs
  | decode => exact hdec s hs
  | compress =>
    exact ((((((((hcount _ (h.clearF _ hs)).then hbuild).then fun _ ht => rewindBody_ends kin ht).then
      fun _ ht => wmagicBody_ends kout ht).then fun _ ht => wtreeBody_ends kout ht).then hgen).then
      fun _ ht => encodeBody_ends kin kout ht).then fun _ ht => encsymBody_ends kout _ ht).then hclose
  | decompress =>
    exact (((hrm _ (h.eos _ _ hs)).then hrt).then hdec).then hclose

/-- The same of `exec`: the end is a completion or an error entry of a state with the property. -/
theorem exec_kept {P} (h : Kept P) (i : Instr) (hi : i ≠ .clr) {s t : State} (hs : P s) (ht : exec i s = .next t) :
    ∃ u, P u ∧ (t = u.done ∨ ∃ e, t = u.failed (opcode i) e) := by
  rw [exec_eq] at ht
  exact (h.body i hi hs).finish ht

/-- One projection kept by an instruction. -/
theorem finish_proj {α} (f : State → α) (hd : ∀ u, f u.done = f u) (hf : ∀ u op e, f (u.failed op e) = f u) {r : Res Unit} {op} {s t : State}
    (h : r.Ends fun t => f t = f s) (ht : r.finish op = .next t) : f t = f s := by
  obtain ⟨u, hu, rfl | ⟨e, rfl⟩⟩ := h.finish ht
  · rw [hd, hu]
  · rw [hf, hu]

/-- `r` ends normally in `P`, or raises `e` in a state with `Q e`. -/
def Sat {α} (r : Res α) (P : State → Prop) (Q : Err → State → Prop) : Prop :=
  match r with | .ok _ s => P s | .raise e s => Q e s | .stuck => True

theorem Sat.bind {α β} {r : Res α} {f : α → State → Res β} {P P' Q} (h : Sat r P Q) (hf : ∀ a s, P s → Sat (f a s) P' Q) : Sat (r.bind f) P' Q := by
  cases r with
  | ok a s => exact hf a s h
  | raise e s => exact h
  | stuck => trivial

theorem Sat.then {r : Res Unit} {f : State → Res Unit} {P P' Q} (h : Sat r P Q) (hf : ∀ s, P s → Sat (f s) P' Q) : Sat (r.andThen f) P' Q := h.bind fun _ s hs => hf s hs

theorem Sat.mono {α} {r : Res α} {P P' Q Q'} (h : Sat r P Q) (hp : ∀ s, P s → P' s) (hq : ∀ e s, Q e s → Q' e s) : Sat r P' Q' := by
  cases r with
  | ok a s => exact hp s h
  | raise e s => exact hq e s h
  | stuck => trivial

theorem Sat.raiseIf {c e s k P Q} (h : Q e s) (hk : c = false → Sat (k s) P Q) : Sat (raiseIf c e s k) P Q := by
  cases c
  · exact hk rfl
  · exact h

/-- A read raises `IO_IN` or the error given for a short read, and nothing else. -/
theorem readOr_sat {P : State → Prop} {Q n sh s} (hk : KeptByIn P) (hs : P s) (h1 : ∀ t, P t → Q .ioIn t) (h2 : ∀ t, P t → Q sh t) : Sat (readOr n sh s) P Q := by
  have h := hk.readOr hs n sh
  have : ∀ e t, readOr n sh s = .raise e t → e = .ioIn ∨ e = sh := by
    intro e t; unfold readOr; split <;> simp_all
  cases hr : readOr n sh s with
  | ok a t => rw [hr] at h; exact h
  | raise e t => rw [hr] at h; rcases this e t hr with rfl | rfl; exacts [h1 t h, h2 t h]
  | stuck => trivial

/-- A write raises `IO_OUT` and nothing else. -/
theorem writeOr_sat {P : State → Prop} {Q n v s} (hk : KeptByOut P) (hs : P s) (ho : s.status.oclosed = false) (h1 : ∀ t, P t → Q .ioOut t) :
    Sat (writeOr n v s) (fun t => P t ∧ t.status.oclosed = false) Q := by
  have h := hk.writeOr hs ho n v
  have : ∀ e t, writeOr n v s = .raise e t → e = .ioOut := by
    intro e t; unfold writeOr; split <;> simp_all
  cases hr : writeOr n v s with
  | ok a t => rw [hr] at h; exact h
  | raise e t => rw [hr] at h; cases this e t hr; exact h1 t h.1
  | stuck => trivial

theorem writeBits_sat {P : State → Prop} {Q bs s} (hk : KeptByOut P) (hs : P s) (ho : s.status.oclosed = false) (h1 : ∀ t, P t → Q .ioOut t) :
    Sat (writeBits bs s) (fun t => P t ∧ t.status.oclosed = false) Q := by
  induction bs generalizing s with
  | nil => exact ⟨hs, ho⟩
  | cons b bs ih => exact (writeOr_sat hk hs ho h1).then fun t ht => ih ht.1 ht.2

theorem emit_sat {P : State → Prop} {Q t s} (hk : KeptByOut P) (hs : P s) (ho : s.status.oclosed = false) (h1 : ∀ t, P t → Q .ioOut t) :
    Sat (emitTree t s) (fun t => P t ∧ t.status.oclosed = false) Q := by
  induction t generalizing s with
  | leaf x => exact (writeOr_sat hk hs ho h1).then fun t ht => writeOr_sat hk ht.1 ht.2 h1
  | node l r hl hr => exact ((writeOr_sat hk hs ho h1).then fun t ht => hl ht.1 ht.2).then fun t ht => hr ht.1 ht.2

theorem writeCode_sat {P : State → Prop} {Q x s} (hk : KeptByOut P) (hs : P s) (ho : s.status.oclosed = false) (h1 : ∀ t, P t → Q .ioOut t) (h2 : ∀ t, P t → Q .noSymbol t) :
    Sat (writeCode x s) (fun t => P t ∧ t.status.oclosed = false) Q := by
  unfold writeCode; split
  · exact h2 _ hs
  · exact writeBits_sat hk hs ho h1

theorem encodeLoop_sat {P : State → Prop} {Q f s} (hi : KeptByIn P) (hk : KeptByOut P) (hs : P s) (ho : s.status.oclosed = false) (h1 : ∀ t, P t → Q .ioOut t) (h2 : ∀ t, P t → Q .noSymbol t) (h3 : ∀ t, P t → Q .ioIn t) :
    Sat (encodeLoop f s) (fun t => P t ∧ t.status.oclosed = false) Q := by
  induction f generalizing s with
  | zero => trivial
  | succ f ih =>
    rw [encodeLoop]
    rcases inRead_cases 8 s with e | e | ⟨v, hv, e⟩ <;> rw [e]
    · exact h3 _ (hk.calls s hs)
    · exact ⟨hk.calls s hs, ho⟩
    · exact (writeCode_sat hk (hi.seek _ _ (hk.calls s hs) hv) ho h1 h2).then fun t ht => ih ht.1 ht.2

theorem countLoop_sat {P : State → Prop} {Q f s} (hi : KeptByIn P) (hc : ∀ t b v, P t → P (t.setFreq b v)) (hs : P s) (h2 : ∀ t, P t → Q .countOvf t) (h3 : ∀ t, P t → Q .ioIn t) :
    Sat (countLoop f s) P Q := by
  induction f generalizing s with
  | zero => trivial
  | succ f ih =>
    rw [countLoop]
    rcases inRead_cases 8 s with e | e | ⟨v, hv, e⟩ <;> rw [e]
    · exact h3 _ (hi.calls s hs)
    · exact hi.calls s hs
    · have := hi.seek _ _ (hi.calls s hs) hv
      exact Sat.then (P := P) (Sat.raiseIf (h2 _ this) fun _ => show P _ from hc _ _ _ this) fun t ht => ih ht

theorem rewind_sat {P : State → Prop} {Q s} (hi : KeptByIn P) (hs : P s) (h3 : ∀ t, P t → Q .ioIn t) : Sat (rewindBody s) P Q := by
  simp only [rewindBody, inRewind, State.takeAnswer_eq]
  cases s.answers.headD .ok
  · exact hi.seek _ 0 (hi.calls s hs) (Nat.zero_le _)
  · exact h3 _ (hi.calls s hs)

theorem close_sat {P P' : State → Prop} {Q s} (hk : KeptByOut P) (hs : P s) (hc : ∀ t, P t → P' t.closeOut) (h2 : ∀ t, P t → Q .ioOut t) (h3 : ∀ t, P t → Q .outClosed t) : Sat (closeBody s) P' Q := by
  refine Sat.raiseIf (h3 s hs) fun ho => ?_
  simp only [outClose, State.takeAnswer_eq]
  cases s.answers.headD .ok
  · exact hc _ (hk.calls s hs)
  · exact h2 _ (hk.calls s hs)

/-- With a tree, `NO_TREE` is not raised. -/
theorem withTree_sat {P : State → Prop} {Q s k} (hv : s.status.treeValid = true) (ht : s.tree.isSome) (hk : ∀ t, s.tree = some t → Sat (k t s) P Q) : Sat (withTree s k) P Q := by
  obtain ⟨t, h⟩ := Option.isSome_iff_exists.1 ht
  rw [withTree_some hv h]; exact hk t h

end Sys2Proof.Machine
end

