-- ==== Sys2Proof/Laws/Commute.lean ====
section
/-! SUPPORT. A change of the state that touches nothing a command reads commutes with the command: what R213's step-by-step sequences rest on. -/

namespace Sys2Proof.Machine

/-- `f` applied to the state a piece of pseudocode ends in. -/
def mapR {α} (f : State → State) : Res α → Res α
  | .ok a s => .ok a (f s) | .raise e s => .raise e (f s) | .stuck => .stuck

/-- `f` touches nothing the channels use, and commutes with them. -/
structure ChannelBlind (f : State → State) : Prop where
  ans : ∀ s, (f s).answers = s.answers
  cur : ∀ s, (f s).inCur = s.inCur
  bits : ∀ s, (f s).inBits = s.inBits
  par : ∀ s, (f s).params = s.params
  freq : ∀ s, (f s).freq = s.freq
  ocl : ∀ s, (f s).status.oclosed = s.status.oclosed
  pad : ∀ s, (f s).padBits = s.padBits
  calls : ∀ s k, f (s.afterCalls k) = (f s).afterCalls k
  seek : ∀ s k, f (s.seekIn k) = (f s).seekIn k
  app : ∀ s k, f (s.appendOut k) = (f s).appendOut k
  close : ∀ s, f s.closeOut = (f s).closeOut
  setf : ∀ s b v, f (s.setFreq b v) = (f s).setFreq b v

variable {f : State → State} {s : State}

theorem ChannelBlind.take (h : ChannelBlind f) (s) : (f s).takeAnswer = (s.takeAnswer.1, f s.takeAnswer.2) := by
  rw [State.takeAnswer_eq, State.takeAnswer_eq, h.ans]; simp [h.calls]

theorem mapR_bind {α β} {r : Res α} {g g' : α → State → Res β} (h : ∀ a s, g' a (f s) = mapR f (g a s)) : (mapR f r).bind g' = mapR f (r.bind g) := by
  cases r <;> simp [mapR, Res.bind, h]

theorem mapR_then {r : Res Unit} {g g' : State → Res Unit} (h : ∀ s, g' (f s) = mapR f (g s)) : (mapR f r).andThen g' = mapR f (r.andThen g) := mapR_bind fun _ s => h s

theorem mapR_raiseIf {c e} {k k' : State → Res Unit} (h : k' (f s) = mapR f (k s)) : raiseIf c e (f s) k' = mapR f (raiseIf c e s k) := by
  cases c
  · exact h
  · rfl

theorem ChannelBlind.inRead (h : ChannelBlind f) (n s) : inRead n (f s) = ((inRead n s).1, f (inRead n s).2) := by
  unfold Machine.inRead
  rw [h.take]
  rcases s.takeAnswer with ⟨a, t⟩
  cases a
  · simp only [h.cur, h.bits]; split
    · rfl
    · simp [h.seek]
  · rfl

theorem ChannelBlind.readOr (h : ChannelBlind f) (n sh s) : readOr n sh (f s) = mapR f (readOr n sh s) := by
  unfold Machine.readOr; rw [h.inRead]
  rcases Machine.inRead n s with ⟨a, t⟩
  cases a <;> rfl

theorem ChannelBlind.writeOr (h : ChannelBlind f) (n v s) : writeOr n v (f s) = mapR f (writeOr n v s) := by
  unfold Machine.writeOr outWrite; rw [h.take]
  rcases s.takeAnswer with ⟨a, t⟩
  cases a
  · simp [mapR, h.app]
  · rfl

theorem ChannelBlind.writeBits (h : ChannelBlind f) (bs s) : writeBits bs (f s) = mapR f (writeBits bs s) := by
  induction bs generalizing s with
  | nil => rfl
  | cons b bs ih => rw [Machine.writeBits, Machine.writeBits, h.writeOr]; exact mapR_then ih

theorem ChannelBlind.emit (h : ChannelBlind f) (t s) : emitTree t (f s) = mapR f (emitTree t s) := by
  induction t generalizing s with
  | leaf x => rw [emitTree, emitTree, h.writeOr]; exact mapR_then (h.writeOr _ _)
  | node l r hl hr => rw [emitTree, emitTree, h.writeOr, mapR_then hl]; exact mapR_then hr

theorem ChannelBlind.rewind (h : ChannelBlind f) (s) : rewindBody (f s) = mapR f (rewindBody s) := by
  unfold rewindBody inRewind; rw [h.take]
  rcases s.takeAnswer with ⟨a, t⟩
  cases a
  · simp [mapR, h.seek]
  · rfl

theorem ChannelBlind.closeB (h : ChannelBlind f) (s) : closeBody (f s) = mapR f (closeBody s) := by
  unfold closeBody; rw [h.ocl]; apply mapR_raiseIf
  unfold outClose; rw [h.take]
  rcases s.takeAnswer with ⟨a, t⟩
  cases a
  · simp [mapR, h.close]
  · rfl

theorem ChannelBlind.countLoop (h : ChannelBlind f) (n s) : countLoop n (f s) = mapR f (countLoop n s) := by
  induction n generalizing s with
  | zero => rfl
  | succ n ih =>
    rw [Machine.countLoop, Machine.countLoop, h.inRead]
    rcases Machine.inRead 8 s with ⟨a, t⟩
    cases a with
    | val v =>
      simp only
      have : countUnit v (f t) = mapR f (countUnit v t) := by
        unfold countUnit State.freqAt
        rw [h.freq, h.par]
        apply mapR_raiseIf
        simp only [mapR, h.freq, h.setf]
      rw [this]; exact mapR_then ih
    | atEnd => rfl
    | fail => rfl

theorem ChannelBlind.count (h : ChannelBlind f) (s) : countBody (f s) = mapR f (countBody s) := by
  unfold countBody State.inLeft; rw [h.bits, h.cur]; exact h.countLoop _ _

theorem ChannelBlind.wmagic (h : ChannelBlind f) (s) : wmagicBody (f s) = mapR f (wmagicBody s) := by
  unfold wmagicBody; rw [h.ocl]; apply mapR_raiseIf; rw [h.par]; exact h.writeOr _ _ _

theorem ChannelBlind.walk (h : ChannelBlind f) (t s) : walk t (f s) = mapR f (walk t s) := by
  induction t generalizing s with
  | leaf => rfl
  | node l r hl hr =>
    rw [Machine.walk, Machine.walk, h.readOr]; apply mapR_bind; intro a u; split
    exacts [hl u, hr u]

theorem ChannelBlind.readTree (h : ChannelBlind f) (d n s) : readTree d n (f s) = mapR f (readTree d n s) := by
  induction d generalizing n s with
  | zero => rfl
  | succ d ih =>
    rw [Machine.readTree, Machine.readTree]; split
    · rfl
    · rw [h.readOr]; apply mapR_bind; intro a u; split
      · rw [ih]; apply mapR_bind; intro b v; rw [ih]; apply mapR_bind; intro c w; rfl
      · have : readLeaf (f u) = mapR f (readLeaf u) := by
          unfold readLeaf; rw [h.readOr]; apply mapR_bind; intro a u; split <;> rfl
        rw [this]; apply mapR_bind; intro c w; rfl

/-- and it keeps the tables -/
structure TableBlind (f : State → State) : Prop extends ChannelBlind f where
  tree : ∀ s, (f s).tree = s.tree
  tv : ∀ s, (f s).status.treeValid = s.status.treeValid
  code : ∀ s, (f s).code = s.code
  cv : ∀ s, (f s).status.codeValid = s.status.codeValid
  storeT : ∀ s t, f (s.storeTree t) = (f s).storeTree t
  storeC : ∀ s t, f (s.storeCode t) = (f s).storeCode t
  dropT : ∀ s, f (s.dropTree) = (f s).dropTree
  dropC : ∀ s, f (s.dropCode) = (f s).dropCode

theorem TableBlind.withTree (h : TableBlind f) {k k' : Machine.Tree → State → Res Unit} (hk : ∀ t, k' t (f s) = mapR f (k t s)) : withTree (f s) k' = mapR f (withTree s k) := by
  unfold Machine.withTree; rw [h.tv, h.tree]; split
  · split
    · exact hk _
    · rfl
  · rfl

theorem TableBlind.wtree (h : TableBlind f) (s) : wtreeBody (f s) = mapR f (wtreeBody s) := by
  unfold wtreeBody; apply h.withTree; intro t; rw [h.ocl]; exact mapR_raiseIf (h.emit _ _)

theorem TableBlind.gencode (h : TableBlind f) (s) : gencodeBody (f s) = mapR f (gencodeBody s) := by
  unfold gencodeBody; apply h.withTree; intro t; simp [mapR, h.storeC]

theorem TableBlind.build (h : TableBlind f) (s) : buildBody (f s) = mapR f (buildBody s) := by
  unfold buildBody; rw [h.freq]; split
  · simp [mapR, h.storeT, h.dropC]
  · rfl

theorem TableBlind.writeCode (h : TableBlind f) (x s) : writeCode x (f s) = mapR f (writeCode x s) := by
  unfold Machine.writeCode State.codeAt; simp only [h.code]
  cases s.code[x.val] with
  | none => rfl
  | some bs => exact h.writeBits _ _

theorem TableBlind.withEncoder (h : TableBlind f) {k k' : State → Res Unit} (hk : k' (f s) = mapR f (k s)) : withEncoder (f s) k' = mapR f (withEncoder s k) := by
  unfold Machine.withEncoder; rw [h.cv, ]; apply mapR_raiseIf; rw [h.ocl]; exact mapR_raiseIf hk

theorem TableBlind.encsym (h : TableBlind f) (x s) : encsymBody x (f s) = mapR f (encsymBody x s) := h.withEncoder (h.writeCode _ _)

theorem TableBlind.encodeLoop (h : TableBlind f) (n s) : encodeLoop n (f s) = mapR f (encodeLoop n s) := by
  induction n generalizing s with
  | zero => rfl
  | succ n ih =>
    rw [Machine.encodeLoop, Machine.encodeLoop, h.inRead]
    rcases Machine.inRead 8 s with ⟨a, t⟩
    cases a with
    | val v => simp only; rw [h.writeCode]; exact mapR_then ih
    | atEnd => rfl
    | fail => rfl

theorem TableBlind.encode (h : TableBlind f) (s) : encodeBody (f s) = mapR f (encodeBody s) := by
  unfold encodeBody; apply h.withEncoder; unfold State.inLeft; rw [h.bits, h.cur]; exact h.encodeLoop _ _

/-- `f` commutes with what the decoder writes, too. -/
structure DecodeBlind (f : State → State) : Prop extends TableBlind f where
  res : ∀ s x, f (s.setResult x) = (f s).setResult x
  eos : ∀ s x, f (s.setEos x) = (f s).setEos x
  dst : ∀ s x, f (s.setDState x) = (f s).setDState x

theorem DecodeBlind.rmagic {f} (h : TableBlind f) (hd : ∀ s x, f (s.setDState x) = (f s).setDState x) (s) : rmagicBody (f s) = mapR f (rmagicBody s) := by
  unfold rmagicBody; rw [← hd, h.readOr]; apply mapR_bind; intro a u; rw [h.par]; apply mapR_raiseIf; simp [mapR, hd]

theorem DecodeBlind.rtree {f} (h : TableBlind f) (hd : ∀ s x, f (s.setDState x) = (f s).setDState x) (s) : rtreeBody (f s) = mapR f (rtreeBody s) := by
  unfold rtreeBody; rw [← hd, ← h.dropT, ← h.dropC, h.readTree]; apply mapR_bind; intro a u; apply mapR_raiseIf; simp [mapR, hd, h.storeT]

theorem DecodeBlind.decodeLoop (h : DecodeBlind f) (t n s) : decodeLoop t n (f s) = mapR f (decodeLoop t n s) := by
  induction n generalizing s with
  | zero => rfl
  | succ n ih =>
    rw [Machine.decodeLoop, Machine.decodeLoop, h.walk]; apply mapR_bind; intro a u
    simp only; split
    · simp [mapR, State.endDecode, h.res, h.eos, h.dst]
    · rw [← h.res, h.writeOr]; exact mapR_then ih

theorem DecodeBlind.decode (h : DecodeBlind f) (s) : decodeBody (f s) = mapR f (decodeBody s) := by
  unfold decodeBody; apply h.withTree; intro t; rw [h.ocl]; apply mapR_raiseIf
  unfold State.inLeft State.startDecode; rw [h.bits, h.cur, ← h.eos, ← h.dst]; exact h.decodeLoop _ _ _

/-- Completion between two commands is such a change. -/
theorem decodeBlind_done : DecodeBlind State.done := by
  constructor <;> first | (intros; rfl) | (constructor <;> first | (intros; rfl) | (constructor <;> intros <;> rfl))

/-- So is clearing EOS, up to the decoder. -/
theorem tableBlind_setEos : TableBlind (fun s => s.setEos false) := by
  constructor <;> first | (intros; rfl) | (constructor <;> intros <;> rfl)

theorem andThen_ok_inv {r : Res Unit} {g : State → Res Unit} {u} (h : r.andThen g = .ok () u) : ∃ v, r = .ok () v ∧ g v = .ok () u := by
  cases r with
  | ok a v => exact ⟨v, rfl, h⟩
  | raise e v => cases h
  | stuck => cases h

theorem mapR_ok_inv {r : Res Unit} {u} (h : mapR f r = .ok () u) : ∃ v, r = .ok () v ∧ f v = u := by
  cases r with
  | ok a v => exact ⟨v, rfl, by simpa [mapR] using h⟩
  | raise e v => cases h
  | stuck => cases h

theorem finish_ok_inv {r : Res Unit} {op t} (h : r.finish op = .next t) (he : t.status.err = false) : ∃ u, r = .ok () u ∧ t = u.done := by
  cases r with
  | ok a v => rw [Res.finish_ok] at h; injection h with h; exact ⟨v, rfl, h.symm⟩
  | raise e v => rw [Res.finish_raise] at h; injection h with h; subst h; cases he
  | stuck => cases h

end Sys2Proof.Machine
end

