-- ==== Sys2Proof/Laws/Optimal.lean ====
section
/-! SUPPORT. Toward R119: the exchange argument for the two least weights, on lists of a weight and a depth, and the cost of the merged tree. -/

namespace Sys2Proof.Machine

/-- The Kraft sum of a list of depths. -/
def kraft (ds : List Nat) : ℚ := (ds.map fun d => (1/2 : ℚ)^d).sum

theorem kraft_perm {a b : List Nat} (h : a.Perm b) : kraft a = kraft b := (h.map _).sum_eq

/-- The Kraft sum of depths up to `D` is a multiple of `2^-D`. -/
theorem kraft_mult (ds : List Nat) (D : Nat) (h : ∀ d ∈ ds, d ≤ D) : ∃ k : ℕ, kraft ds = k * (1/2:ℚ)^D := by
  induction ds with
  | nil => exact ⟨0, by simp [kraft]⟩
  | cons d ds ih =>
    obtain ⟨k, hk⟩ := ih fun x hx => h x (by simp [hx])
    have hd := h d (by simp)
    refine ⟨2^(D-d) + k, ?_⟩
    have : kraft (d :: ds) = (1/2:ℚ)^d + kraft ds := by simp [kraft]
    rw [this, hk]
    have : (1/2:ℚ)^d = (2:ℚ)^(D-d) * (1/2)^D := by
      obtain ⟨e, rfl⟩ := Nat.exists_eq_add_of_le hd
      rw [Nat.add_sub_cancel_left, pow_add, mul_left_comm, ← mul_pow]; simp
    rw [this]; push_cast; ring

/-- A depth deeper than all others may be cut down to theirs. -/
theorem kraft_round {ds : List Nat} {D D2 : Nat} (h : ∀ d ∈ ds, d ≤ D2) (hD : D2 ≤ D) (hk : kraft (D :: ds) ≤ 1) :
    kraft (D2 :: ds) ≤ 1 := by
  obtain ⟨k, e⟩ := kraft_mult ds D2 h
  have c1 : ∀ x, kraft (x :: ds) = (1/2:ℚ)^x + kraft ds := by simp [kraft]
  rw [c1, e] at hk ⊢
  have hp : (0:ℚ) < (1/2)^D := by positivity
  have hp2 : (0:ℚ) < (1/2)^D2 := by positivity
  have h1 : (k:ℚ) * (1/2)^D2 < 1 := by linarith
  have h2 : (k:ℚ) < 2^D2 := by
    have : (k:ℚ) * (1/2)^D2 * 2^D2 < 1 * 2^D2 := by gcongr
    rwa [mul_assoc, ← mul_pow, one_mul, show (1/2:ℚ)*2 = 1 by norm_num, one_pow, mul_one] at this
  have h3 : k + 1 ≤ 2^D2 := by exact_mod_cast h2
  have h4 : (k:ℚ) + 1 ≤ 2^D2 := by exact_mod_cast h3
  have : ((k:ℚ) + 1) * (1/2)^D2 ≤ 2^D2 * (1/2)^D2 := by gcongr
  rw [← mul_pow, show (2:ℚ)*(1/2) = 1 by norm_num, one_pow] at this
  linarith

/-- The sum of weight times depth. -/
def wcost (L : List (Nat × Nat)) : Nat := (L.map fun p => p.1 * p.2).sum

theorem wcost_perm {a b : List (Nat × Nat)} (h : a.Perm b) : wcost a = wcost b := (h.map _).sum_eq

/-- from any list with a chosen element, swap depth to be max; the first elem gets max depth -/
theorem swap_max (a d : Nat) (R : List (Nat × Nat)) (ha : ∀ x ∈ R, a ≤ x.1) :
    ∃ D R', (R'.map Prod.fst) = R.map Prod.fst ∧ (D :: R'.map Prod.snd).Perm (d :: R.map Prod.snd) ∧
      (∀ x ∈ R', x.2 ≤ D) ∧ wcost ((a, D) :: R') ≤ wcost ((a, d) :: R) := by
  induction R generalizing d with
  | nil => exact ⟨d, [], rfl, .refl _, by simp, le_refl _⟩
  | cons r R ih =>
    obtain ⟨w, e⟩ := r
    have haw : a ≤ w := ha (w, e) (by simp)
    -- put max of d,e on a
    obtain ⟨D, R', h1, h2, h3, h4⟩ := ih (max d e) fun x hx => ha x (by simp [hx])
    refine ⟨D, (w, min d e) :: R', by simp [h1], ?_, ?_, ?_⟩
    · simp only [List.map_cons]
      refine (List.Perm.swap _ _ _).trans ((h2.cons (min d e)).trans ?_)
      rcases le_total d e with h | h
      · rw [min_eq_left h, max_eq_right h]
      · rw [min_eq_right h, max_eq_left h]; exact List.Perm.swap _ _ _
    · intro x hx
      rcases List.mem_cons.1 hx with rfl | hx
      · have : max d e ∈ D :: R'.map Prod.snd := h2.symm.subset (by simp)
        have hm : max d e ≤ D := by
          rcases List.mem_cons.1 this with h | h
          · omega
          · obtain ⟨y, hy, hye⟩ := List.mem_map.1 h
            rw [← hye]; exact h3 y hy
        simp only; omega
      · exact h3 x hx
    · simp only [wcost, List.map_cons, List.sum_cons] at h4 ⊢
      rcases le_total d e with h | h
      · rw [max_eq_right h] at h4
        rw [min_eq_left h]
        nlinarith [Nat.mul_le_mul_right (e - d) haw, Nat.sub_add_cancel h]
      · rw [max_eq_left h] at h4
        rw [min_eq_right h]; omega

/-- Merging the two least weights costs at most what any assignment of depths loses by it. -/
theorem merge_step {a b : Nat} {ws : List Nat} {L : List (Nat × Nat)} (hab : a ≤ b) (hb : ∀ w ∈ ws, b ≤ w)
    (hp : (L.map Prod.fst).Perm (a :: b :: ws)) (hk : kraft (L.map Prod.snd) ≤ 1) :
    ∃ L', (L'.map Prod.fst).Perm ((a + b) :: ws) ∧ kraft (L'.map Prod.snd) ≤ 1 ∧ wcost L' + (a + b) ≤ wcost L := by
  -- write L ~ (a,da)::(b,db)::R
  obtain ⟨da, L1, hL1, hp1⟩ : ∃ da L1, L.Perm ((a, da) :: L1) ∧ (L1.map Prod.fst).Perm (b :: ws) := by
    have : a ∈ L.map Prod.fst := hp.symm.subset (by simp)
    obtain ⟨⟨x, da⟩, hx, rfl⟩ := List.mem_map.1 this
    refine ⟨da, L.erase (x, da), List.perm_cons_erase hx, ?_⟩
    have := (List.perm_cons_erase hx).map Prod.fst
    exact (List.perm_cons x).1 (this.symm.trans hp)
  obtain ⟨db, R, hR, hpR⟩ : ∃ db R, L1.Perm ((b, db) :: R) ∧ (R.map Prod.fst).Perm ws := by
    have : b ∈ L1.map Prod.fst := hp1.symm.subset (by simp)
    obtain ⟨⟨x, da⟩, hx, rfl⟩ := List.mem_map.1 this
    refine ⟨da, L1.erase (x, da), List.perm_cons_erase hx, ?_⟩
    have := (List.perm_cons_erase hx).map Prod.fst
    exact (List.perm_cons x).1 (this.symm.trans hp1)
  have hperm : L.Perm ((a, da) :: (b, db) :: R) := hL1.trans (hR.cons _)
  rw [kraft_perm (hperm.map _)] at hk
  rw [wcost_perm hperm]
  have hRb : ∀ x ∈ R, b ≤ x.1 := fun x hx => hb x.1 (hpR.subset (List.mem_map_of_mem hx))
  obtain ⟨D, R1, e1, e2, e3, e4⟩ := swap_max a da ((b, db) :: R) (by
    intro x hx; rcases List.mem_cons.1 hx with rfl | hx; exacts [hab, hab.trans (hRb x hx)])
  cases R1 with
  | nil => simp at e1
  | cons hd R1 =>
    obtain ⟨b', db1⟩ := hd
    simp only [List.map_cons, List.cons.injEq] at e1
    obtain ⟨rfl, e1⟩ := e1
    obtain ⟨D2, R2, f1, f2, f3, f4⟩ := swap_max b' db1 R1 (by
      intro x hx
      have : x.1 ∈ R.map Prod.fst := by rw [← e1]; exact List.mem_map_of_mem hx
      obtain ⟨y, hy, hxy⟩ := List.mem_map.1 this
      rw [← hxy]; exact hRb y hy)
    have hD : D2 ≤ D := by
      have : D2 ∈ db1 :: R1.map Prod.snd := f2.subset (by simp)
      rcases List.mem_cons.1 this with rfl | h
      · exact e3 (b', D2) (by simp)
      · obtain ⟨y, hy, rfl⟩ := List.mem_map.1 h; exact e3 y (by simp [hy])
    have hk2 : kraft (D :: D2 :: R2.map Prod.snd) ≤ 1 := by
      rw [kraft_perm (f2.cons D)]
      simp only [List.map_cons] at e2 hk
      rw [kraft_perm e2]; exact hk
    have hk3 : kraft (D2 :: D2 :: R2.map Prod.snd) ≤ 1 := by
      refine kraft_round ?_ hD hk2
      intro d hd
      rcases List.mem_cons.1 hd with rfl | h
      · exact le_refl _
      · obtain ⟨y, hy, rfl⟩ := List.mem_map.1 h; exact f3 y hy
    have hpos : 0 < D2 := by
      rcases Nat.eq_zero_or_pos D2 with h | h
      · subst h
        have : kraft (0 :: 0 :: R2.map Prod.snd) = 1 + (1 + kraft (R2.map Prod.snd)) := by simp [kraft]
        have h0 : 0 ≤ kraft (R2.map Prod.snd) := List.sum_nonneg (by
          intro x hx; obtain ⟨y, -, rfl⟩ := List.mem_map.1 hx; positivity)
        linarith
      · exact h
    obtain ⟨d, rfl⟩ : ∃ d, D2 = d + 1 := ⟨D2 - 1, by omega⟩
    refine ⟨(a + b', d) :: R2, ?_, ?_, ?_⟩
    · simp only [List.map_cons]
      rw [f1, e1]; exact hpR.cons _
    · have c : kraft ((d+1) :: (d+1) :: R2.map Prod.snd) = (1/2:ℚ)^(d+1) + ((1/2:ℚ)^(d+1) + kraft (R2.map Prod.snd)) := by simp [kraft]
      have c2 : kraft (((a + b', d) :: R2).map Prod.snd) = (1/2:ℚ)^d + kraft (R2.map Prod.snd) := by simp [kraft]
      rw [c2]; rw [c] at hk3
      have : (1/2:ℚ)^d = (1/2:ℚ)^(d+1) + (1/2:ℚ)^(d+1) := by rw [pow_succ]; ring
      linarith
    · simp only [wcost, List.map_cons, List.sum_cons] at e4 f4 ⊢
      have : a * (d+1) ≤ a * D := Nat.mul_le_mul_left a hD
      nlinarith

/-- The weight of a tree: the sum over its leaves. -/
def wt (w : Symbol → Nat) (t : Tree) : Nat := (t.symbols.map w).sum

theorem cost_node (w : Symbol → Nat) (l r : Tree) : (Machine.Tree.node l r).cost w = l.cost w + r.cost w + (wt w l + wt w r) := by
  have h : ∀ (ps : List (Symbol × Bits)) (b : Bool), ((ps.map fun sp => (sp.1, b :: sp.2)).map fun sp : Symbol × Bits => w sp.1 * sp.2.length).sum
      = (ps.map fun sp => w sp.1 * sp.2.length).sum + (ps.map fun sp => w sp.1).sum := by
    intro ps b
    induction ps with
    | nil => rfl
    | cons p ps ih => simp only [List.map_cons, List.sum_cons, List.length_cons] at ih ⊢; rw [ih]; ring
  simp only [Tree.cost, Tree.paths, List.map_append, List.sum_append]
  rw [h, h]
  simp only [wt, Tree.symbols_eq_paths, List.map_map, Function.comp_def]
  omega

theorem wt_node (w : Symbol → Nat) (l r : Tree) : wt w (.node l r) = wt w l + wt w r := by simp [wt, Tree.symbols]

/-- The cost of a merged tree is least among all assignments of depths whose Kraft sum is at most 1. -/
theorem mergeAll_cost (w : Symbol → Nat) {fuel q : Nat} {pq : List Item} (h0 : pq ≠ []) (hl : pq.length ≤ fuel + 1) :
    ∃ t, mergeAll fuel q pq = some t ∧ ((∀ i ∈ pq, i.w = wt w i.t) →
      ∃ C, t.cost w = (pq.map fun i => i.t.cost w).sum + C ∧
        ∀ L : List (Nat × Nat), (L.map Prod.fst).Perm (pq.map Item.w) → kraft (L.map Prod.snd) ≤ 1 → C ≤ wcost L) := by
  refine mergeAll_induct (fun pq t => (∀ i ∈ pq, i.w = wt w i.t) →
      ∃ C, t.cost w = (pq.map fun i => i.t.cost w).sum + C ∧
        ∀ L : List (Nat × Nat), (L.map Prod.fst).Perm (pq.map Item.w) → kraft (L.map Prod.snd) ≤ 1 → C ≤ wcost L) ?_ ?_ ?_ h0 hl
  · intro x _; exact ⟨0, by simp, fun L _ _ => Nat.zero_le _⟩
  · intro xs ys t h ih hw
    obtain ⟨C, h1, h2⟩ := ih fun i hi => hw i (h.subset hi)
    exact ⟨C, by rw [h1, (h.map _).sum_eq], fun L hL hk => h2 L (hL.trans (h.map _).symm) hk⟩
  · intro a b pq q t ha hb ih hw
    have hwa := hw a (by simp)
    have hwb := hw b (by simp)
    obtain ⟨C, h1, h2⟩ := ih (by
      intro i hi
      rcases List.mem_append.1 hi with hi | hi
      · exact hw i (by simp [hi])
      · obtain rfl := List.mem_singleton.1 hi; simp only [wt_node, hwa, hwb])
    refine ⟨C + (a.w + b.w), ?_, fun L hL hk => ?_⟩
    · rw [h1]; simp only [List.map_append, List.map_cons, List.map_nil, List.sum_append, List.sum_cons, List.sum_nil, cost_node, ← hwa, ← hwb]; omega
    · have le1 : ∀ {x y : Item}, y.before x = false → x.w ≤ y.w := by
        intro x y h; simp only [Bool.eq_false_iff, ne_eq, Item.before_iff] at h; omega
      obtain ⟨L', g1, g2, g3⟩ := merge_step (le1 (ha b (by simp))) (ws := pq.map Item.w) (by
        intro x hx; obtain ⟨y, hy, rfl⟩ := List.mem_map.1 hx; exact le1 (hb y hy)) hL hk
      have := h2 L' (by simp only [List.map_append, List.map_cons, List.map_nil]; exact g1.trans (List.perm_append_comm (l₁ := [a.w + b.w]))) g2
      omega

/-- The Kraft sum of a tree's depths is 1. -/
theorem kraft_tree (t : Tree) : kraft (t.paths.map fun sp => sp.2.length) = 1 := by
  induction t with
  | leaf => simp [Tree.paths, kraft]
  | node l r hl hr =>
    have h : ∀ (ps : List (Symbol × Bits)) (b : Bool), kraft ((ps.map fun sp => (sp.1, b :: sp.2)).map fun sp : Symbol × Bits => sp.2.length) = 1/2 * kraft (ps.map fun sp => sp.2.length) := by
      intro ps b
      induction ps with
      | nil => simp [kraft]
      | cons p ps ih => simp only [kraft, List.map_cons, List.sum_cons, List.length_cons] at ih ⊢; rw [ih]; ring
    have ha : ∀ a b : List Nat, kraft (a ++ b) = kraft a + kraft b := by simp [kraft]
    rw [Tree.paths, List.map_append, ha, h, h, hl, hr]; norm_num

theorem weightOf_byte (freq) (b : Byte) : weightOf freq (byteSymbol b) = freq[b.toNat]'b.isLt := by
  have := b.isLt; simp [weightOf, byteSymbol, this]

theorem weightOf_sent (freq) : weightOf freq Config.sent = 1 := by simp [weightOf, Config.sent, Config.sentWeight]

theorem weightedLeaves_w {freq} {ws : Nat × Symbol} (h : ws ∈ weightedLeaves freq) : ws.1 = weightOf freq ws.2 := by
  simp only [weightedLeaves, List.mem_append, List.mem_map, List.mem_singleton] at h
  rcases h with ⟨b, -, rfl⟩ | rfl
  · exact (weightOf_byte _ _).symm
  · exact (weightOf_sent _).symm

theorem initialItems_mem {freq} {i : Item} (h : i ∈ initialItems freq) : ∃ x, i.t = .leaf x ∧ i.w = weightOf freq x := by
  simp only [initialItems, List.mem_map] at h
  obtain ⟨⟨⟨w, x⟩, q⟩, hm, rfl⟩ := h
  exact ⟨x, rfl, weightedLeaves_w (List.fst_mem_of_mem_zipIdx hm)⟩

end Sys2Proof.Machine
end

