-- ==== Sys2Proof/Laws/PerInstr.lean ====
section
/-! SUPPORT. The fields of every command's word, command by command (30_encoding.md R81 to R83). -/

namespace Sys2Proof.Laws.Fields

/-- The word of `i` has its opcode in bits 7:0, its operand in bits 16:8 and zeros in bits 31:17. -/
def Statement (i : Instr) : Prop :=
  fieldOpc (encode i) = opcode i ∧ fieldArg (encode i) = operand i ∧ fieldRsv (encode i) = 0

/-- The three fields, for any operand. -/
theorem of_fields (i : Instr) : Statement i :=
  ⟨fieldOpc_append _ _, fieldArg_append _ _, fieldRsv_append _ _⟩

theorem nop : Statement .nop := of_fields _
theorem clr : Statement .clr := of_fields _
theorem rewind : Statement .rewind := of_fields _
theorem close : Statement .close := of_fields _
theorem cntsym (b : BitVec 9) : Statement (.cntsym b) := of_fields _
theorem count : Statement .count := of_fields _
theorem build : Statement .build := of_fields _
theorem wmagic : Statement .wmagic := of_fields _
theorem wtree : Statement .wtree := of_fields _
theorem rmagic : Statement .rmagic := of_fields _
theorem rtree : Statement .rtree := of_fields _
theorem gencode : Statement .gencode := of_fields _
theorem encsym (a : BitVec 9) : Statement (.encsym a) := of_fields _
theorem encode : Statement .encode := of_fields _
theorem decsym : Statement .decsym := of_fields _
theorem decode : Statement .decode := of_fields _
theorem compress : Statement .compress := of_fields _
theorem decompress : Statement .decompress := of_fields _

end Sys2Proof.Laws.Fields
end

