-- ==== Sys2Proof/Tests/Slice0.lean ====
section
/-! SUPPORT. Tests of single steps with expected values from 95_test_vectors.md (its section is named at each group) or
worked by hand from a rule, and for every statement with hypotheses a state that meets them. -/

namespace Sys2Proof.Tests

open Sys2Proof.Machine

set_option Elab.async false

/-! ### Small states -/

/-- The vectors' example magic (95_test_vectors.md section 0) and the default `CNT_W` = 32. -/
def p32 : Params := ⟨0xFACE8201, 31⟩
/-- The same with `CNT_W` = 2. -/
def p2 : Params := ⟨0xFACE8201, 1⟩

/-- Reset, with parameters `p` and an input attached. -/
def fresh (p : Params) (bytes : List Byte) : State := { State.reset with params := p, inBits := bytesToBits bytes }

/-- The next state, if there is one. -/
def out? : Host.Outcome State Fault Refusal → Option State
  | .next s => some s
  | _ => none

/-- The state after a command. -/
def after (i : Instr) (s : State) : State := (out? (exec i s)).getD State.reset

/-- The state after a move of the host. -/
def moved (m : HostMove) (s : State) : State := (out? (step { s with script := [.host m] })).getD State.reset

/-- The tree `(EOS, 0x41)`. -/
def treeA : Tree := .node (.leaf 256) (.leaf 65)

/-- The tree `(0x41, 0x42)`, without the sentinel. -/
def treeAB : Tree := .node (.leaf 65) (.leaf 66)

/-- A tree held, no code table. -/
def treed (t : Tree) (bytes : List Byte) : State := (fresh p32 bytes).storeTree t

/-- The tree and its code table held. -/
def coded (bytes : List Byte) : State := (treed treeA bytes).storeCode (genTable treeA)

/-- OUT closed. -/
def closed (s : State) : State := { s with status := { s.status with oclosed := true } }

/-- The channel's answers to come. -/
def answering (l : List Answer) (s : State) : State := { s with answers := l }

/-- The host's move comes next. -/
def hosting (m : HostMove) (s : State) : State := { s with script := [.host m] }

/-! ### The operand checks (30_encoding.md R83) -/

theorem test_wf_cntsym_255 : (Instr.cntsym 255).wf = true := by decide
theorem test_wf_cntsym_256_refused : (Instr.cntsym 256).wf = false := by decide
theorem test_wf_encsym_256 : (Instr.encsym 256).wf = true := by decide
theorem test_wf_encsym_257_refused : (Instr.encsym 257).wf = false := by decide

/-! ### Words written out field by field, RSV, ARG, OPC (30_encoding.md R80 to R82) -/

/-- What the decoder reads from the three fields. -/
def read (rsv : BitVec 15) (arg : BitVec 9) (opc : BitVec 8) : Option Instr := (decode ((rsv ++ arg) ++ opc)).toOption

theorem test_word_nop : read 0b000000000000000 0b000000000 0b00000000 = some .nop := by decide
theorem test_word_clr : read 0b000000000000000 0b000000000 0b00000001 = some .clr := by decide
theorem test_word_rewind : read 0b000000000000000 0b000000000 0b00000010 = some .rewind := by decide
theorem test_word_close : read 0b000000000000000 0b000000000 0b00000011 = some .close := by decide
theorem test_word_cntsym : read 0b000000000000000 0b001000001 0b00010000 = some (.cntsym 0x41) := by decide
theorem test_word_count : read 0b000000000000000 0b000000000 0b00010001 = some .count := by decide
theorem test_word_build : read 0b000000000000000 0b000000000 0b00100000 = some .build := by decide
theorem test_word_wmagic : read 0b000000000000000 0b000000000 0b00110000 = some .wmagic := by decide
theorem test_word_wtree : read 0b000000000000000 0b000000000 0b00110001 = some .wtree := by decide
theorem test_word_rmagic : read 0b000000000000000 0b000000000 0b00110010 = some .rmagic := by decide
theorem test_word_rtree : read 0b000000000000000 0b000000000 0b00110011 = some .rtree := by decide
theorem test_word_gencode : read 0b000000000000000 0b000000000 0b01000000 = some .gencode := by decide
theorem test_word_encsym : read 0b000000000000000 0b100000000 0b01010000 = some (.encsym 256) := by decide
theorem test_word_encode : read 0b000000000000000 0b000000000 0b01010001 = some .encode := by decide
theorem test_word_decsym : read 0b000000000000000 0b000000000 0b01100000 = some .decsym := by decide
theorem test_word_decode : read 0b000000000000000 0b000000000 0b01100001 = some .decode := by decide
theorem test_word_compress : read 0b000000000000000 0b000000000 0b01110000 = some .compress := by decide
theorem test_word_decompress : read 0b000000000000000 0b000000000 0b01110001 = some .decompress := by decide

/-- The table of section 2.1: legal and illegal words. -/
theorem test_words_of_section_2_1 :
    ([0x00004110, 0x0000FF10, 0x00006250, 0x00010050].map fun w => (decode w).toOption) =
      [some (.cntsym 0x41), some (.cntsym 255), some (.encsym 0x62), some (.encsym 256)] ∧
    ([0x00010010, 0x00010150, 0x00020050, 0x00000100, 0x80000000, 0x00000004, 0x000000FF].map
      fun w => (decode w).toOption) = List.replicate 7 none := by decide +kernel

theorem test_encode_cntsym : encode (.cntsym 0x41) = 0x00004110 := by decide
theorem test_encode_encsym : encode (.encsym 256) = 0x00010050 := by decide
theorem test_table_word : decodeTableWord 32 0x00006250 = some (.encsym 0x62) ∧ decodeTableWord 32 0x00000100 = none := by
  decide
theorem test_fetch_word_runs :
    ((out? (step (State.reset.withFetchWord 32 0x00004110))).map fun s => s.freqAt 0x41) = some 1 := by
  decide +kernel
theorem test_fetch_illegal_word :
    ((out? (step (State.reset.withFetchWord 32 0x00010150))).map fun s => s.status.word) = some 0x50010002 := by
  decide +kernel

/-! ### Control (section 2.9) -/

theorem test_nop : (after .nop (coded [])).status.word = 0x00000018 := by decide +kernel
theorem test_clr :
    let s := after .clr (after .rtree (fresh p32 [0x60]))
    s.status.word = 0x00000000 ∧ s.tree = none ∧ s.inpos = 2 := by decide +kernel
theorem test_rewind : (after .rewind ((fresh p32 [1, 2, 3]).seekIn 24)).inpos = 0 := by decide +kernel
theorem test_close :
    let s := after .close ((fresh p32 []).appendOut (List.replicate 42 true))
    s.outBits.length = 48 ∧ s.outpos = 42 ∧ s.status.word = 0x00000040 := by decide +kernel
theorem test_close_twice : (after .close (after .close (fresh p32 []))).status.word = 0x03060042 := by decide +kernel

/-! ### Counting (section 2.2) -/

theorem test_cntsym : (after (.cntsym 0x41) ((fresh p32 []).setFreq 0x41 2)).freqAt 0x41 = 3 := by decide +kernel
theorem test_cntsym_overflow :
    let s := after (.cntsym 5) ((fresh p2 []).setFreq 5 3)
    s.freqAt 5 = 3 ∧ s.status.word = 0x10050002 := by decide +kernel
theorem test_count :
    let s := after .count (fresh p32 [0x61, 0x62, 0x61])
    s.freqAt 0x61 = 2 ∧ s.freqAt 0x62 = 1 ∧ s.inpos = 24 := by decide +kernel
theorem test_count_overflow :
    let s := after .count (fresh p2 [0x41, 0x41, 0x41, 0x41])
    s.freqAt 0x41 = 3 ∧ s.inpos = 32 ∧ s.status.word = 0x11050002 := by decide +kernel

/-! ### Building (section 2.3) -/

theorem test_build_ABBA :
    let s := after .build (((fresh p32 []).setFreq 0x41 2).setFreq 0x42 2)
    s.tree = some (.node (.leaf 0x42) (.node (.leaf 256) (.leaf 0x41))) ∧ s.nleaf = 3 := by decide +kernel

/-! ### Magic word and header (section 2.5; its row `60 12 00` read as the bits beside it, `60 12 08`) -/

theorem test_wmagic :
    let s := after .wmagic (fresh p32 [])
    bitsToBytes s.outBits = [0xFA, 0xCE, 0x82, 0x01] ∧ s.outpos = 32 := by decide +kernel
theorem test_wtree :
    (after .wtree (treed treeA [])).outBits.map Bool.toNat = [0, 1, 1, 0, 0, 0, 0, 0, 0, 0, 0, 1, 0, 0, 1, 0, 0, 0, 0, 0, 1] := by
  decide +kernel
theorem test_wtree_from_reset : (after .wtree (fresh p32 [])).status.word = 0x31020002 := by decide +kernel
theorem test_rmagic :
    let s := after .rmagic (fresh p32 [0xFA, 0xCE, 0x82, 0x01])
    s.status.word = 0x00000200 ∧ s.inpos = 32 := by decide +kernel
theorem test_rmagic_short :
    let s := after .rmagic (fresh p32 [0xFA, 0xCE, 0x82])
    s.status.word = 0x32100102 ∧ s.inpos = 0 := by decide +kernel
theorem test_rtree :
    let s := after .rtree (fresh p32 [0x60, 0x12, 0x08])
    s.tree = some treeA ∧ s.nleaf = 2 ∧ s.status.word = 0x00000308 ∧ s.inpos = 21 := by decide +kernel
theorem test_rtree_node_cap :
    let s := after .rtree (fresh p32 (List.replicate 65 0))
    s.status.word = 0x33140202 ∧ s.inpos = 513 := by decide +kernel

/-! ### Codes (sections 2.4 and 2.6) -/

theorem test_gencode :
    let s := after .gencode (treed treeA [])
    s.codeAt 256 = some [false] ∧ s.codeAt 65 = some [true] ∧ s.codeAt 66 = none ∧ s.status.word = 0x00000018 := by
  decide +kernel
theorem test_gencode_duplicate :
    (after .gencode (treed (.node (.leaf 65) (.leaf 65)) [])).codeAt 65 = some [true] := by decide +kernel
theorem test_encsym : (after (.encsym 0x41) (coded [])).outBits = [true] := by decide +kernel
theorem test_encsym_no_symbol : (after (.encsym 0x42) (coded [])).status.word = 0x5004001A := by decide +kernel
theorem test_encode : (after .encode (coded [0x41, 0x41])).outBits = [true, true] := by decide +kernel
theorem test_encode_no_symbol :
    let s := after .encode (coded [0x41, 0x7A])
    s.status.word = 0x5104001A ∧ s.inpos = 16 ∧ s.outBits = [true] := by decide +kernel

/-! ### Decoding (section 2.7) -/

theorem test_decsym :
    let s := after .decsym (treed treeA [0x80])
    s.result = 0x41 ∧ s.status.word = 0x00000308 ∧ s.inpos = 1 := by decide +kernel
theorem test_decsym_sentinel_leaf :
    let s := after .decsym (treed (.leaf 256) [])
    s.result = 256 ∧ s.status.word = 0x00000428 ∧ s.inpos = 0 := by decide +kernel
theorem test_decode :
    let s := after .decode (treed treeA [0xE0])
    bitsToBytes s.outBits = [0x41, 0x41, 0x41] ∧ s.inpos = 4 ∧ s.status.word = 0x00000428 := by decide +kernel
theorem test_decode_truncated :
    let s := after .decode (treed treeAB [0x00])
    s.status.word = 0x6116030A ∧ s.result = 0x41 ∧ s.outpos = 64 := by decide +kernel

/-! ### Drivers (sections 1 and 2.8) -/

theorem test_compress :
    let s := after .compress (fresh p32 [0x41, 0x41, 0x41])
    bitsToBytes (s.outBits.take 56) = [0xFA, 0xCE, 0x82, 0x01, 0x60, 0x12, 0x0F] ∧ s.outBits.length = 64 ∧
      s.outpos = 57 ∧ s.inpos = 24 ∧ s.status.word = 0x00000058 := by decide +kernel
theorem test_decompress :
    let s := after .decompress (fresh p32 [0xFA, 0xCE, 0x82, 0x01, 0x60, 0x09, 0x06, 0x42, 0xB0])
    bitsToBytes s.outBits = [0x41, 0x42] ∧ s.status.word = 0x00000468 ∧ s.inpos = 69 ∧ s.outpos = 16 := by decide +kernel
theorem test_decompress_truncated :
    let s := after .decompress (fresh p32 [0xFA, 0xCE, 0x82, 0x01, 0x60, 0x12, 0x0F])
    s.status.word = 0x7116030A ∧ s.result = 0x41 ∧ s.inpos = 56 ∧ s.outpos = 24 := by decide +kernel

/-! ### Channel failures (section 2.10) and the host (section 2.9) -/

theorem test_count_fails :
    let s := after .count (answering [.ok, .fail] (fresh p32 [0x61, 0x62]))
    s.freqAt 0x61 = 1 ∧ s.status.word = 0x11200002 ∧ s.inpos = 8 := by decide +kernel
theorem test_close_fails :
    let s := after .close (answering [.fail] ((fresh p32 []).appendOut (List.replicate 42 true)))
    s.outBits.length = 42 ∧ s.status.word = 0x03210002 := by decide +kernel
theorem test_write_freq : (moved (.memWrite 0x41C 4 0xFFFFFFFE) (fresh p2 [])).freqAt 7 = 2 := by decide +kernel
theorem test_write_freq_while_busy :
    let s := moved (.memWrite 0x400 4 5) ((fresh p32 []).accept 0)
    s.freqAt 0 = 0 ∧ s.status.ovr = true := by decide +kernel
theorem test_command_while_error :
    let s := moved (.memWrite 0x000 4 0x101) ((fresh p32 []).failed 0x11 .countOvf)
    s.cmd = none ∧ s.status.word = 0x11050002 := by decide +kernel
theorem test_read_freq :
    (moved (.memRead 0x504 4) ((fresh p32 []).setFreq 0x41 3)).hostData = 3 := by decide +kernel

/-! ### States that meet the statements' hypotheses

Each witness names the statement and, where it has several, the clause. -/

theorem inv_fresh (p : Params) (bytes : List Byte) : (fresh p bytes).Inv where
  treeValid := rfl
  treeOk := by intro t h; simp [fresh, State.reset] at h
  nleaf := rfl
  codeOk := by intro h; simp [fresh, State.reset, Status.reset] at h
  codeNone := fun _ => rfl
  freqOk := by intro b; simp [fresh, State.reset, State.freqAt]
  resultOk := by simp [fresh, State.reset]
  cursor := Nat.zero_le _
  wholeBytes := by show (bytesToBits bytes).length % 8 = 0; rw [bytesToBits_length]; omega
  inpos := rfl
  busy := rfl
  errCode := rfl
  errOp := fun _ => rfl
  errPending := by intro h; simp [fresh, State.reset, Status.reset] at h
  closed := fun _ => rfl
  outpos := fun _ => rfl
  passesDone := Passes.closed_done 0

theorem treeInv_treeA : TreeInv treeA := ⟨by decide, by decide, by decide, by decide, by decide⟩
theorem treeInv_treeAB : TreeInv treeAB := ⟨by decide, by decide, by decide, by decide, by decide⟩

theorem inv_treed {t : Tree} (ht : TreeInv t) (bytes : List Byte) : (treed t bytes).Inv :=
  inv_storeTree (inv_fresh _ _) ht rfl

theorem inv_coded (bytes : List Byte) : (coded bytes).Inv := inv_storeCode (inv_treed treeInv_treeA bytes) rfl

theorem inv_accept {s : State} (h : s.Inv) (he : s.status.err = false) (w : Word) : (s.accept w).Inv :=
  { h with busy := rfl, errPending := fun hv => absurd hv (by show ¬ s.status.err = true; simp [he]) }

theorem okFor_nil {s : State} (h : s.answers = []) (k : Nat) : s.OkFor k := by simp [State.OkFor, h]

theorem reliable_nil {s : State} (h : s.answers = []) : s.Reliable := by simp [State.Reliable, h]

/-- The next call fails. -/
theorem fails_now (s : State) : (answering [.fail] s).FailsAt 0 := ⟨by simp [State.OkFor], rfl⟩

/-- One call is answered, the next one fails. -/
theorem fails_next (s : State) : (answering [.ok, .fail] s).FailsAt 1 := ⟨by simp [State.OkFor, answering], rfl⟩

/-- Every command answers a next state in a state of the invariant (R219). -/
theorem next_of_inv (i : Instr) {s : State} (h : s.Inv) : ∃ t, exec i s = .next t := by
  rw [exec_eq]
  have := body_ne_stuck i h
  cases hb : bodyOf i s with
  | ok u t => exact ⟨_, rfl⟩
  | raise e t => exact ⟨_, rfl⟩
  | stuck => exact absurd hb this

theorem freqAt_fresh (p : Params) (bytes : List Byte) (b : Byte) : (fresh p bytes).freqAt b = 0 := by
  simp [fresh, State.reset, State.freqAt]

/-- At most three units fit a counter of two bits. -/
theorem count_fits (bytes us : List Byte) (h : us.length ≤ 3) (b : Byte) :
    (fresh p2 bytes).freqAt b + us.count b ≤ (fresh p2 bytes).params.cntMax := by
  rw [freqAt_fresh, Nat.zero_add]; exact (List.count_le_length).trans h

theorem next_of_out {o : Host.Outcome State Fault Refusal} (h : (out? o).isSome) : ∃ t, o = .next t := by
  cases o with
  | next t => exact ⟨t, rfl⟩
  | fault => simp [out?] at h
  | refused => simp [out?] at h

theorem witness_WordsOfTheOpcodeMap : (0 : BitVec 9).toNat ≤ 256 ∧ (256 : BitVec 9).toNat ≤ 256 := by decide

theorem witness_IllegalWordRaisesIllegal :
    ∀ w ∈ ([0x00010010, 0x00010150, 0x00020050, 0x00000100, 0x80000000, 0x00000004] : List Word),
      legal w = false ∧ ((fresh p32 []).accept w).cmd = some w ∧ ((fresh p32 []).accept w).CoreNext :=
  fun w hw => ⟨by fin_cases hw <;> decide, rfl, .inl rfl⟩

theorem witness_StepRunsTheDecodedCommand :
    (((fresh p32 []).accept 0x00010050).cmd = some 0x00010050 ∧ decode 0x00010050 = .ok (.encsym 256) ∧
      ((fresh p32 []).accept 0x00010050).CoreNext) ∧
    ((fresh p32 []).cmd = none ∧ (fresh p32 []).CoreNext) ∧
    (hosting .takeOut (fresh p32 [])).script = .host .takeOut :: [] :=
  ⟨⟨rfl, rfl, .inl rfl⟩, ⟨rfl, .inl rfl⟩, rfl⟩

theorem witness_CommandAcceptance_write :
    let m := HostMove.memWrite 0x000 4
    ((hosting (m 0x11) ((fresh p32 []).accept 0)).script = [.host (m 0x11)] ∧
      (hosting (m 0x11) ((fresh p32 []).accept 0)).status.busy = true) ∧
    ((hosting (m 0x11) ((fresh p32 []).failed 0x11 .ioIn)).status.busy = false ∧
      (hosting (m 0x11) ((fresh p32 []).failed 0x11 .ioIn)).status.err = true ∧
      (0x11 : Word) ≠ 0x00000000 ∧ (0x11 : Word) ≠ 0x00000001) ∧
    ((hosting (m 0x11) (fresh p32 [])).status.busy = false ∧ (hosting (m 0x11) (fresh p32 [])).status.err = false) :=
  ⟨⟨rfl, rfl⟩, ⟨rfl, rfl, by decide, by decide⟩, rfl, rfl⟩

/-- With ERR = 1 exactly the words NOP and CLR are accepted, where the clauses on dropping and accepting meet. -/
theorem witness_CommandAcceptance_err :
    ∀ w ∈ [(0x00000000 : Word), 0x00000001],
      let s := hosting (.memWrite 0x000 4 w) ((fresh p32 []).failed 0x11 .ioIn)
      s.script = [.host (.memWrite 0x000 4 w)] ∧ s.status.busy = false ∧ s.status.err = true ∧
        (w = 0x00000000 ∨ w = 0x00000001) ∧ (out? (step s)).map State.cmd = some (some w) := by
  intro w hw
  fin_cases hw <;> exact ⟨rfl, rfl, rfl, by decide, by decide +kernel⟩

theorem witness_CommandAcceptance_core :
    legal 0x00010150 = false ∧ legal 0x00010050 = true ∧ ((fresh p32 []).accept 0x00010050).CoreNext ∧
      ∃ t, step ((fresh p32 []).accept 0x00010050) = .next t :=
  ⟨by decide, by decide, .inl rfl, next_of_out (by decide +kernel)⟩

theorem witness_FreqRegisters (b : Byte) :
    let a := BitVec.ofNat 12 (0x400 + 4 * b.toNat)
    ((hosting (.memRead a 4) (fresh p2 [])).script = [.host (.memRead a 4)] ∧
      (hosting (.memRead a 4) (fresh p2 [])).status.busy = false) ∧
    ((hosting (.memWrite a 4 5) (fresh p2 [])).script = [.host (.memWrite a 4 5)] ∧
      (hosting (.memWrite a 4 5) (fresh p2 [])).status.busy = false) ∧
    (hosting (.memWrite a 4 5) ((fresh p2 []).accept 0)).status.busy = true := ⟨⟨rfl, rfl⟩, ⟨rfl, rfl⟩, rfl⟩

theorem witness_WritesWhileBusyAreDropped :
    ∀ a ∈ ([0x000, 0x400, 0x7FC, 0x004, 0x3FC, 0x800] : List (BitVec 12)),
      (hosting (.memWrite a 4 5) ((fresh p32 []).accept 0)).script = [.host (.memWrite a 4 5)] ∧
      (hosting (.memWrite a 4 5) ((fresh p32 []).accept 0)).status.busy = true ∧ a.toNat % 4 = 0 ∧
      ((a.toNat = 0 ∨ (0x400 ≤ a.toNat ∧ a.toNat < 0x800)) ∨
        (a.toNat ≠ 0 ∧ ¬(0x400 ≤ a.toNat ∧ a.toNat < 0x800))) :=
  fun a ha => ⟨rfl, rfl, by fin_cases ha <;> decide, by omega⟩

theorem witness_OtherAccessesAreIgnored :
    ((2 : Nat) ≠ 4 ∨ (0x504 : BitVec 12).toNat % 4 ≠ 0) ∧ ((4 : Nat) ≠ 4 ∨ (0x506 : BitVec 12).toNat % 4 ≠ 0) ∧
    (hosting (.memWrite 0x506 4 5) (fresh p32 [])).script = [.host (.memWrite 0x506 4 5)] ∧
    (hosting (.memRead 0x504 2) (fresh p32 [])).script = [.host (.memRead 0x504 2)] :=
  ⟨by decide, by decide, rfl, rfl⟩

theorem witness_ReservedOffsets :
    ∀ a ∈ ([0x020, 0x3FC, 0x800, 0xFFC] : List (BitVec 12)),
      a.toNat % 4 = 0 ∧ ((0x020 ≤ a.toNat ∧ a.toNat ≤ 0x3FC) ∨ 0x800 ≤ a.toNat) := by
  intro a ha; fin_cases ha <;> decide

theorem witness_RegistersReadAndIgnoreWrites :
    (hosting (.memRead 0x01C 4) (fresh p32 [])).status.busy = false ∧
    (hosting (.memRead 0x01C 4) (fresh p32 [])).script = [.host (.memRead 0x01C 4)] ∧
    (hosting (.memWrite 0x004 4 5) (fresh p32 [])).script = [.host (.memWrite 0x004 4 5)] := ⟨rfl, rfl, rfl⟩

theorem witness_ReadsWhileBusy :
    ∀ a ∈ ([0x000, 0x004, 0x01C, 0x400, 0x7FC] : List (BitVec 12)),
      (hosting (.memRead a 4) ((fresh p32 []).accept 0)).script = [.host (.memRead a 4)] ∧
      (hosting (.memRead a 4) ((fresh p32 []).accept 0)).status.busy = true ∧ a.toNat % 4 = 0 ∧
      (a.toNat < 0x020 ∨ (0x400 ≤ a.toNat ∧ a.toNat < 0x800)) ∧ HostMove.memRead a 4 ≠ .reset ∧
      ∃ t, step (hosting (.memRead a 4) ((fresh p32 []).accept 0)) = .next t :=
  fun a ha => ⟨rfl, rfl, by fin_cases ha <;> decide, by fin_cases ha <;> decide, by simp, _, rfl⟩

/-- The host's plan: write these words to CMD, each one followed by the Core's turn. -/
def plan (ws : List Word) : List Turn := ws.flatMap fun w => [.host (.memWrite 0x000 4 w), .core]

/-- After a COUNT of one byte, the turns `l`. -/
def counted (l : List Turn) : State :=
  let s := (fresh p2 [0x61]).setFreq 0x61 1
  { s.setPasses (s.passes.counted (fresh p2 []).freq s.freq) with script := l }

theorem inv_counted (l : List Turn) : (counted l).Inv := by
  refine { inv_fresh p2 [0x61] with freqOk := fun b => ?_, passesDone := ?_ }
  case refine_2 =>
    rintro k (h | h | h) <;> cases h
    exact Nat.le_refl 1
  show ((fresh p2 [0x61]).setFreq 0x61 1).freqAt b ≤ p2.cntMax
  rw [State.freqAt_setFreq, freqAt_fresh]
  split <;> decide

/-- Whether the step from `s` is a next state; the only refusal it can be with BUSY = 0 is that of an attach. -/
def goesOn (s : State) : Bool := (out? (step s)).isSome

/-- What COUNT records. -/
theorem test_count_recorded :
    (out? (step ((fresh p2 [0x61]).accept 0x11))).map State.passes = some (counted []).passes := by decide +kernel

theorem witness_AttachingChannels :
    (∀ m ∈ [HostMove.attachIn [1], .attachOut],
      let s := counted (.host m :: plan [0x20, 0x02, 0x40, 0x51])
      s.status.busy = false ∧ goesOn s = false ∧ goesOn (counted (.host m :: plan [0x20, 0x02, 0x40])) = true) ∧
    (hosting .attachOut ((fresh p32 []).accept 0)).status.busy = true ∧
    (hosting .takeOut (fresh p32 [])).script = [.host .takeOut] := by
  refine ⟨fun m hm => ?_, rfl, rfl⟩
  fin_cases hm <;> exact ⟨rfl, by decide +kernel, by decide +kernel⟩

theorem witness_AttachingChannels_run :
    let s := counted (.host (.attachIn [1]) :: plan [0x20])
    (∃ t, step s = .next t ∧ Relation.ReflTransGen (fun a b => step a = .next b) t t) ∧
    ((fresh p32 []).accept 0x51).status.busy = true ∧ (∃ t, step ((fresh p32 []).accept 0x51) = .next t) ∧
    (∃ t, step { (fresh p32 []).accept 0x51 with script := .core :: [] } = .next t) ∧
    step { (fresh p32 []).accept 0x51 with script := .host .attachOut :: [] } = .refused .attachWhileBusy := by
  refine ⟨?_, rfl, next_of_out (by decide +kernel), next_of_out (by decide +kernel), rfl⟩
  obtain ⟨t, ht⟩ := next_of_out (o := step (counted (.host (.attachIn [1]) :: plan [0x20]))) (by decide +kernel)
  exact ⟨t, ht, .refl⟩

/-- An attach that is not between the passes: before CLR and COUNT (R216), before another COUNT (D30), before an ENCODE
that raises NO_CODE (R193), and where the host has overwritten the counts (R102). -/
theorem test_attach_outside_the_passes :
    goesOn (counted (.host (.attachIn [1]) :: plan [0x01, 0x11, 0x20, 0x02, 0x40, 0x51])) = true ∧
    goesOn (counted (.host (.attachIn [1]) :: plan [0x11, 0x20, 0x02, 0x40, 0x51])) = true ∧
    goesOn (counted (.host (.attachIn [1]) :: plan [0x20, 0x51])) = true ∧
    goesOn { moved (.memWrite 0x584 4 2) (counted []) with
      script := .host (.attachIn [1]) :: plan [0x20, 0x40, 0x51] } = true := by decide +kernel

/-- An ENCODE word that is dropped, while BUSY or with ERR = 1 (R194), is no encoding pass. -/
theorem test_attach_before_a_dropped_encode :
    goesOn (counted (.host .attachOut :: plan [0x20, 0x40] ++
      [.host (.memWrite 0x000 4 0x02), .host (.memWrite 0x000 4 0x51), .core])) = true ∧
    goesOn (counted (.host .attachOut :: plan [0x20, 0x40, 0x60150, 0x51])) = true := by decide +kernel

/-- Reset ends the compression (R210), and the passes counted after it are new ones. -/
theorem test_attach_before_reset :
    (∀ m ∈ [HostMove.attachIn [1], .attachOut],
      goesOn (counted (.host m :: .host .reset :: plan [0x11, 0x20, 0x02, 0x40, 0x51])) = true) ∧
    goesOn (counted (.host (.attachIn [1]) :: plan [0x70] ++ .host .reset :: plan [0x11, 0x20, 0x40, 0x51])) = true := by
  refine ⟨fun m hm => ?_, by decide +kernel⟩
  fin_cases hm <;> decide +kernel

/-- The tree and the table keep the pass they come from when the host writes FREQ after BUILD (R24). -/
theorem test_attach_after_build :
    let s := after .build (counted [])
    goesOn { moved (.memWrite 0x584 4 2) (s.setPasses (passesAfter .build (counted []) s)) with
      script := .host (.attachIn [1]) :: plan [0x40, 0x51] } = false := by decide +kernel

theorem witness_ResetInput : (hosting .reset ((coded [1]).accept 0x51)).script = [.host .reset] := rfl

theorem witness_StepKeepsTheInvariant :
    ((coded [0x41]).accept 0x00000051).Inv ∧ ∃ t, step ((coded [0x41]).accept 0x00000051) = .next t :=
  ⟨inv_accept (inv_coded _) rfl _, next_of_out (by decide +kernel)⟩

theorem witness_AcceptedCommandsComplete :
    ((coded [0x41]).accept 0x00000051).Inv ∧ ((coded [0x41]).accept 0x00000051).cmd = some 0x00000051 ∧
      ((coded [0x41]).accept 0x00000051).CoreNext := ⟨inv_accept (inv_coded _) rfl _, rfl, .inl rfl⟩

theorem witness_StepsStopOnlyAtAttach_busy :
    (hosting .attachOut ((fresh p32 []).accept 0)).Inv ∧
      step (hosting .attachOut ((fresh p32 []).accept 0)) = .refused .attachWhileBusy :=
  ⟨{ inv_accept (inv_fresh p32 []) rfl 0 with }, rfl⟩

theorem witness_StepsStopOnlyAtAttach_betweenPasses :
    (counted (.host .attachOut :: plan [0x20, 0x40, 0x51])).Inv ∧
      goesOn (counted (.host .attachOut :: plan [0x20, 0x40, 0x51])) = false := ⟨inv_counted _, by decide +kernel⟩

theorem witness_CommandsKeepTheEnvironment :
    (∃ t, exec .count (fresh p32 [0x61]) = .next t) ∧ Instr.count ≠ .clr :=
  ⟨next_of_inv _ (inv_fresh _ _), by decide⟩

theorem witness_TablesChangeOnlyByTheirCommands :
    (∃ t, exec .wmagic (coded []) = .next t) ∧ (∀ b, Instr.wmagic ≠ .cntsym b) ∧
      Instr.wmagic ∉ [Instr.count, .compress, .clr] ∧
      Instr.wmagic ∉ [Instr.build, .rtree, .gencode, .compress, .decompress, .clr] ∧
      Instr.wmagic ∉ [Instr.rmagic, .rtree, .decsym, .decode, .decompress, .clr] :=
  ⟨next_of_inv _ (inv_coded _), by simp, by decide, by decide, by decide⟩

theorem witness_ChannelsChangeOnlyByTheirCommands :
    (∃ t, exec .build (fresh p32 [0x61]) = .next t) ∧ (∀ a, Instr.build ≠ .encsym a) ∧
      Instr.build ∉ [Instr.rewind, .count, .encode, .rmagic, .rtree, .decsym, .decode, .compress, .decompress] ∧
      Instr.build ∉ [Instr.wmagic, .wtree, .encode, .decode, .close, .compress, .decompress] :=
  ⟨next_of_inv _ (inv_fresh _ _), by simp, by decide, by decide⟩

theorem witness_OutputIsAppendOnly :
    (∃ t, exec .close (fresh p32 []) = .next t ∧ t.status.oclosed = true) ∧
    (∃ t, exec .close (closed (fresh p32 [])) = .next t) ∧ (closed (fresh p32 [])).status.oclosed = true ∧
    (∃ t, exec .nop (fresh p32 []) = .next t ∧ t.status.oclosed = false) :=
  ⟨⟨_, rfl, rfl⟩, ⟨_, rfl⟩, rfl, ⟨_, rfl, rfl⟩⟩

theorem witness_FirstErrorIsKept :
    ((fresh p32 []).failed 0x11 .ioIn).Inv ∧ ((fresh p32 []).failed 0x11 .ioIn).status.err = true ∧
      ∃ t, step ((fresh p32 []).failed 0x11 .ioIn) = .next t :=
  ⟨inv_failed (inv_fresh _ _) _ _, rfl, _, rfl⟩

theorem witness_PreconditionsInOrder :
    (closed (fresh p32 [])).status.oclosed = true ∧ (fresh p32 []).status.treeValid = false ∧
    ((closed (treed treeA [])).status.treeValid = true ∧ (closed (treed treeA [])).tree = some treeA ∧
      (closed (treed treeA [])).status.oclosed = true) ∧
    (fresh p32 []).status.codeValid = false ∧
    ((closed (coded [])).status.codeValid = true ∧ (closed (coded [])).status.oclosed = true) ∧
    ((coded []).status.codeValid = true ∧ (coded []).status.oclosed = false ∧ (coded []).codeAt 0 = none ∧
      (0 : BitVec 9).toNat < 257 ∧ (256 : BitVec 9).toNat < 257) :=
  ⟨rfl, rfl, ⟨rfl, rfl, rfl⟩, rfl, ⟨rfl, rfl⟩, rfl, rfl, by decide +kernel, by decide, by decide⟩

theorem witness_RewindRewinds : (fresh p32 [1]).OkFor 1 ∧ (answering [.fail] (fresh p32 [1])).FailsAt 0 :=
  ⟨okFor_nil rfl _, fails_now _⟩

theorem witness_CloseCloses :
    (closed (fresh p32 [])).status.oclosed = true ∧
    ((fresh p32 []).status.oclosed = false ∧ (fresh p32 []).OkFor 1) ∧
    ((answering [.fail] (fresh p32 [])).status.oclosed = false ∧ (answering [.fail] (fresh p32 [])).FailsAt 0) :=
  ⟨rfl, ⟨rfl, okFor_nil rfl _⟩, rfl, fails_now _⟩

theorem witness_CntsymCounts :
    (0 : BitVec 9).toNat < 256 ∧ (255 : BitVec 9).toNat < 256 ∧
    (fresh p2 []).freqAt 255 ≠ 2 ^ ((fresh p2 []).params.cntWPred.val + 1) - 1 ∧
    ((fresh p2 []).setFreq 255 3).freqAt 255 = 2 ^ (((fresh p2 []).setFreq 255 3).params.cntWPred.val + 1) - 1 := by
  decide +kernel

theorem witness_CountCountsUnits_all :
    (fresh p2 [0x61, 0x62]).Inv ∧ (fresh p2 [0x61, 0x62]).OkFor ((fresh p2 [0x61, 0x62]).unitsLeft.length + 1) ∧
      ∀ b, (fresh p2 [0x61, 0x62]).freqAt b + (fresh p2 [0x61, 0x62]).unitsLeft.count b ≤
        (fresh p2 [0x61, 0x62]).params.cntMax :=
  ⟨inv_fresh _ _, okFor_nil rfl _, count_fits _ _ (by decide +kernel)⟩

theorem witness_CountCountsUnits_overflow :
    let s := fresh p2 [0x41, 0x41, 0x41, 0x41]
    s.Inv ∧ s.unitsLeft = [0x41, 0x41, 0x41] ++ 0x41 :: [] ∧ s.OkFor 4 ∧
      (∀ c, s.freqAt c + [0x41, 0x41, 0x41].count c ≤ s.params.cntMax) ∧
      s.freqAt 0x41 + ([0x41, 0x41, 0x41] : List Byte).count 0x41 = s.params.cntMax :=
  ⟨inv_fresh _ _, by decide +kernel, okFor_nil rfl _, count_fits _ _ (by decide), by decide +kernel⟩

theorem witness_CountCountsUnits_fail :
    let s := answering [.ok, .fail] (fresh p2 [0x61, 0x62])
    s.Inv ∧ s.unitsLeft = [0x61] ++ [0x62] ∧ s.FailsAt ([0x61] : List Byte).length ∧
      ∀ c, s.freqAt c + ([0x61] : List Byte).count c ≤ s.params.cntMax :=
  ⟨{ inv_fresh p2 [0x61, 0x62] with }, by decide +kernel, fails_next _, count_fits [0x61, 0x62] _ (by decide)⟩

theorem witness_BuiltTreeLeaves : ∃ t, buildTree ((fresh p32 []).setFreq 0x41 3).freq = some t :=
  (buildTree_spec _).imp fun _ h => h.1

theorem witness_ExtractionOrder :
    let pq : List Item := ⟨1, 0, .leaf 65⟩ :: ⟨1, 1, .leaf 66⟩ :: [⟨1, 2, .leaf 256⟩]
    (pq.map Item.q).Nodup ∧ ∀ i ∈ pq, i.q < 3 := by decide

theorem witness_EmptyCountsBuildTheSentinelLeaf : ∀ b, (fresh p32 []).freqAt b = 0 := freqAt_fresh _ _

theorem witness_OneByteBuilds :
    ∀ v ∈ [1, 3], 0 < ((fresh p32 []).setFreq 0x41 v).freqAt 0x41 ∧
      ∀ c : Byte, c ≠ 0x41 → ((fresh p32 []).setFreq 0x41 v).freqAt c = 0 := by
  intro v hv
  refine ⟨?_, fun c hc => ?_⟩
  · rw [State.freqAt_setFreq, if_pos rfl]; fin_cases hv <;> decide
  · rw [State.freqAt_setFreq, if_neg hc, freqAt_fresh]

theorem witness_BuildIsOptimal :
    buildTree ((fresh p32 []).setFreq 0x41 3).freq = some treeA ∧
      List.Perm (Machine.Tree.node (.leaf 65) (.leaf 256)).symbols treeA.symbols := by decide +kernel

theorem witness_WmagicWritesTheMagic :
    (closed (fresh p32 [])).status.oclosed = true ∧
    ((fresh p32 []).status.oclosed = false ∧ (fresh p32 []).OkFor 1) ∧ (answering [.fail] (fresh p32 [])).FailsAt 0 :=
  ⟨rfl, ⟨rfl, okFor_nil rfl _⟩, fails_now _⟩

theorem witness_WtreeWritesTheHeader :
    (treed treeA []).status.treeValid = true ∧ (treed treeA []).tree = some treeA ∧
    (treed treeA []).status.oclosed = false ∧ (treed treeA []).OkFor (treeA.nodes + treeA.leaves) ∧
    1 < treeA.nodes + treeA.leaves ∧ (answering [.ok, .fail] (treed treeA [])).FailsAt 1 :=
  ⟨rfl, rfl, rfl, okFor_nil rfl _, by decide, fails_next _⟩

theorem witness_RmagicChecksTheMagic :
    (let s := fresh p32 [0xFA, 0xCE, 0x82, 0x01]
     s.inRest = msbf 32 (0xFACE8201 : Word).toNat ++ [] ∧ s.OkFor 1 ∧ (0xFACE8201 : Word) = s.params.magic) ∧
    (let s := fresh p32 [0, 0, 0, 0]
     s.inRest = msbf 32 (0 : Word).toNat ++ [] ∧ s.OkFor 1 ∧ (0 : Word) ≠ s.params.magic) ∧
    ((fresh p32 [0xFA, 0xCE, 0x82]).inRest.length < 32 ∧ (fresh p32 [0xFA, 0xCE, 0x82]).OkFor 1) ∧
    (answering [.fail] (fresh p32 [])).FailsAt 0 :=
  ⟨⟨by decide +kernel, okFor_nil rfl _, rfl⟩, ⟨by decide +kernel, okFor_nil rfl _, by decide⟩,
    ⟨by decide +kernel, okFor_nil rfl _⟩, fails_now _⟩

theorem witness_RtreeReadsTheHeader :
    TreeInv treeA ∧ (fresh p32 [0x60, 0x12, 0x08]).inRest = ser treeA ++ [false, false, false] ∧
      (fresh p32 [0x60, 0x12, 0x08]).OkFor (treeA.nodes + treeA.leaves) :=
  ⟨treeInv_treeA, by decide +kernel, okFor_nil rfl _⟩

theorem witness_RtreeRejectsBadHeaders_call :
    let c := msbf 9 256
    (headerCalls treeA)[2]? = some c ∧ ((headerCalls treeA).take 3).countP (fun b => b.length = 1) ≤ 513 ∧ c.length = 9 ∧
    ((fresh p32 [0x60]).Inv ∧
      (fresh p32 [0x60]).inRest = ((headerCalls treeA).take 2).flatten ++ [true, false, false, false, false, false] ∧
      (fresh p32 [0x60]).OkFor 3) ∧
    ((answering [.ok, .ok, .fail] (fresh p32 [0x60])).Inv ∧ (answering [.ok, .ok, .fail] (fresh p32 [0x60])).FailsAt 2) ∧
    ((fresh p32 [0x60, 0x20]).inRest =
        ((headerCalls treeA).take 2).flatten ++ (msbf 9 (257 : BitVec 9).toNat ++ [false, false, false, false, false]) ∧
      256 < (257 : BitVec 9).toNat) :=
  ⟨by decide +kernel, by decide +kernel, by decide, ⟨inv_fresh _ _, by decide +kernel, okFor_nil rfl _⟩,
    ⟨{ inv_fresh p32 [0x60] with }, by simp [State.OkFor, answering], rfl⟩, by decide +kernel, by decide⟩

/-- The chain of nodes whose first 513 calls are all control bits 0. -/
def chain : Nat → Tree
  | 0 => .leaf 0
  | n + 1 => .node (chain n) (.leaf 0)

theorem chain_calls (n : Nat) :
    ∃ l, headerCalls (chain n) = List.replicate n [false] ++ ([true] :: msbf 9 0 :: l) := by
  induction n with
  | zero => exact ⟨[], rfl⟩
  | succ n ih =>
    obtain ⟨l, hl⟩ := ih
    exact ⟨l ++ headerCalls (.leaf 0), by simp [chain, headerCalls, hl, List.replicate_succ]⟩

theorem chain_take {n k : Nat} (h : k < n) : (headerCalls (chain n)).take k = List.replicate k [false] ∧
    (headerCalls (chain n))[k]? = some [false] := by
  obtain ⟨l, hl⟩ := chain_calls n
  rw [hl]
  exact ⟨by rw [List.take_append_of_le_length (by simp; omega), List.take_replicate, Nat.min_eq_left (by omega)],
    by rw [List.getElem?_append_left (by simpa using h), List.getElem?_replicate, if_pos h]⟩

/-- The leaf that the chain's control bits lead to. -/
theorem chain_leaf (n : Nat) : (headerCalls (chain n))[n + 1]? = some (msbf 9 0) ∧
    (headerCalls (chain n)).take (n + 1) = List.replicate n [false] ++ [[true]] ∧
    ((headerCalls (chain n)).take (n + 2)).countP (fun b => b.length = 1) = n + 1 := by
  obtain ⟨l, hl⟩ := chain_calls n
  rw [hl]
  refine ⟨by simp, by simp [List.take_append], ?_⟩
  simp [List.take_append, List.countP_append, List.countP_replicate]

/-- IN = 40 bytes 00 (R130: FMT_TREE_TRUNC at INPOS 320), and 64 bytes 00, where 513 nodes have started. -/
theorem witness_RtreeRejectsBadHeaders_chain :
    ∀ m ∈ [40, 64],
      let s := fresh p32 (List.replicate m 0)
      s.Inv ∧ (headerCalls (chain 514))[8 * m]? = some [false] ∧
        ((headerCalls (chain 514)).take (8 * m + 1)).countP (fun b => b.length = 1) ≤ 513 ∧
        s.inRest = ((headerCalls (chain 514)).take (8 * m)).flatten ++ [] ∧ ([] : Bits).length < [false].length ∧
        s.OkFor (8 * m + 1) := by
  intro m hm
  have hm' : m ≤ 64 := by fin_cases hm <;> decide
  refine ⟨inv_fresh _ _, (chain_take (by omega)).2, ?_, ?_, by decide, okFor_nil rfl _⟩
  · rw [(chain_take (by omega)).1, List.countP_replicate]
    simp
    omega
  · rw [(chain_take (by omega)).1, List.flatten_replicate_singleton]
    fin_cases hm <;> decide +kernel

/-- A value field after the 513th control bit. -/
theorem witness_RtreeRejectsBadHeaders_lastLeaf :
    let s := fresh p32 (List.replicate 64 0 ++ [0x80])
    s.Inv ∧ (headerCalls (chain 512))[513]? = some (msbf 9 0) ∧
      ((headerCalls (chain 512)).take 514).countP (fun b => b.length = 1) ≤ 513 ∧
      s.inRest = ((headerCalls (chain 512)).take 513).flatten ++ List.replicate 7 false ∧
      (List.replicate 7 false).length < (msbf 9 0).length ∧ s.OkFor 514 := by
  obtain ⟨hk, ht, hc⟩ := chain_leaf 512
  refine ⟨inv_fresh _ _, hk, Nat.le_of_eq hc, ?_, by decide, okFor_nil rfl _⟩
  · rw [ht, List.flatten_append, List.flatten_replicate_singleton]; decide +kernel

theorem witness_RtreeRejectsBadHeaders_overflow :
    let s := fresh p32 (List.replicate 65 0)
    (headerCalls (chain 514))[513]? = some [false] ∧ [false].length = 1 ∧
      ((headerCalls (chain 514)).take 513).countP (fun b => b.length = 1) = 513 ∧
      s.inRest = ((headerCalls (chain 514)).take 513).flatten ++ List.replicate 7 false ∧ s.OkFor 513 := by
  obtain ⟨ht, hk⟩ := chain_take (show 513 < 514 by decide)
  refine ⟨hk, rfl, ?_, ?_, okFor_nil rfl _⟩
  · rw [ht, List.countP_replicate]; rfl
  · rw [ht, List.flatten_replicate_singleton]
    decide +kernel

theorem witness_RtreeRejectsBadHeaders_degenerate :
    (65 : Symbol) ≠ 256 ∧ (fresh p32 [0x90, 0x40]).inRest = ser (.leaf 65) ++ [false, false, false, false, false, false] ∧
      (fresh p32 [0x90, 0x40]).OkFor 2 := ⟨by decide, by decide +kernel, okFor_nil rfl _⟩

theorem witness_GencodeStoresThePaths :
    (treed treeA []).status.treeValid = true ∧ (treed treeA []).tree = some treeA := ⟨rfl, rfl⟩

theorem witness_CodesArePrefixFree :
    (genTable treeA).get 65 = some [true] ∧ [true] <+: [true] ∧ treeA.symbols.Nodup ∧ treeA.height ≤ 256 := by
  decide +kernel

theorem witness_EncsymWritesTheCode :
    (coded []).status.codeValid = true ∧ (coded []).status.oclosed = false ∧ (256 : BitVec 9).toNat < 257 ∧
    (coded []).codeAt 256 = some [false] ∧ (coded []).OkFor [false].length ∧ 0 < [false].length ∧
    (answering [.fail] (coded [])).FailsAt 0 :=
  ⟨rfl, rfl, by decide, by decide +kernel, okFor_nil rfl _, by decide, fails_now _⟩

theorem witness_EncodeWritesTheCodes_all :
    let s := coded [0x41, 0x41]
    s.Inv ∧ s.status.codeValid = true ∧ s.status.oclosed = false ∧
      codesOf s.code (s.unitsLeft.map byteSymbol) = some [true, true] ∧ s.OkFor (s.unitsLeft.length + 2 + 1) :=
  ⟨inv_coded _, rfl, rfl, by decide +kernel, okFor_nil rfl _⟩

theorem witness_EncodeWritesTheCodes_noSymbol :
    let s := coded [0x41, 0x7A]
    s.Inv ∧ s.unitsLeft = [0x41] ++ 0x7A :: [] ∧ codesOf s.code (([0x41] : List Byte).map byteSymbol) = some [true] ∧
      s.codeAt (byteSymbol 0x7A) = none ∧ s.OkFor (1 + 1 + 1) :=
  ⟨inv_coded _, by decide +kernel, by decide +kernel, by decide +kernel, okFor_nil rfl _⟩

/-- The read after the first unit's code fails. -/
theorem witness_EncodeWritesTheCodes_failedRead :
    let s := answering [.ok, .ok, .fail] (coded [0x41, 0x41])
    s.Inv ∧ s.status.codeValid = true ∧ s.status.oclosed = false ∧ s.unitsLeft = [0x41] ++ [0x41] ∧
      codesOf s.code (([0x41] : List Byte).map byteSymbol) = some [true] ∧
      s.FailsAt (([0x41] : List Byte).length + [true].length) :=
  ⟨{ inv_coded [0x41, 0x41] with }, rfl, rfl, by decide +kernel, by decide +kernel, by simp [State.OkFor, answering], rfl⟩

/-- The read at the end of IN fails. -/
theorem witness_EncodeWritesTheCodes_failedEnd :
    let s := answering [.ok, .ok, .fail] (coded [0x41])
    s.unitsLeft = [0x41] ++ [] ∧ s.FailsAt (([0x41] : List Byte).length + [true].length) :=
  ⟨by decide +kernel, by simp [State.OkFor, answering], rfl⟩

/-- The write of the second unit's code fails. -/
theorem witness_EncodeWritesTheCodes_failedWrite :
    let s := answering [.ok, .ok, .ok, .fail] (coded [0x41, 0x41])
    s.Inv ∧ s.unitsLeft = [0x41] ++ 0x41 :: [] ∧ codesOf s.code (([0x41] : List Byte).map byteSymbol) = some [true] ∧
      s.codeAt (byteSymbol 0x41) = some [true] ∧ 0 < [true].length ∧
      s.FailsAt (([0x41] : List Byte).length + [true].length + 1 + 0) :=
  ⟨{ inv_coded [0x41, 0x41] with }, by decide +kernel, by decide +kernel, by decide +kernel, by decide,
    by simp [State.OkFor, answering], rfl⟩

theorem witness_StaleCodesAreNotUsed :
    (∃ t, exec .build (coded []) = .next t) ∧ (∃ t, exec .rtree (coded []) = .next t) ∧ (256 : BitVec 9).toNat ≤ 256 :=
  ⟨next_of_inv _ (inv_coded _), next_of_inv _ (inv_coded _), by decide⟩

theorem witness_DecsymResolvesASymbol :
    ((treed treeA [0x80]).Inv ∧ (treed treeA [0x80]).tree = some treeA ∧ ((65 : Symbol), [true]) ∈ treeA.paths ∧
      (treed treeA [0x80]).inRest = [true] ++ List.replicate 7 false ∧ (treed treeA [0x80]).OkFor [true].length) ∧
    ((treed treeA []).Inv ∧ (treed treeA []).inRest <+: [true] ∧ (treed treeA []).inRest ≠ [true] ∧
      (treed treeA []).OkFor ((treed treeA []).inRest.length + 1)) ∧
    (let s := answering [.fail] (treed treeA [0x80])
     s.Inv ∧ s.inRest = [true].take 0 ++ true :: List.replicate 7 false ∧ 0 < [true].length ∧ s.FailsAt 0) :=
  ⟨⟨inv_treed treeInv_treeA _, rfl, by decide, by decide +kernel, okFor_nil rfl _⟩,
    ⟨inv_treed treeInv_treeA _, by decide +kernel, by decide +kernel, okFor_nil rfl _⟩,
    ⟨{ inv_treed treeInv_treeA [0x80] with }, by decide +kernel, by decide, fails_now _⟩⟩

theorem witness_DecodeEndsAtTheSentinel :
    let s := treed treeA [0xC0]
    let xs : List (Byte × Bits) := [(0x41, [true]), (0x41, [true])]
    s.Inv ∧ s.tree = some treeA ∧ s.status.oclosed = false ∧ (∀ a ∈ xs, (byteSymbol a.1, a.2) ∈ treeA.paths) ∧
      ((256 : Symbol), [false]) ∈ treeA.paths ∧
      s.inRest = xs.flatMap Prod.snd ++ [false] ++ List.replicate 5 false ∧
      s.OkFor ((xs.flatMap Prod.snd).length + xs.length + [false].length) :=
  ⟨inv_treed treeInv_treeA _, rfl, rfl, by decide, by decide, by decide +kernel, okFor_nil rfl _⟩

theorem witness_DecodeStopsAtAnError_truncated :
    let s := treed treeA [0xFF]
    let xs : List (Byte × Bits) := List.replicate 8 (0x41, [true])
    s.Inv ∧ s.tree = some treeA ∧ s.status.oclosed = false ∧ (∀ a ∈ xs, (byteSymbol a.1, a.2) ∈ treeA.paths) ∧
      ((65 : Symbol), [true]) ∈ treeA.paths ∧ s.inRest = xs.flatMap Prod.snd ++ [] ∧ ([] : Bits) <+: [true] ∧
      ([] : Bits) ≠ [true] ∧ s.OkFor ((xs.flatMap Prod.snd).length + xs.length + ([] : Bits).length + 1) :=
  ⟨inv_treed treeInv_treeA _, rfl, rfl, by decide, by decide, by decide +kernel, by decide, by decide, okFor_nil rfl _⟩

theorem witness_DecodeStopsAtAnError_fails :
    (let s := answering [.fail] (treed treeA [0x80])
     s.Inv ∧ 0 < [true].length ∧
      s.inRest = ([] : List (Byte × Bits)).flatMap Prod.snd ++ ([true].take 0 ++ true :: List.replicate 7 false) ∧
      s.FailsAt 0) ∧
    (let s := answering [.ok, .fail] (treed treeA [0x80])
     s.Inv ∧ (65 : Symbol) ≠ 256 ∧ ((65 : Symbol), [true]) ∈ treeA.paths ∧
      s.inRest = ([] : List (Byte × Bits)).flatMap Prod.snd ++ ([true] ++ List.replicate 7 false) ∧ s.FailsAt 1) :=
  ⟨⟨{ inv_treed treeInv_treeA [0x80] with }, by decide, by decide +kernel, fails_now _⟩,
    ⟨{ inv_treed treeInv_treeA [0x80] with }, by decide, by decide, by decide +kernel, fails_next _⟩⟩

theorem witness_DecodingInvertsEncoding :
    let s := treed treeA [0xC0]
    s.Inv ∧ buildTree ((fresh p32 []).setFreq 0x41 3).freq = some treeA ∧ s.tree = some treeA ∧
      s.status.oclosed = false ∧ s.Reliable ∧
      codesOf (genTable treeA) (([0x41, 0x41] : List Byte).map byteSymbol ++ [256]) = some [true, true, false] ∧
      s.inRest = [true, true, false] ++ List.replicate 5 false :=
  ⟨inv_treed treeInv_treeA _, by decide +kernel, rfl, rfl, reliable_nil rfl, by decide +kernel, by decide +kernel⟩

theorem witness_DecodeWithoutSentinelTruncates :
    let s := treed treeAB [0x00]
    s.Inv ∧ s.tree = some treeAB ∧ (256 : Symbol) ∉ treeAB.symbols ∧ s.status.oclosed = false ∧ s.Reliable :=
  ⟨inv_treed treeInv_treeAB _, rfl, by decide, rfl, reliable_nil rfl⟩

theorem witness_CompressWritesTheStream :
    let s := fresh p2 [0x41, 0x41, 0x41]
    s.Inv ∧ s.Reliable ∧ s.inCur = 0 ∧ s.status.oclosed = false ∧ ∀ b, s.unitsLeft.count b ≤ s.params.cntMax :=
  ⟨inv_fresh _ _, reliable_nil rfl, rfl, rfl, fun b =>
    (List.count_le_length).trans (by decide +kernel)⟩

theorem witness_CompressErrors :
    let s := answering [.fail] (fresh p2 [0x41])
    s.status.err = false ∧ (∃ t, exec .compress s = .next t) ∧ (after .compress s).status.err = true :=
  ⟨rfl, next_of_inv _ { inv_fresh p2 [0x41] with }, by decide +kernel⟩

theorem witness_DecompressReadsAStream :
    let s := fresh p32 [0xFA, 0xCE, 0x82, 0x01, 0x60, 0x12, 0x0F, 0x00]
    let xs : List (Byte × Bits) := List.replicate 3 (0x41, [true])
    s.Inv ∧ s.Reliable ∧ s.status.oclosed = false ∧ s.outBits.length % 8 = 0 ∧ TreeInv treeA ∧
      (∀ a ∈ xs, (byteSymbol a.1, a.2) ∈ treeA.paths) ∧ ((256 : Symbol), [false]) ∈ treeA.paths ∧
      s.inRest = msbf 32 s.params.magic.toNat ++ ser treeA ++ xs.flatMap Prod.snd ++ [false] ++ List.replicate 7 false :=
  ⟨inv_fresh _ _, reliable_nil rfl, rfl, rfl, treeInv_treeA, by decide, by decide, by decide +kernel⟩

theorem witness_DecompressNamesTheStage :
    let s := fresh p32 [0xFA, 0xCE, 0x82, 0x01, 0x60, 0x12, 0x0F]
    s.status.err = false ∧ s.status.errcode = none ∧ (∃ t, exec .decompress s = .next t) ∧
      (after .decompress s).status.errcode = some .fmtDataTrunc ∧
      (after .decompress (closed s)).status.errcode = some .outClosed ∧
      (after .decompress (answering [.fail] s)).status.errcode = some .ioIn ∧
      (after .decompress (answering (List.replicate 6 .ok ++ [.fail]) s)).status.errcode = some .ioIn ∧
      (after .decompress (answering (List.replicate 7 .ok ++ [.fail]) s)).status.errcode = some .ioOut ∧
      (after .decompress (answering (List.replicate 13 .ok ++ [.fail])
        (fresh p32 [0xFA, 0xCE, 0x82, 0x01, 0x60, 0x12, 0x0F, 0x00]))).status.errcode = some .ioOut ∧
      (after .decompress (fresh p32 [0xFA, 0xCE, 0x82, 0x01, 0x60, 0x12, 0x0F, 0x00])).status.err = false :=
  ⟨rfl, rfl, next_of_inv _ (inv_fresh _ _), by decide +kernel, by decide +kernel, by decide +kernel,
    by decide +kernel, by decide +kernel, by decide +kernel, by decide +kernel⟩

theorem witness_RoundTripIsLossless :
    let s := fresh p2 []
    s.Inv ∧ s.Reliable ∧ s.status.busy = false ∧ s.status.err = false ∧
      (∀ b, ([0x41, 0x41, 0x41] : List Byte).count b ≤ s.params.cntMax) ∧
      ∃ t, exec .compress (fresh p2 [0x41, 0x41, 0x41]) = .next t :=
  ⟨inv_fresh _ _, reliable_nil rfl, rfl, rfl, fun b => (List.count_le_length).trans (by decide),
    next_of_inv _ (inv_fresh _ _)⟩

theorem witness_DecompressEqualsItsSteps :
    let s := fresh p32 [0xFA, 0xCE, 0x82, 0x01, 0x60, 0x12, 0x0F, 0x00]
    s.status.err = false ∧ (∃ t, exec .decompress s = .next t) ∧ (after .decompress s).status.err = false :=
  ⟨rfl, next_of_inv _ (inv_fresh _ _), by decide +kernel⟩

theorem witness_CompressEqualsItsSteps :
    (fresh p2 [0x41, 0x42]).status.err = false ∧
      ∃ t, exec .compress (fresh p2 [0x41, 0x42]) = .next t ∧ t.status.err = false := by
  refine ⟨rfl, ?_⟩
  obtain ⟨f, tr, codes, k, S, -, -, -, h, hS⟩ := compressBody_ok (inv_fresh p2 [0x41, 0x42]) (reliable_nil rfl) rfl rfl
    fun b => (List.count_le_length).trans (by decide +kernel)
  exact ⟨_, by rw [exec_eq, bodyOf, h, Res.finish_ok], by rw [hS]; rfl⟩

end Sys2Proof.Tests
end

section
/-! The turns of a step and the host's accesses, each said once: what a step answers next (60_exceptions.md R200), what a
register access at each kind of offset does (10_state.md R45, R46; 20_memory.md R51, R52). -/

namespace Sys2Proof.Machine

/-! ### Turns -/

/-- What a step from `s` that answers `t` was (R194, R200, R205). -/
inductive StepCase (s t : State) : Prop
  | idle (hc : s.CoreNext) (hn : s.cmd = none) (ht : t = s.turnTaken)
  | command (w : Word) (i : Instr) (u : State) (hc : s.CoreNext) (hw : s.cmd = some w) (hd : decode w = .ok i)
      (hu : exec i s.turnTaken = .next u) (ht : t = u.setPasses (passesAfter i s.turnTaken u))
  | illegal (w : Word) (hc : s.CoreNext) (hw : s.cmd = some w) (hd : ∀ i, decode w ≠ .ok i)
      (ht : t = s.turnTaken.failed (fieldOpc w) .illegal)
  | host (m : HostMove) (rest : List Turn) (hs : s.script = .host m :: rest)
      (hm : hostMove m { s with script := rest } = .next t)

theorem State.coreNext_or_host (s : State) : s.CoreNext ∨ ∃ m rest, s.script = .host m :: rest := by
  match h : s.script with
  | [] => exact .inl (.inl h)
  | .core :: rest => exact .inl (.inr ⟨rest, h⟩)
  | .host m :: rest => exact .inr ⟨m, rest, rfl⟩

theorem step_cases {s t : State} (h : step s = .next t) : StepCase s t := by
  rcases s.coreNext_or_host with hc | ⟨m, rest, hs⟩
  · rw [step_core hc] at h
    unfold coreTurn at h
    split at h
    · next w hw =>
      unfold runWord at h
      split at h
      · next i hd =>
        obtain ⟨u, hu, ht⟩ := recordPass_eq_next h
        exact .command w i u hc hw hd hu ht
      · next e hd => exact .illegal w hc hw (by simp [hd]) (Host.Outcome.next.inj h).symm
    · next hn => exact .idle hc hn (Host.Outcome.next.inj h).symm
  · exact .host m rest hs (hostTurn_eq_next (step_host hs ▸ h)).1

theorem step_memWrite {s : State} {a : BitVec 12} {n : Nat} {v : Word} {rest : List Turn}
    (h : s.script = .host (.memWrite a n v) :: rest) : step s = .next (memWrite a n v { s with script := rest }) := by
  rw [step_host h, hostTurn_of_not_attaches rfl, hostMove]

theorem step_memRead {s : State} {a : BitVec 12} {n : Nat} {rest : List Turn}
    (h : s.script = .host (.memRead a n) :: rest) : step s = .next (memRead a n { s with script := rest }) := by
  rw [step_host h, hostTurn_of_not_attaches rfl, hostMove]

/-! ### The register map -/

theorem isWordAccess_four {a : BitVec 12} : isWordAccess a 4 = true ↔ a.toNat % 4 = 0 := by simp [isWordAccess]

theorem freqIndex_eq_none {a : BitVec 12} : freqIndex a = none ↔ ¬(0x400 ≤ a.toNat ∧ a.toNat < 0x800) := by
  simp [freqIndex]

theorem isRegister_eq_false {a : BitVec 12} :
    isRegister a = false ↔ 0x20 ≤ a.toNat ∧ ¬(0x400 ≤ a.toNat ∧ a.toNat < 0x800) := by
  rw [← freqIndex_eq_none]; simp [isRegister]

/-- The offset of `FREQ[b]` (R45). -/
def freqOffset (b : Byte) : BitVec 12 := BitVec.ofNat 12 (0x400 + 4 * b.toNat)

theorem freqOffset_toNat (b : Byte) : (freqOffset b).toNat = 0x400 + 4 * b.toNat := by
  have := b.isLt
  simp [freqOffset]; omega

@[simp] theorem freqIndex_freqOffset (b : Byte) : freqIndex (freqOffset b) = some b := by
  have hb := b.isLt
  have hin : 0x400 ≤ (freqOffset b).toNat ∧ (freqOffset b).toNat < 0x800 := by rw [freqOffset_toNat]; omega
  rw [freqIndex, if_pos hin, freqOffset_toNat]
  simp

theorem isWordAccess_freqOffset (b : Byte) : isWordAccess (freqOffset b) 4 = true := by
  rw [isWordAccess_four, freqOffset_toNat]; omega

/-- The named registers lie below `0x020` (10_state.md, section 3). -/
theorem regValue_of_ge {a : BitVec 12} (s : State) (h : 0x20 ≤ a.toNat) :
    regValue s a = ((freqIndex a).map fun b => BitVec.ofNat 32 (s.freqAt b)).getD 0 := by
  have hne : ∀ c : BitVec 12, c.toNat < 0x20 → a ≠ c := fun c hc e => by subst e; omega
  rw [regValue, if_neg (hne offStatus (by decide)), if_neg (hne offResult (by decide)), if_neg (hne offNleaf (by decide)),
    if_neg (hne offInpos (by decide)), if_neg (hne offOutpos (by decide)), if_neg (hne offMagic (by decide)),
    if_neg (hne offParam (by decide))]
  cases freqIndex a <;> rfl

theorem regValue_freqOffset (s : State) (b : Byte) : regValue s (freqOffset b) = BitVec.ofNat 32 (s.freqAt b) := by
  rw [regValue_of_ge s (by rw [freqOffset_toNat]; omega)]; simp

theorem regValue_reserved {a : BitVec 12} (s : State) (h : isRegister a = false) : regValue s a = 0 := by
  obtain ⟨hlow, hfreq⟩ := isRegister_eq_false.1 h
  rw [regValue_of_ge s hlow, freqIndex_eq_none.2 hfreq]; rfl

/-! ### Accesses -/

/-- An aligned read of a reserved offset, or with BUSY = 0, returns the register's value (R46, R52). -/
theorem memRead_regValue {a : BitVec 12} {s : State} (ha : isWordAccess a 4 = true)
    (h : s.status.busy = false ∨ isRegister a = false) : memRead a 4 s = { s with hostData := regValue s a } := by
  rcases h with h | h <;> simp [memRead, ha, h]

theorem memWrite_freqOffset (b : Byte) (v : Word) (s : State) : memWrite (freqOffset b) 4 v s = freqWrite b v s := by
  have hcmd : freqOffset b ≠ offCmd := fun e => by
    have := congrArg BitVec.toNat e
    rw [freqOffset_toNat] at this
    simp [offCmd] at this
  simp [memWrite, isWordAccess_freqOffset, hcmd]

/-- Only `CMD` and `FREQ` can be written (R46, R52). -/
theorem memWrite_ignored {a : BitVec 12} (n : Nat) (v : Word) (s : State) (hcmd : a ≠ offCmd) (hfreq : freqIndex a = none) :
    memWrite a n v s = s := by
  simp [memWrite, hcmd, hfreq]

/-- Everything a write can do (R45, R51, R62, R194). -/
theorem memWrite_cases (a : BitVec 12) (n : Nat) (v : Word) (s : State) :
    memWrite a n v s = s ∨ memWrite a n v s = s.setOvr ∨
    ((s.status.err = true → v = 0 ∨ v = 1) ∧ memWrite a n v s = s.accept v) ∨
    ∃ b, memWrite a n v s = (s.setFreq b (v.toNat % 2 ^ s.params.cntW)).setPasses (s.passes.overwrite b) := by
  unfold memWrite
  split
  · split
    · unfold cmdWrite
      split
      · exact .inr (.inl rfl)
      · split
        · exact .inl rfl
        · next hc => exact .inr (.inr (.inl ⟨fun he => by simpa [he, imp_iff_not_or] using hc, rfl⟩))
    · split
      · next b _ =>
        unfold freqWrite
        split
        · exact .inr (.inl rfl)
        · exact .inr (.inr (.inr ⟨b, rfl⟩))
      · exact .inl rfl
  · exact .inl rfl

/-- A read changes nothing of the core (R52, R61). -/
theorem memRead_frame (a : BitVec 12) (n : Nat) (s : State) :
    ∃ d k, memRead a n s = { s with hostData := d, draws := k } := by
  unfold memRead
  split
  · split
    · exact ⟨_, _, rfl⟩
    · exact ⟨_, _, rfl⟩
  · exact ⟨_, _, rfl⟩

end Sys2Proof.Machine
end

section
/-! The invariant across every turn (10_state.md R22 to R42; 70_reset_and_hazards.md R210). -/

namespace Sys2Proof.Machine

theorem inv_setOvr {s : State} (h : s.Inv) : s.setOvr.Inv := { h with }

/-- While ERR = 1 only NOP and CLR are accepted (R194). -/
theorem inv_acceptWord {s : State} (h : s.Inv) {w : Word} (hw : s.status.err = true → w = 0 ∨ w = 1) :
    (s.accept w).Inv :=
  { h with
    busy := rfl
    errPending := fun he v hv => by obtain rfl := Option.some.inj hv; exact hw he }

theorem inv_setPasses {s : State} (h : s.Inv) {p : Passes} (hp : p.Done) : (s.setPasses p).Inv :=
  { h with passesDone := hp }

theorem inv_attachIn {s : State} (h : s.Inv) (bytes : List Byte) : (s.attachIn bytes).Inv :=
  { h with
    cursor := Nat.zero_le _
    wholeBytes := by simp [State.attachIn]
    inpos := rfl }

theorem inv_attachOut {s : State} (h : s.Inv) : s.attachOut.Inv :=
  { h with
    closed := fun hc => by simp [State.attachOut] at hc
    outpos := fun _ => rfl }

/-- Reset meets the invariant on whatever whole bytes are attached (R48, R210). -/
theorem inv_resetInput {s : State} (h : s.inBits.length % 8 = 0) : s.resetInput.Inv where
  treeValid := rfl
  treeOk := fun t ht => by simp [State.resetInput, State.reset] at ht
  nleaf := rfl
  codeOk := fun hc => by simp [State.resetInput, State.reset, Status.reset] at hc
  codeNone := fun _ => rfl
  freqOk := fun b => by simp [State.freqAt, State.resetInput, State.reset]
  resultOk := Nat.zero_le _
  cursor := Nat.zero_le _
  wholeBytes := h
  inpos := rfl
  busy := rfl
  errCode := rfl
  errOp := fun _ => rfl
  errPending := fun _ w hw => by simp [State.resetInput, State.reset] at hw
  closed := fun hc => by simp [State.resetInput, State.reset, Status.reset] at hc
  outpos := fun _ => rfl
  passesDone := Passes.closed_done _

theorem inv_memWrite {s : State} (h : s.Inv) (a : BitVec 12) (n : Nat) (v : Word) : (memWrite a n v s).Inv := by
  rcases memWrite_cases a n v s with e | e | ⟨hv, e⟩ | ⟨b, e⟩ <;> rw [e]
  · exact h
  · exact inv_setOvr h
  · exact inv_acceptWord h hv
  · have hfit : v.toNat % 2 ^ s.params.cntW ≤ s.params.cntMax := Nat.le_pred_of_lt (Nat.mod_lt _ (by positivity))
    exact inv_setPasses (inv_freq h b _ hfit) (h.passesDone.overwrite b)

theorem inv_memRead {s : State} (h : s.Inv) (a : BitVec 12) (n : Nat) : (memRead a n s).Inv := by
  obtain ⟨d, k, e⟩ := memRead_frame a n s
  rw [e]
  exact { h with }

/-- An attach that is taken was made with BUSY = 0 (R66). -/
theorem hostMove_attachIn {bytes : List Byte} {s t : State} (h : hostMove (.attachIn bytes) s = .next t) :
    s.status.busy = false ∧ t = s.attachIn bytes := by
  cases hb : s.status.busy <;> simp [hostMove, hb] at h
  exact ⟨rfl, h.symm⟩

theorem hostMove_attachOut {s t : State} (h : hostMove .attachOut s = .next t) :
    s.status.busy = false ∧ t = s.attachOut := by
  cases hb : s.status.busy <;> simp [hostMove, hb] at h
  exact ⟨rfl, h.symm⟩

theorem inv_hostMove {m : HostMove} {s t : State} (h : s.Inv) (ht : hostMove m s = .next t) : t.Inv := by
  cases m with
  | memWrite a n v => obtain rfl := Host.Outcome.next.inj ht; exact inv_memWrite h a n v
  | memRead a n => obtain rfl := Host.Outcome.next.inj ht; exact inv_memRead h a n
  | attachIn bytes => obtain ⟨-, rfl⟩ := hostMove_attachIn ht; exact inv_attachIn h bytes
  | attachOut => obtain ⟨-, rfl⟩ := hostMove_attachOut ht; exact inv_attachOut h
  | takeOut => obtain rfl := Host.Outcome.next.inj ht; exact { h with }
  | reset => obtain rfl := Host.Outcome.next.inj ht; exact inv_resetInput h.wholeBytes

theorem inv_exec {i : Instr} {s t : State} (h : s.Inv) (ht : exec i s = .next t) : t.Inv :=
  finish_inv (body_inv i h) (exec_eq i s ▸ ht)

/-- Settles O18: each case of a step keeps the invariant. -/
theorem stepKeepsTheInvariant : Obligations.StepKeepsTheInvariant := by
  intro s t hs h
  have hi : s.turnTaken.Inv := inv_script hs _
  cases step_cases h with
  | idle _ _ ht => rw [ht]; exact hi
  | command w i u _ _ _ hu ht =>
    have huInv := inv_exec hi hu
    rw [ht]
    exact inv_setPasses huInv (passesAfter_done i huInv.passesDone).1
  | illegal w _ _ _ ht => rw [ht]; exact inv_failed hi _ _
  | host m rest _ hm => exact inv_hostMove (inv_script hs rest) hm

/-- Settles O17: `State.reset` is what the reset input makes of itself. -/
theorem resetMeetsTheInvariant : Obligations.ResetMeetsTheInvariant :=
  inv_resetInput (s := State.reset) rfl

end Sys2Proof.Machine
end

section
/-! The registers as the host sees them (10_state.md R28 to R48). -/

namespace Sys2Proof.Machine

/-! ### Accesses as steps -/

/-- A host's read of a register with BUSY = 0, or of a reserved offset (R46, R52). -/
theorem step_memRead_regValue {s : State} {a : BitVec 12} {rest : List Turn}
    (h : s.script = .host (.memRead a 4) :: rest) (ha : isWordAccess a 4 = true)
    (hb : s.status.busy = false ∨ isRegister a = false) :
    step s = .next { s with script := rest, hostData := regValue s a } :=
  (step_memRead h).trans (congrArg _ (memRead_regValue (s := { s with script := rest }) ha hb))

/-- A host's write where nothing can be written (R46, R52). -/
theorem step_memWrite_ignored {s : State} {a : BitVec 12} {v : Word} {rest : List Turn}
    (h : s.script = .host (.memWrite a 4 v) :: rest) (hcmd : a ≠ offCmd) (hfreq : freqIndex a = none) :
    step s = .next { s with script := rest } := by
  rw [step_memWrite h, memWrite_ignored 4 v _ hcmd hfreq]

/-- A host's write to `FREQ[b]` (R45). -/
theorem step_memWrite_freq {s : State} {b : Byte} {v : Word} {rest : List Turn}
    (h : s.script = .host (.memWrite (freqOffset b) 4 v) :: rest) :
    step s = .next (freqWrite b v { s with script := rest }) := by
  rw [step_memWrite h, memWrite_freqOffset]

/-- Settles O7, by the value and the effect of an access at the offset of `FREQ[b]`. -/
theorem freqRegisters : Obligations.FreqRegisters := by
  intro s b v rest
  refine ⟨fun h hb => ?_, fun h hb => ?_, fun h hb => ?_⟩
  · rw [step_memRead_regValue (a := freqOffset b) h (isWordAccess_freqOffset b) (.inl hb), regValue_freqOffset]
    rfl
  · rw [step_memWrite_freq h, freqWrite, if_neg (by simp [hb])]
    rfl
  · rw [step_memWrite_freq h, freqWrite, if_pos hb]
    rfl

/-- Settles O10: an offset in these ranges is neither `CMD` nor `FREQ` nor another register. -/
theorem reservedOffsets : Obligations.ReservedOffsets := by
  intro s a v rest hal hoff
  have hres : isRegister a = false := isRegister_eq_false.2 (by omega)
  obtain ⟨hlow, hfreq⟩ := isRegister_eq_false.1 hres
  have hcmd : a ≠ offCmd := fun e => by subst e; simp [offCmd] at hlow
  refine ⟨fun h => step_memWrite_ignored h hcmd (freqIndex_eq_none.2 hfreq), fun h => ?_⟩
  rw [step_memRead_regValue h (isWordAccess_four.2 hal) (.inr hres), regValue_reserved _ hres]

theorem regValue_status {s : State} (hb : s.status.busy = false) : regValue s offStatus = s.status.word := by
  simp [regValue, statusRead, hb]

/-- Settles O11, register by register of the map. -/
theorem registersReadAndIgnoreWrites : Obligations.RegistersReadAndIgnoreWrites := by
  intro s rest hb
  refine ⟨fun a d hmem h => ?_, fun a v hmem h => ?_⟩
  · have hval : isWordAccess a 4 = true ∧ regValue s a = d := by
      simp only [List.mem_cons, Prod.mk.injEq, List.not_mem_nil, or_false] at hmem
      rcases hmem with ⟨rfl, rfl⟩ | ⟨rfl, rfl⟩ | ⟨rfl, rfl⟩ | ⟨rfl, rfl⟩ | ⟨rfl, rfl⟩ | ⟨rfl, rfl⟩ | ⟨rfl, rfl⟩ | ⟨rfl, rfl⟩
      case inr.inl => exact ⟨rfl, regValue_status hb⟩
      all_goals exact ⟨rfl, rfl⟩
    obtain ⟨ha, rfl⟩ := hval
    exact step_memRead_regValue h ha (.inl hb)
  · simp only [List.mem_cons, List.not_mem_nil, or_false] at hmem
    rcases hmem with rfl | rfl | rfl | rfl | rfl | rfl | rfl
    all_goals exact step_memWrite_ignored h (by decide) (by decide)

/-- Settles O16, field by field of `State.reset`. -/
theorem resetValues : Obligations.ResetValues :=
  ⟨by decide, fun b => Vector.getElem_replicate b.isLt, rfl, fun x => Vector.getElem_replicate x.isLt, rfl, rfl, rfl, rfl,
    rfl, rfl, rfl, rfl⟩

/-! ### The STATUS word -/

/-- A bit of `STATUS`, with the width as the sum of the fields' (R29). -/
theorem Status.getLsbD_word (t : Status) (i : Nat) :
    t.word.getLsbD i = BitVec.getLsbD (w := 8 + 8 + 5 + 3 + 1 + 1 + 1 + 1 + 1 + 1 + 1 + 1)
      (t.errop ++ errCodeField t.errcode ++ 0#5 ++ t.dstate.code ++ 0#1 ++ BitVec.ofBool t.oclosed
        ++ BitVec.ofBool t.eos ++ BitVec.ofBool t.codeValid ++ BitVec.ofBool t.treeValid
        ++ BitVec.ofBool t.ovr ++ BitVec.ofBool t.err ++ BitVec.ofBool t.busy) i := rfl

/-- The low byte of `STATUS`: seven flags and the reserved bit 7. -/
theorem Status.getLsbD_word_low (t : Status) {i : Nat} (h : i < 8) :
    t.word.getLsbD i =
      [t.busy, t.err, t.ovr, t.treeValid, t.codeValid, t.eos, t.oclosed, false].getD i false := by
  simp only [getLsbD_word, BitVec.getLsbD_append, BitVec.getLsbD_ofBool]
  interval_cases i <;> simp

/-- The upper three bytes of `STATUS`. -/
theorem Status.getLsbD_word_high (t : Status) (k : Nat) :
    t.word.getLsbD (8 + k) =
      if k < 3 then t.dstate.code.getLsbD k else if k < 8 then false
      else if k < 16 then (errCodeField t.errcode).getLsbD (k - 8) else t.errop.getLsbD (k - 16) := by
  have h8 : k - 8 < 8 ↔ k < 16 := by omega
  have h5 : k - 3 < 5 ↔ k < 8 := by omega
  simp only [getLsbD_word, BitVec.getLsbD_append]
  simp [Nat.sub_sub, h8, h5]

theorem errCodeField_eq (e : Option Err) : errCodeField e = (e.map Err.code).getD 0 := by cases e <;> rfl

/-- Settles O13, from the bits of the low byte and of the three bytes above it. -/
theorem statusLayout : Obligations.StatusLayout := by
  refine ⟨fun t => ?_, by decide, by decide⟩
  have low : ∀ {i} (h : i < 8), t.word.getLsbD i = _ := fun h => t.getLsbD_word_low h
  refine ⟨low (by decide), low (by decide), low (by decide), low (by decide), low (by decide), low (by decide),
    low (by decide), low (by decide), ?_, ?_, ?_, ?_⟩
  all_goals
    apply BitVec.eq_of_getLsbD_eq
    intro i hi
    simp only [BitVec.getLsbD_extractLsb', hi, decide_true, Bool.true_and]
  · rw [t.getLsbD_word_high, if_pos hi]
  · rw [show 11 + i = 8 + (3 + i) by omega, t.getLsbD_word_high, if_neg (by omega), if_pos (by omega)]
    simp
  · rw [show 16 + i = 8 + (8 + i) by omega, t.getLsbD_word_high, if_neg (by omega), if_neg (by omega), if_pos (by omega),
      Nat.add_sub_cancel_left, errCodeField_eq]
  · rw [show 24 + i = 8 + (16 + i) by omega, t.getLsbD_word_high, if_neg (by omega), if_neg (by omega), if_neg (by omega),
      Nat.add_sub_cancel_left]
end Sys2Proof.Machine
end

section
/-! What each command changes and what it leaves (10_state.md R22 to R42), from one lemma that says which updates each
command makes. -/

namespace Sys2Proof

/-- The commands that change `FREQ`, but for CLR (R100, R101, R170). -/
def Instr.counts : Instr → Bool
  | .cntsym _ | .count | .compress => true
  | .nop | .clr | .rewind | .close | .build | .wmagic | .wtree | .rmagic | .rtree | .gencode | .encsym _ | .encode
  | .decsym | .decode | .decompress => false

/-- The commands that change `TREE`, but for CLR (R24, R110, R130, R170, R171). -/
def Instr.setsTree (i : Instr) : Bool := i ∈ [.build, .rtree, .compress, .decompress]

/-- The commands that change `CODE`, but for CLR (R26, R140). -/
def Instr.setsCode (i : Instr) : Bool := i.setsTree || i = .gencode

/-- The commands that change `RESULT` and `EOS`, but for CLR (R35, R39, R161, R162, R171). -/
def Instr.resolves (i : Instr) : Bool := i ∈ [.decsym, .decode, .decompress]

/-- The commands that change `DSTATE`, but for CLR (R37). -/
def Instr.setsDState (i : Instr) : Bool := i.resolves || i = .rmagic || i = .rtree

end Sys2Proof

namespace Sys2Proof.Machine

/-- `P` is kept by the updates the command `i` makes, where those of a table or a field of decoding are asked only of the
commands that make them. -/
structure KeptBy (i : Instr) (P : State → Prop) : Prop extends KeptByIn P, KeptByOut P where
  close     : ∀ t, P t → t.status.oclosed = false → P t.closeOut
  setFreq   : i.counts = true → ∀ t b v, P t → P (t.setFreq b v)
  clearFreq : i.counts = true → ∀ t, P t → P t.clearFreq
  storeTree : i.setsTree = true → ∀ t tr, P t → P (t.storeTree tr)
  dropTree  : i.setsTree = true → ∀ t, P t → P t.dropTree
  storeCode : i.setsCode = true → ∀ t c, P t → P (t.storeCode c)
  dropCode  : i.setsCode = true → ∀ t, P t → P t.dropCode
  setEos    : i.resolves = true → ∀ t b, P t → P (t.setEos b)
  setResult : i.resolves = true → ∀ t x, P t → P (t.setResult x)
  setDState : i.setsDState = true → ∀ t d, P t → P (t.setDState d)

namespace KeptBy

variable {i : Instr} {P : State → Prop} {s : State}

theorem count (h : KeptBy i P) (hi : i.counts = true) (hs : P s) : (countBody s).Ends P :=
  countLoop_ends h.toKeptByIn (fun t b ht _ => h.setFreq hi t b _ ht) _ hs

theorem build (h : KeptBy i P) (hi : i.setsTree = true) (hs : P s) : (buildBody s).Ends P :=
  buildBody_ends hs fun t tr ht _ => h.dropCode (by simp [Instr.setsCode, hi]) _ (h.storeTree hi t tr ht)

theorem gencode (h : KeptBy i P) (hi : i.setsCode = true) (hs : P s) : (gencodeBody s).Ends P :=
  gencodeBody_ends hs fun _ _ => h.storeCode hi _ _ hs

theorem closeOut (h : KeptBy i P) (hs : P s) : (closeBody s).Ends P := closeBody_ends h.toKeptByIn.calls h.close hs

theorem rmagic (h : KeptBy i P) (hi : i.setsDState = true) (hs : P s) : (rmagicBody s).Ends P :=
  rmagicBody_ends h.toKeptByIn (h.setDState hi) hs

theorem rtree (h : KeptBy i P) (ht : i.setsTree = true) (hd : i.setsDState = true) (hs : P s) : (rtreeBody s).Ends P :=
  rtreeBody_ends h.toKeptByIn
    (h.dropCode (by simp [Instr.setsCode, ht]) _ (h.dropTree ht _ (h.setDState hd _ _ hs)))
    (fun t tr hQ _ => h.setDState hd _ _ (h.storeTree ht t tr hQ)) fun _ hQ => hQ

theorem startDecode (h : KeptBy i P) (hi : i.resolves = true) (t : State) (ht : P t) : P t.startDecode :=
  h.setDState (by simp [Instr.setsDState, hi]) _ _ (h.setEos hi _ _ ht)

theorem endDecode (h : KeptBy i P) (hi : i.resolves = true) (t : State) (ht : P t) : P t.endDecode :=
  h.setDState (by simp [Instr.setsDState, hi]) _ _ (h.setEos hi _ _ ht)

theorem decode (h : KeptBy i P) (hi : i.resolves = true) (hs : P s) : (decodeBody s).Ends P :=
  decodeBody_ends h.toKeptByIn h.toKeptByOut (h.startDecode hi) (h.endDecode hi) (h.setResult hi) hs

/-- Every command but CLR makes only the updates of its rule. -/
theorem body (h : KeptBy i P) (hi : i ≠ .clr) (hs : P s) : (bodyOf i s).Ends P := by
  have kin := h.toKeptByIn
  have kout := h.toKeptByOut
  cases i with
  | nop => exact hs
  | clr => exact absurd rfl hi
  | rewind => exact rewindBody_ends kin hs
  | close => exact h.closeOut hs
  | cntsym b => exact cntsymBody_ends hs (fun t b ht _ => h.setFreq rfl t b _ ht) b
  | count => exact h.count rfl hs
  | build => exact h.build rfl hs
  | wmagic => exact wmagicBody_ends kout hs
  | wtree => exact wtreeBody_ends kout hs
  | rmagic => exact h.rmagic rfl hs
  | rtree => exact h.rtree rfl rfl hs
  | gencode => exact h.gencode rfl hs
  | encsym a => exact encsymArgBody_ends kout a hs
  | encode => exact encodeBody_ends kin kout hs
  | decsym => exact decsymBody_ends kin (h.startDecode rfl) (h.endDecode rfl) (h.setResult rfl) hs
  | decode => exact h.decode rfl hs
  | compress =>
    exact ((((((((h.count rfl (h.clearFreq rfl _ hs)).then fun _ => h.build rfl).then fun _ => rewindBody_ends kin).then
      fun _ => wmagicBody_ends kout).then fun _ => wtreeBody_ends kout).then fun _ => h.gencode rfl).then
      fun _ => encodeBody_ends kin kout).then fun _ => encsymBody_ends kout _).then fun _ => h.closeOut
  | decompress =>
    exact (((h.rmagic rfl (h.setEos rfl _ _ hs)).then fun _ => h.rtree rfl rfl).then fun _ => h.decode rfl).then
      fun _ => h.closeOut

end KeptBy

/-! ### Tables, result and stage -/

/-- What `i` leaves of `s` in `t`: the tables and fields that no update of `i` names. -/
structure TablesKept (i : Instr) (s t : State) : Prop where
  freq    : i.counts = false → t.freq = s.freq
  tree    : i.setsTree = false → t.tree = s.tree ∧ t.nleaf = s.nleaf ∧ t.status.treeValid = s.status.treeValid
  code    : i.setsCode = false → t.code = s.code ∧ t.status.codeValid = s.status.codeValid
  result  : i.resolves = false → t.result = s.result ∧ t.status.eos = s.status.eos
  dstate  : i.setsDState = false → t.status.dstate = s.status.dstate

theorem keptBy_tablesKept (i : Instr) (s : State) : KeptBy i (TablesKept i s) where
  calls _ h := { h with }
  seek _ _ h _ := { h with }
  append _ _ h _ := { h with }
  close _ h _ := { h with }
  setFreq hi _ _ _ h := { h with freq := fun hf => by simp [hi] at hf }
  clearFreq hi _ h := { h with freq := fun hf => by simp [hi] at hf }
  storeTree hi _ _ h := { h with tree := fun hf => by simp [hi] at hf }
  dropTree hi _ h := { h with tree := fun hf => by simp [hi] at hf }
  storeCode hi _ _ h := { h with code := fun hf => by simp [hi] at hf }
  dropCode hi _ h := { h with code := fun hf => by simp [hi] at hf }
  setEos hi _ _ h := { h with result := fun hf => by simp [hi] at hf }
  setResult hi _ _ h := { h with result := fun hf => by simp [hi] at hf }
  setDState hi _ _ h := { h with dstate := fun hf => by simp [hi] at hf }

theorem exec_tablesKept {i : Instr} {s t : State} (hi : i ≠ .clr) (h : exec i s = .next t) : TablesKept i s t := by
  have hs : TablesKept i s s := ⟨fun _ => rfl, fun _ => ⟨rfl, rfl, rfl⟩, fun _ => ⟨rfl, rfl⟩, fun _ => ⟨rfl, rfl⟩, fun _ => rfl⟩
  rw [exec_eq] at h
  obtain ⟨u, hu, rfl | ⟨e, rfl⟩⟩ := ((keptBy_tablesKept i s).body hi hs).finish h
  · exact { hu with }
  · exact { hu with }

/-- Settles O22: no command but CLR makes an update that its rule does not name, and CLR is in every list. -/
theorem tablesChangeOnlyByTheirCommands : Obligations.TablesChangeOnlyByTheirCommands := by
  intro i s t h
  by_cases hi : i = .clr
  · subst hi; simp
  · have hk := exec_tablesKept hi h
    refine ⟨fun hc hl => hk.freq ?_, fun hl => hk.tree ?_, fun hl => hk.code ?_, fun hl => hk.result ?_,
      fun hl => hk.dstate ?_⟩
    · cases i <;> simp_all [Instr.counts]
    · simp_all [Instr.setsTree]
    · simp_all [Instr.setsCode, Instr.setsTree]
    · simp_all [Instr.resolves]
    · simp_all [Instr.setsDState, Instr.resolves]

/-! ### The environment -/

/-- The fields of the environment, and OVR, as they were in `s` (R28, R32, R43, R44, R53, log 19). -/
structure EnvironmentKept (s t : State) : Prop where
  params   : t.params = s.params
  inBits   : t.inBits = s.inBits
  script   : t.script = s.script
  hostData : t.hostData = s.hostData
  hostOut  : t.hostOut = s.hostOut
  passes   : t.passes = s.passes
  ovrSeen  : t.ovrSeen = s.ovrSeen
  ovr      : t.status.ovr = s.status.ovr

theorem EnvironmentKept.refl (s : State) : EnvironmentKept s s := ⟨rfl, rfl, rfl, rfl, rfl, rfl, rfl, rfl⟩

theorem kept_environmentKept (s : State) : Kept (EnvironmentKept s) where
  calls _ _ h := { h with }
  seek _ _ h := { h with }
  app _ _ h _ := { h with }
  close _ h _ := { h with }
  freq _ _ _ h := { h with }
  clearF _ h := { h with }
  store _ _ h := { h with }
  dropT _ h := { h with }
  storeC _ _ h := { h with }
  dropC _ h := { h with }
  eos _ _ h := { h with }
  dst _ _ h := { h with }
  res _ _ h := { h with }

theorem exec_environmentKept {i : Instr} {s t : State} (hi : i ≠ .clr) (h : exec i s = .next t) : EnvironmentKept s t := by
  obtain ⟨u, hu, rfl | ⟨e, rfl⟩⟩ := exec_kept (kept_environmentKept s) i hi (.refl s) h
  · exact { hu with }
  · exact { hu with }

/-- Settles O21: no update of a command touches these fields, and CLR's own state shows them. -/
theorem commandsKeepTheEnvironment : Obligations.CommandsKeepTheEnvironment := by
  intro i s t h
  by_cases hi : i = .clr
  · subst hi
    obtain rfl := Host.Outcome.next.inj h
    exact ⟨rfl, rfl, rfl, rfl, rfl, rfl, rfl, rfl, rfl, fun hne => absurd rfl hne⟩
  · obtain ⟨hparams, hbits, hscript, hdata, hout, hpasses, hseen, hovr⟩ := exec_environmentKept hi h
    obtain ⟨hbusy, hcmd⟩ := finish_notbusy (exec_eq i s ▸ h)
    exact ⟨hparams, hbits, hscript, hdata, hout, hpasses, hseen, hbusy, hcmd, fun _ => hovr⟩

/-! ### OUT -/

/-- How OUT may have changed from `s` to `t`: appended to while open, or closed (R36, R56, R58). -/
structure OutGrows (s t : State) : Prop where
  isPrefix : s.outBits <+: t.outBits
  ofClosed : s.status.oclosed = true → t.outBits = s.outBits ∧ t.outpos = s.outpos ∧ t.status.oclosed = true
  ofOpen   : t.status.oclosed = false → s.status.oclosed = false ∧
    t.outpos = s.outpos + BitVec.ofNat 32 (t.outBits.length - s.outBits.length)

theorem OutGrows.refl (s : State) : OutGrows s s := ⟨List.prefix_refl _, fun h => ⟨rfl, rfl, h⟩, fun h => ⟨h, by simp⟩⟩

theorem OutGrows.appendOut {s t : State} (h : OutGrows s t) (bs : Bits) (ho : t.status.oclosed = false) :
    OutGrows s (t.appendOut bs) := by
  obtain ⟨hso, hpos⟩ := h.ofOpen ho
  have hle := h.isPrefix.length_le
  refine ⟨h.isPrefix.trans (List.prefix_append _ _), fun hc => by simp [hso] at hc, fun _ => ⟨hso, ?_⟩⟩
  show t.outpos + BitVec.ofNat 32 bs.length = s.outpos + BitVec.ofNat 32 ((t.outBits ++ bs).length - s.outBits.length)
  rw [hpos, BitVec.add_assoc, ← BitVec.ofNat_add, List.length_append, Nat.sub_add_comm hle]

theorem OutGrows.closeOut {s t : State} (h : OutGrows s t) (ho : t.status.oclosed = false) : OutGrows s t.closeOut where
  isPrefix := h.isPrefix.trans (List.prefix_append _ _)
  ofClosed hc := by simp [(h.ofOpen ho).1] at hc
  ofOpen hc := by simp at hc

theorem kept_outGrows (s : State) : Kept (OutGrows s) where
  calls _ _ h := { h with }
  seek _ _ h := { h with }
  app _ bs h ho := h.appendOut bs ho
  close _ h ho := h.closeOut ho
  freq _ _ _ h := { h with }
  clearF _ h := { h with }
  store _ _ h := { h with }
  dropT _ h := { h with }
  storeC _ _ h := { h with }
  dropC _ h := { h with }
  eos _ _ h := { h with }
  dst _ _ h := { h with }
  res _ _ h := { h with }

theorem exec_outGrows {i : Instr} {s t : State} (h : exec i s = .next t) : OutGrows s t := by
  by_cases hi : i = .clr
  · subst hi
    obtain rfl := Host.Outcome.next.inj h
    exact { OutGrows.refl s with }
  · obtain ⟨u, hu, rfl | ⟨e, rfl⟩⟩ := exec_kept (kept_outGrows s) i hi (.refl s) h
    · exact { hu with }
    · exact { hu with }

/-- Settles O24. Every update of OUT is made while it is open, so it appends or closes. -/
theorem outputIsAppendOnly : Obligations.OutputIsAppendOnly := by
  intro i s t h
  obtain ⟨hprefix, hclosed, hopen⟩ := exec_outGrows h
  exact ⟨hprefix, hclosed, hopen⟩

/-! ### The first error -/

/-- The error fields of `t` are those of `s` (R38). -/
def SameError (s t : State) : Prop :=
  t.status.err = s.status.err ∧ t.status.errcode = s.status.errcode ∧ t.status.errop = s.status.errop

/-- No move of the host but reset touches the error fields (R197). -/
theorem hostMove_sameError {m : HostMove} {s t : State} (h : hostMove m s = .next t) (hm : m ≠ .reset) : SameError s t := by
  cases m with
  | memWrite a n v =>
    obtain rfl := Host.Outcome.next.inj h
    rcases memWrite_cases a n v s with e | e | ⟨-, e⟩ | ⟨b, e⟩ <;> rw [e] <;> exact ⟨rfl, rfl, rfl⟩
  | memRead a n =>
    obtain rfl := Host.Outcome.next.inj h
    obtain ⟨d, k, e⟩ := memRead_frame a n s
    rw [e]; exact ⟨rfl, rfl, rfl⟩
  | attachIn bytes => obtain ⟨-, rfl⟩ := hostMove_attachIn h; exact ⟨rfl, rfl, rfl⟩
  | attachOut => obtain ⟨-, rfl⟩ := hostMove_attachOut h; exact ⟨rfl, rfl, rfl⟩
  | takeOut => obtain rfl := Host.Outcome.next.inj h; exact ⟨rfl, rfl, rfl⟩
  | reset => exact absurd rfl hm

/-- The words of NOP and CLR, the two the Core accepts while ERR = 1 (R82, R194). -/
theorem decode_nop_word : decode 0 = .ok .nop := rfl
theorem decode_clr_word : decode 1 = .ok .clr := rfl

/-- Settles O25: while ERR = 1 the pending word is NOP or CLR. -/
theorem firstErrorIsKept : Obligations.FirstErrorIsKept := by
  intro s t hi he h
  have keeps : SameError s t → t.status.err = true ∧ t.status.errcode = s.status.errcode ∧
      t.status.errop = s.status.errop := fun ⟨herr, hcode, hop⟩ => ⟨herr.trans he, hcode, hop⟩
  cases step_cases h with
  | idle _ _ ht => subst ht; exact .inl (keeps ⟨rfl, rfl, rfl⟩)
  | command w i u hc hw hd hu ht =>
    subst ht
    rcases hi.errPending he w hw with rfl | rfl
    · obtain rfl := Except.ok.inj (decode_nop_word.symm.trans hd)
      obtain rfl := Host.Outcome.next.inj hu
      exact .inl (keeps ⟨rfl, rfl, rfl⟩)
    · obtain rfl := Except.ok.inj (decode_clr_word.symm.trans hd)
      obtain rfl := Host.Outcome.next.inj hu
      exact .inr (.inl ⟨hw, hc, rfl⟩)
  | illegal w _ hw hd _ =>
    rcases hi.errPending he w hw with rfl | rfl
    · exact absurd decode_nop_word (hd _)
    · exact absurd decode_clr_word (hd _)
  | host m rest hs hm =>
    by_cases hr : m = .reset
    · subst hr
      obtain rfl := Host.Outcome.next.inj hm
      exact .inr (.inr ⟨rest, hs, rfl⟩)
    · exact .inl (keeps (hostMove_sameError (s := { s with script := rest }) hm hr))

end Sys2Proof.Machine
end

section
/-! Which errors the sub-steps of DECOMPRESS raise, and in which stage (10_state.md R37; 46_drivers.md R171). -/

namespace Sys2Proof.Machine

/-! ### The errors of each sub-step -/

section
variable {P : State → Prop} {Q : Err → State → Prop} {s : State}

theorem readLeaf_sat (hk : KeptByIn P) (hs : P s) (hio : ∀ t, P t → Q .ioIn t) (htrunc : ∀ t, P t → Q .fmtTreeTrunc t)
    (hsym : ∀ t, P t → Q .fmtTreeSym t) : Sat (readLeaf s) P Q := by
  refine (readOr_sat hk hs hio htrunc).bind fun v t ht => ?_
  cases symbolOf v with
  | some x => exact ht
  | none => exact hsym t ht

/-- Reading a tree raises `IO_IN`, `FMT_TREE_TRUNC`, `FMT_TREE_SYM` or `FMT_TREE_OVF` (R130 to R132). -/
theorem readTree_sat (hk : KeptByIn P) (hio : ∀ t, P t → Q .ioIn t) (htrunc : ∀ t, P t → Q .fmtTreeTrunc t)
    (hsym : ∀ t, P t → Q .fmtTreeSym t) (hovf : ∀ t, P t → Q .fmtTreeOvf t) (depth n : Nat) (hs : P s) :
    Sat (readTree depth n s) P Q := by
  induction depth generalizing n s with
  | zero => exact hovf s hs
  | succ depth ih =>
    rw [readTree]
    split
    · exact hovf s hs
    · refine (readOr_sat hk hs hio htrunc).bind fun c t ht => ?_
      split
      · exact (ih _ ht).bind fun _ u hu => (ih _ hu).bind fun _ v hv => hv
      · exact (readLeaf_sat hk ht hio htrunc hsym).bind fun _ u hu => hu

theorem walk_sat (hk : KeptByIn P) (hio : ∀ t, P t → Q .ioIn t) (htrunc : ∀ t, P t → Q .fmtDataTrunc t) (t : Tree)
    (hs : P s) : Sat (walk t s) P Q := by
  induction t generalizing s with
  | leaf x => exact hs
  | node l r hl hr =>
    refine (readOr_sat hk hs hio htrunc).bind fun c u hu => ?_
    split
    · exact hl hu
    · exact hr hu

/-- The loop of DECODE ends with the sentinel resolved, or raises `IO_IN`, `FMT_DATA_TRUNC` or `IO_OUT` (R162). -/
theorem decodeLoop_sat {P' : State → Prop} (hin : KeptByIn P) (hout : KeptByOut P)
    (hres : ∀ t x, P t → P (t.setResult x)) (hend : ∀ t, P t → t.status.oclosed = false → P' t.endDecode)
    (hio : ∀ t, P t → Q .ioIn t) (htrunc : ∀ t, P t → Q .fmtDataTrunc t) (hwrite : ∀ t, P t → Q .ioOut t)
    (t : Tree) (fuel : Nat) (hs : P s) (ho : s.status.oclosed = false) : Sat (decodeLoop t fuel s) P' Q := by
  induction fuel generalizing s with
  | zero => trivial
  | succ fuel ih =>
    rw [decodeLoop]
    refine (walk_sat hin.andOpen (fun u hu => hio u hu.1) (fun u hu => htrunc u hu.1) t ⟨hs, ho⟩).bind fun x u hu => ?_
    have hures := hres u x hu.1
    simp only
    split
    · exact hend _ hures hu.2
    · exact (writeOr_sat hout hures hu.2 hwrite).then fun v hv => ih hv.1 hv.2

/-- An open OUT is closed, or the close raises `IO_OUT` (R183). -/
theorem closeBody_cases (ho : s.status.oclosed = false) :
    closeBody s = .ok () (s.afterCalls 1).closeOut ∨ closeBody s = .raise .ioOut (s.afterCalls 1) := by
  rw [closeBody, ho, raiseIf_false, outClose, State.takeAnswer_eq]
  cases s.answers.headD .ok
  · exact .inl rfl
  · exact .inr rfl

end

/-! ### The stages of DECOMPRESS -/

/-- The stages in which DECOMPRESS can raise an error (R37, R171). -/
def Err.stages : Err → List DState
  | .fmtMagicShort | .fmtMagicBad => [.expectMagic]
  | .fmtTreeTrunc | .fmtTreeSym | .fmtTreeOvf | .fmtTreeDegen => [.readHeader]
  | .fmtDataTrunc | .outClosed => [.decode]
  | .ioIn => [.expectMagic, .readHeader, .decode]
  | .ioOut => [.decode, .done]
  | .illegal | .noTree | .noCode | .noSymbol | .countOvf => []

/-- DECOMPRESS, started in `s` without an error, is in the stage `d`. -/
structure InStage (s : State) (d : DState) (t : State) : Prop where
  oclosed : t.status.oclosed = s.status.oclosed
  errcode : t.status.errcode = none
  dstate  : t.status.dstate = d

/-- DECOMPRESS, started in `s`, raises `e` in one of its stages, OUT neither closed nor opened. -/
def FailsInStage (s : State) (e : Err) (t : State) : Prop :=
  t.status.oclosed = s.status.oclosed ∧ t.status.dstate ∈ e.stages

section
variable {s t : State} {d : DState}

theorem InStage.fails (h : InStage s d t) {e : Err} (he : d ∈ e.stages) : FailsInStage s e t :=
  ⟨h.oclosed, h.dstate ▸ he⟩

theorem InStage.setDState (h : InStage s d t) (d' : DState) : InStage s d' (t.setDState d') := ⟨h.oclosed, h.errcode, rfl⟩

theorem keptByIn_inStage (s : State) (d : DState) : KeptByIn (InStage s d) :=
  ⟨fun _ h => { h with }, fun _ _ h _ => { h with }⟩

theorem keptByOut_inStage (s : State) (d : DState) : KeptByOut (InStage s d) :=
  ⟨fun _ h => { h with }, fun _ _ h _ => { h with }⟩

theorem rmagicBody_stage (h : InStage s d t) : Sat (rmagicBody t) (InStage s .readHeader) (FailsInStage s) := by
  have hin := keptByIn_inStage s .expectMagic
  refine (readOr_sat hin (h.setDState _) (fun _ hu => hu.fails (by decide)) fun _ hu => hu.fails (by decide)).bind
    fun v u hu => ?_
  exact Sat.raiseIf (hu.fails (by decide)) fun _ => hu.setDState _

/-- RTREE ends with a stored tree in the stage DECODE (R130). -/
theorem rtreeBody_stage (h : InStage s d t) :
    Sat (rtreeBody t) (fun u => InStage s .decode u ∧ u.status.treeValid = true ∧ u.tree.isSome) (FailsInStage s) := by
  have hstart : InStage s .readHeader ((t.setDState .readHeader).dropTree.dropCode) := { h.setDState .readHeader with }
  refine (readTree_sat (keptByIn_inStage s .readHeader) (fun _ hu => hu.fails (by decide)) (fun _ hu => hu.fails (by decide))
    (fun _ hu => hu.fails (by decide)) (fun _ hu => hu.fails (by decide)) _ _ hstart).bind fun tn u hu => ?_
  exact Sat.raiseIf (hu.fails (by decide)) fun _ => ⟨⟨hu.oclosed, hu.errcode, rfl⟩, rfl, rfl⟩

/-- DECODE ends in the stage DONE with EOS set, and OUT was open (R162). -/
theorem decodeBody_stage (h : InStage s .decode t) (hv : t.status.treeValid = true) (ht : t.tree.isSome) :
    Sat (decodeBody t) (fun u => InStage s .done u ∧ u.status.eos = true ∧ u.status.oclosed = false) (FailsInStage s) := by
  refine withTree_sat hv ht fun tr _ => Sat.raiseIf (h.fails (by decide)) fun ho => ?_
  have hstart : InStage s .decode t.startDecode := { h with dstate := rfl }
  exact decodeLoop_sat (keptByIn_inStage s .decode) (keptByOut_inStage s .decode) (fun _ _ hu => { hu with })
    (fun _ hu ho => ⟨{ hu with dstate := rfl }, rfl, ho⟩) (fun _ hu => hu.fails (by decide)) (fun _ hu => hu.fails (by decide))
    (fun _ hu => hu.fails (by decide)) tr _ hstart ho

/-- DECOMPRESS ends in the stage DONE with EOS set and OUT closed, or names the stage it fails in (R171). -/
theorem decompressBody_stage (hc : s.status.errcode = none) :
    Sat (decompressBody s)
      (fun u => u.status.errcode = none ∧ u.status.dstate = .done ∧ u.status.eos = true ∧ u.status.oclosed = true)
      (FailsInStage s) := by
  have hstart : InStage s s.status.dstate (s.setEos false) := ⟨rfl, hc, rfl⟩
  refine (((rmagicBody_stage hstart).then fun _ h => rtreeBody_stage h).then
    fun _ ⟨hstage, hvalid, htree⟩ => decodeBody_stage hstage hvalid htree).then fun u ⟨hstage, heos, hopen⟩ => ?_
  rcases closeBody_cases hopen with e | e <;> rw [e]
  · exact ⟨hstage.errcode, hstage.dstate, heos, rfl⟩
  · exact ⟨hstage.oclosed, by rw [State.afterCalls_status, hstage.dstate]; decide⟩

end

/-- Settles O57: on success by the stage DONE, on an error by the stages its code names. -/
theorem decompressNamesTheStage : Obligations.DecompressNamesTheStage := by
  intro s t _ hcode h
  have hb := decompressBody_stage hcode
  rcases Res.finish_eq_next (exec_eq .decompress s ▸ h) with ⟨u, hu, rfl⟩ | ⟨e, u, hu, rfl⟩ <;>
    rw [show decompressBody s = _ from hu] at hb
  · obtain ⟨hnone, hdone, heos, hclosed⟩ := hb
    exact ⟨fun _ => ⟨hdone, heos, hclosed⟩, fun e he => absurd (hnone.symm.trans he) (by simp)⟩
  · obtain ⟨hsame, hstage⟩ := hb
    refine ⟨fun herr => absurd herr (by simp [State.failed]), fun e' he => ?_⟩
    obtain rfl := Option.some.inj he
    refine ⟨rfl, hsame, ?_⟩
    cases e <;> simp_all [Err.stages, State.failed]

end Sys2Proof.Machine
end

section
/-! The host's accesses while BUSY = 1, and those that are no word accesses (20_memory.md R51, R61, R62). -/

namespace Sys2Proof.Machine

/-- Whether a write to an aligned offset has an effect: `CMD` and the `FREQ` registers (R46, R52). -/
def isWritable (a : BitVec 12) : Bool := a = offCmd || (freqIndex a).isSome

theorem isWritable_iff {a : BitVec 12} : isWritable a = true ↔ a.toNat = 0 ∨ (0x400 ≤ a.toNat ∧ a.toNat < 0x800) := by
  have hcmd : a = offCmd ↔ a.toNat = 0 := BitVec.toNat_eq
  have hfreq : (freqIndex a).isSome = true ↔ 0x400 ≤ a.toNat ∧ a.toNat < 0x800 := by
    rw [← not_iff_not, ← freqIndex_eq_none, Option.not_isSome_iff_eq_none]
  rw [isWritable, Bool.or_eq_true, decide_eq_true_iff, hcmd, hfreq]

/-- While BUSY = 1 a write sets OVR where it would have had an effect (R62). -/
theorem memWrite_of_busy {s : State} (hb : s.status.busy = true) (a : BitVec 12) (n : Nat) (v : Word) :
    memWrite a n v s = if isWordAccess a n && isWritable a then s.setOvr else s := by
  unfold memWrite isWritable
  cases isWordAccess a n
  · rfl
  · by_cases hcmd : a = offCmd
    · simp [hcmd, cmdWrite, hb]
    · cases freqIndex a <;> simp [hcmd, freqWrite, hb]

/-- Settles O8, by what a write does while BUSY. -/
theorem writesWhileBusyAreDropped : Obligations.WritesWhileBusyAreDropped := by
  intro s a v rest h hb hal
  have hw := memWrite_of_busy (s := { s with script := rest }) hb a 4 v
  rw [isWordAccess_four.2 hal, Bool.true_and] at hw
  rw [step_memWrite h, hw]
  refine ⟨fun ha => ?_, fun h0 hfreq => ?_⟩
  · rw [if_pos (isWritable_iff.2 ha)]; rfl
  · rw [if_neg (isWritable_iff.not.2 (by tauto))]

theorem isWordAccess_eq_false {a : BitVec 12} {n : Nat} : isWordAccess a n = false ↔ n ≠ 4 ∨ a.toNat % 4 ≠ 0 := by
  simp [isWordAccess, imp_iff_not_or]

/-- Settles O9: such an access is none of the cases of `MemWrite` and `MemRead`. -/
theorem otherAccessesAreIgnored : Obligations.OtherAccessesAreIgnored := by
  intro s a n v rest hacc
  have hno := isWordAccess_eq_false.2 hacc
  refine ⟨fun h => ?_, fun h => ?_⟩
  · rw [step_memWrite h, memWrite, hno]; rfl
  · rw [step_memRead h, memRead, hno]; rfl

/-! ### Reads while BUSY -/

/-- Changing OVR changes bit 2 of `STATUS` alone (R29). -/
theorem Status.getLsbD_word_ovr (t : Status) (b : Bool) {k : Nat} (hk : k ≠ 2) :
    ({ t with ovr := b } : Status).word.getLsbD k = t.word.getLsbD k := by
  rcases Nat.lt_or_ge k 8 with h | h
  · rw [getLsbD_word_low _ h, getLsbD_word_low _ h]
    rcases Nat.lt_or_gt_of_ne hk with h2 | h2 <;> interval_cases k <;> rfl
  · obtain ⟨j, rfl⟩ := Nat.exists_eq_add_of_le h
    rw [getLsbD_word_high, getLsbD_word_high]

/-- `STATUS` can be read also while BUSY (R61). -/
theorem step_memRead_status {s : State} {rest : List Turn} (h : s.script = .host (.memRead offStatus 4) :: rest) :
    step s = .next { s with script := rest, hostData := statusRead s } := by
  have hreg : memRead offStatus 4 { s with script := rest } = { s with script := rest, hostData := statusRead s } := by
    rw [memRead, if_pos (by decide), if_neg (by simp)]; rfl
  rw [step_memRead h, hreg]

/-- While BUSY every other register reads as the next draw (R61, log 5, log 9). -/
theorem step_memRead_busy {s : State} {a : BitVec 12} {rest : List Turn} (h : s.script = .host (.memRead a 4) :: rest)
    (hb : s.status.busy = true) (ha : isWordAccess a 4 = true) (hs : a ≠ offStatus) (hreg : isRegister a = true) :
    step s = .next { s with script := rest, hostData := Config.freeRead s.draws, draws := s.draws + 1 } := by
  rw [step_memRead h, memRead, if_pos ha, if_pos (by simp [hb, hs, hreg])]

/-- While BUSY no move of the host but reset touches the pending word, the record of OVR or a field of `STATUS` but OVR. -/
theorem hostMove_of_busy {m : HostMove} {s t : State} (hb : s.status.busy = true) (hm : m ≠ .reset)
    (h : hostMove m s = .next t) :
    t.ovrSeen = s.ovrSeen ∧ t.cmd = s.cmd ∧ t.status = { s.status with ovr := t.status.ovr } := by
  cases m with
  | memWrite a n v =>
    obtain rfl := Host.Outcome.next.inj h
    rw [memWrite_of_busy hb]
    split <;> exact ⟨rfl, rfl, rfl⟩
  | memRead a n =>
    obtain rfl := Host.Outcome.next.inj h
    obtain ⟨d, k, e⟩ := memRead_frame a n s
    rw [e]; exact ⟨rfl, rfl, rfl⟩
  | attachIn bytes => simp [(hostMove_attachIn h).1] at hb
  | attachOut => simp [(hostMove_attachOut h).1] at hb
  | takeOut => obtain rfl := Host.Outcome.next.inj h; exact ⟨rfl, rfl, rfl⟩
  | reset => exact absurd rfl hm

/-- Settles O12, from the bits of the STATUS word and from each move of the host. -/
theorem readsWhileBusy : Obligations.ReadsWhileBusy := by
  refine ⟨fun s a rest h hb => ⟨fun ha => ?_, fun ha hal hreg => ?_⟩, fun s t m rest hs hb hm h => ?_⟩
  · subst ha
    have hread : statusRead s = ({ s.status with ovr := s.ovrSeen } : Status).word := by rw [statusRead, if_pos hb]
    refine ⟨_, step_memRead_status h, ?_⟩
    rw [hread]
    exact ⟨(Status.getLsbD_word_low _ (by decide)).trans hb, Status.getLsbD_word_low _ (by decide),
      fun k hk => Status.getLsbD_word_ovr _ _ hk⟩
  · have hr : isRegister a = true := by
      rw [← Bool.not_eq_false, isRegister_eq_false]
      omega
    exact ⟨_, step_memRead_busy h hb (isWordAccess_four.2 hal) ha hr⟩
  · have hmove := (hostTurn_eq_next (step_host hs ▸ h)).1
    exact hostMove_of_busy (s := { s with script := rest }) hb hm hmove

end Sys2Proof.Machine
end

section
/-! The turns of a run and the two passes of a compression (20_memory.md R60, R64, R66; 60_exceptions.md R194;
70_reset_and_hazards.md R216, R217; log 19). -/

namespace Sys2Proof.Machine

/-! ### The Core's turn and the record of the passes -/

theorem coreTurn_of_decode {s : State} {w : Word} {i : Instr} (hw : s.cmd = some w) (hd : decode w = .ok i) :
    coreTurn s = recordPass i s (exec i s) := by
  simp only [coreTurn, hw, runWord, hd]

theorem coreTurn_idle {s : State} (hn : s.cmd = none) : coreTurn s = .next s := by
  simp only [coreTurn, hn]

/-- The record stays after an error, for only CLR and reset go on from there (R194, R197). -/
theorem passesAfter_of_err {i : Instr} {s t : State} (he : t.status.err = true) : passesAfter i s t = t.passes :=
  if_pos he

/-- Settles O5: the Core's turn by its pending word, the host's as it is, and the record command by command. -/
theorem stepRunsTheDecodedCommand : Obligations.StepRunsTheDecodedCommand := by
  refine ⟨fun s w i hw hd hc => ?_, fun s hn hc => ?_, fun s m rest hs => step_host hs, fun i s t => ?_⟩
  · exact (step_core hc).trans (coreTurn_of_decode (s := s.turnTaken) hw hd)
  · exact (step_core hc).trans (coreTurn_idle (s := s.turnTaken) hn)
  · refine ⟨rfl, fun _ => rfl, fun _ => rfl, passesAfter_of_err, fun he => ?_⟩
    have hok : ¬t.status.err = true := Bool.eq_false_iff.1 he
    refine ⟨⟨_, fun b => Passes.mem_counted_own (old := s.freq) (new := t.freq), if_neg hok⟩, if_neg hok, if_neg hok,
      if_neg hok, if_neg hok, fun hi => ?_, fun hi => ?_⟩
    · simp only [List.mem_cons, List.not_mem_nil, or_false] at hi
      rcases hi with rfl | rfl | rfl | rfl <;> exact if_neg hok
    · cases i <;> simp_all [passesAfter]

/-! ### What every step keeps -/

/-- The record's count of passes goes only up (log 19). -/
theorem passesAfter_count_le (i : Instr) (s t : State) : t.passes.count ≤ (passesAfter i s t).count := by
  unfold passesAfter
  split
  · exact Nat.le_refl _
  · cases i
    case count => exact Nat.le_succ _
    all_goals exact Nat.le_refl _

theorem hostMove_passes_count {m : HostMove} {s t : State} (h : hostMove m s = .next t) :
    t.passes.count = s.passes.count := by
  cases m with
  | memWrite a n v =>
    obtain rfl := Host.Outcome.next.inj h
    rcases memWrite_cases a n v s with e | e | ⟨-, e⟩ | ⟨b, e⟩ <;> rw [e] <;> rfl
  | memRead a n =>
    obtain rfl := Host.Outcome.next.inj h
    obtain ⟨d, k, e⟩ := memRead_frame a n s
    rw [e]
  | attachIn bytes => obtain ⟨-, rfl⟩ := hostMove_attachIn h; rfl
  | attachOut => obtain ⟨-, rfl⟩ := hostMove_attachOut h; rfl
  | takeOut => obtain rfl := Host.Outcome.next.inj h; rfl
  | reset => obtain rfl := Host.Outcome.next.inj h; rfl

/-- While BUSY = 1 no move of the host changes IN's bits (R66). -/
theorem hostMove_inBits_of_busy {m : HostMove} {s t : State} (hb : s.status.busy = true) (h : hostMove m s = .next t) :
    t.inBits = s.inBits := by
  cases ha : m.attaches
  case false => exact (hostMove_frame h).2 ha
  case true =>
    cases m with
    | attachIn bytes => simp [(hostMove_attachIn h).1] at hb
    | attachOut => simp [(hostMove_attachOut h).1] at hb
    | memWrite | memRead | takeOut | reset => cases ha

theorem State.CoreNext.script_ne_host {s : State} (hc : s.CoreNext) (m : HostMove) (rest : List Turn) :
    s.script ≠ .host m :: rest := by
  rcases hc with e | ⟨l, e⟩ <;> simp [e]

/-- What every step does to the fields that the passes of a compression rest on. -/
structure StepFrame (s t : State) : Prop where
  script : t.script = s.script.tail
  inBits : s.status.busy = true → t.inBits = s.inBits
  count  : s.passes.count ≤ t.passes.count
  cmd    : s.CoreNext → t.cmd = none

theorem step_frame {s t : State} (h : step s = .next t) : StepFrame s t := by
  cases step_cases h with
  | idle _ hn ht => subst ht; exact ⟨rfl, fun _ => rfl, Nat.le_refl _, fun _ => hn⟩
  | command w i u _ _ _ hu ht =>
    subst ht
    obtain ⟨-, hbits, hscript, -, -, hpasses, -, -, hcmd, -⟩ := commandsKeepTheEnvironment i s.turnTaken u hu
    have hcount : u.passes.count = s.passes.count := by rw [hpasses]; rfl
    exact ⟨hscript, fun _ => hbits, hcount ▸ passesAfter_count_le i _ u, fun _ => hcmd⟩
  | illegal w _ _ _ ht => subst ht; exact ⟨rfl, fun _ => rfl, Nat.le_refl _, fun _ => rfl⟩
  | host m rest hs hm =>
    refine ⟨?_, fun hb => ?_, ?_, fun hc => absurd hs (hc.script_ne_host m rest)⟩
    · rw [(hostMove_frame hm).1, hs]; rfl
    · exact hostMove_inBits_of_busy (s := { s with script := rest }) hb hm
    · exact (hostMove_passes_count hm).ge

/-! ### The run that the turns to come lead to -/

section
variable {n : Nat} {s t : State} {m : HostMove} {rest : List Turn}

theorem encodesCounted_core (h : coreTurn { s with script := rest } = .next t) :
    encodesCounted n (.core :: rest) s = (encodesNow n s || encodesCounted n rest t) := by
  rw [encodesCounted, h]

theorem encodesCounted_core_stops (h : ∀ t, coreTurn { s with script := rest } ≠ .next t) :
    encodesCounted n (.core :: rest) s = encodesNow n s := by
  rw [encodesCounted]
  split
  · next t ht => exact absurd ht (h t)
  · exact Bool.or_false _
  · exact Bool.or_false _

theorem encodesCounted_host (h : hostMove m { s with script := rest } = .next t) :
    encodesCounted n (.host m :: rest) s = encodesCounted n rest t := by
  rw [encodesCounted, h]

theorem encodesCounted_host_refused {r : Refusal} (h : hostMove m { s with script := rest } = .refused r) :
    encodesCounted n (.host m :: rest) s = false := by
  rw [encodesCounted, h]

theorem encodesNow_of_idle (hn : s.cmd = none) : encodesNow n s = false := by
  rw [encodesNow, hn, Option.map_none]

/-- A run that comes to no such ENCODE is not at one. -/
theorem encodesNow_of_encodesCounted (hc : s.CoreNext) (h : encodesCounted n s.script s = false) :
    encodesNow n s = false := by
  rcases hc with e | ⟨rest, e⟩
  · rwa [e] at h
  · rw [e, encodesCounted, Bool.or_eq_false_iff] at h
    exact h.1

/-- A run that comes to no such ENCODE comes to none from its next state. -/
theorem step_encodesCounted_false (h : step s = .next t) (hs : encodesCounted n s.script s = false) :
    encodesCounted n t.script t = false := by
  have hframe := step_frame h
  rw [hframe.script]
  match hscript : s.script with
  | [] => exact encodesNow_of_idle (hframe.cmd (.inl hscript))
  | .core :: rest =>
    have hturn : coreTurn { s with script := rest } = .next t := by
      rwa [step_core (.inr ⟨rest, hscript⟩), State.turnTaken, hscript] at h
    rw [hscript, encodesCounted_core hturn, Bool.or_eq_false_iff] at hs
    exact hs.2
  | .host m :: rest =>
    have hmove := (hostTurn_eq_next (step_host hscript ▸ h)).1
    rwa [hscript, encodesCounted_host hmove] at hs

theorem steps_encodesCounted_false {u : State} (h : Relation.ReflTransGen (fun a b => step a = .next b) t u)
    (ht : encodesCounted n t.script t = false) : encodesCounted n u.script u = false := by
  induction h with
  | refl => exact ht
  | tail _ hstep ih => exact step_encodesCounted_false hstep ih

/-- An attach that is taken leads to no such ENCODE (R64, R216). -/
theorem step_attach_encodesCounted (hs : s.script = .host m :: rest) (ha : m.attaches = true) (h : step s = .next t) :
    encodesCounted s.passes.count t.script t = false := by
  have hturn := (hostTurn_eq_next (step_host hs ▸ h)).2 ha
  rw [(step_frame h).script, hs]
  exact hturn

/-- An attach with BUSY = 0 is taken unless it lies between the passes (R66, log 19). -/
theorem step_attach (hs : s.script = .host m :: rest) (ha : m.attaches = true)
    (hm : hostMove m { s with script := rest } = .next t) :
    step s = if encodesCounted s.passes.count rest t then .refused .attachBetweenPasses else .next t := by
  rw [step_host hs, hostTurn, hm, ha]; rfl

theorem hostMove_attach_of_busy (hb : s.status.busy = true) (ha : m.attaches = true) :
    hostMove m s = .refused .attachWhileBusy := by
  cases m with
  | attachIn bytes => exact if_pos hb
  | attachOut => exact if_pos hb
  | memWrite | memRead | takeOut | reset => cases ha

theorem step_attach_of_busy (hb : s.status.busy = true) (hs : s.script = .host m :: rest) (ha : m.attaches = true) :
    step s = .refused .attachWhileBusy := by
  rw [step_host hs, hostTurn, hostMove_attach_of_busy (s := { s with script := rest }) hb ha]

theorem hostTurn_refused_busy (h : hostTurn m s = .refused .attachWhileBusy) : hostMove m s = .refused .attachWhileBusy := by
  rcases hostTurn_cases m s with ⟨ha, hb, -⟩ | ⟨t, -, ⟨-, -, -, e⟩ | ⟨-, e⟩⟩
  · exact hostMove_attach_of_busy hb ha
  · rw [e] at h; cases h
  · rw [e] at h; cases h

end

/-- Settles O14. The run after an attach is followed step by step: the one that the attach was checked on. -/
theorem attachingChannels : Obligations.AttachingChannels := by
  refine ⟨fun s t bytes rest => ⟨fun hs hb ht => ?_, fun hs hb ht => ?_, fun hs hb => ?_, fun hs => ?_⟩,
    fun s t h hb => (step_frame h).inBits hb, fun s t u rest hs h hrun hu => ?_, fun s t h => (step_frame h).count,
    fun n s rest => ⟨encodesNow_iff, fun t h => encodesCounted_core h, fun h => encodesCounted_core_stops h,
      fun bytes hb => encodesCounted_host (by simp [hostMove, hb, State.attachIn]),
      fun hb => encodesCounted_host (by simp [hostMove, hb, State.attachOut]),
      fun m t h => encodesCounted_host (hostTurn_eq_next h).1,
      fun m h => encodesCounted_host_refused (hostTurn_refused_busy h)⟩⟩
  · exact step_attach hs rfl (by simp [hostMove, hb, ht, State.attachIn])
  · exact step_attach hs rfl (by simp [hostMove, hb, ht, State.attachOut])
  · exact hs.elim (step_attach_of_busy hb · rfl) (step_attach_of_busy hb · rfl)
  · rw [step_host hs, hostTurn_of_not_attaches rfl]; rfl
  · have hnone : encodesCounted s.passes.count t.script t = false := by
      rcases hs with hs | ⟨bytes, hs⟩
      · exact step_attach_encodesCounted hs rfl h
      · exact step_attach_encodesCounted hs rfl h
    have hnow := encodesNow_of_encodesCounted hu (steps_encodesCounted_false hrun hnone)
    rw [← encodesNow_iff, hnow]
    exact Bool.false_ne_true

end Sys2Proof.Machine
end

section
/-! Which commands move the cursor of IN, change OUT or close it (20_memory.md R53, R56, R58, R67), and that a stale code
table is not used (20_memory.md R65; 70_reset_and_hazards.md R215). -/

namespace Sys2Proof

/-- The commands that move IN's cursor (R53, R67). -/
def Instr.movesIn (i : Instr) : Bool :=
  i ∈ [.rewind, .count, .encode, .rmagic, .rtree, .decsym, .decode, .compress, .decompress]

/-- The commands that change `OUT` and `OUTPOS` (R56, R67). -/
def Instr.changesOut : Instr → Bool
  | .encsym _ | .wmagic | .wtree | .encode | .decode | .close | .compress | .decompress => true
  | .nop | .clr | .rewind | .cntsym _ | .count | .build | .rmagic | .rtree | .gencode | .decsym => false

/-- The commands that close OUT (R58). -/
def Instr.closesOut (i : Instr) : Bool := i ∈ [.close, .compress, .decompress]

end Sys2Proof

namespace Sys2Proof.Machine

/-! ### The channels -/

/-- What `i` leaves of the channels of `s` in `t`. -/
structure ChannelsKept (i : Instr) (s t : State) : Prop where
  input  : i.movesIn = false → t.inCur = s.inCur ∧ t.inpos = s.inpos
  output : i.changesOut = false → t.outBits = s.outBits ∧ t.outpos = s.outpos
  closed : i.closesOut = false → t.status.oclosed = s.status.oclosed ∧ t.draws = s.draws

section
variable {i : Instr} {s : State}

theorem ChannelsKept.refl (i : Instr) (s : State) : ChannelsKept i s s :=
  ⟨fun _ => ⟨rfl, rfl⟩, fun _ => ⟨rfl, rfl⟩, fun _ => ⟨rfl, rfl⟩⟩

theorem keptByIn_channelsKept (hi : i.movesIn = true) : KeptByIn (ChannelsKept i s) where
  calls _ h := { h with }
  seek _ _ h _ := { h with input := fun hf => by simp [hi] at hf }

theorem keptByOut_channelsKept (hi : i.changesOut = true) : KeptByOut (ChannelsKept i s) where
  calls _ h := { h with }
  append _ _ h _ := { h with output := fun hf => by simp [hi] at hf }

theorem ChannelsKept.closeOut {t : State} (h : ChannelsKept i s t) (hc : i.closesOut = true) (ho : i.changesOut = true) :
    ChannelsKept i s t.closeOut :=
  { h with
    output := fun hf => by simp [ho] at hf
    closed := fun hf => by simp [hc] at hf }

/-- The drivers may change all of the channels. -/
theorem kept_channelsKept (hi : i.movesIn = true) (ho : i.changesOut = true) (hc : i.closesOut = true) :
    Kept (ChannelsKept i s) where
  calls _ _ h := { h with }
  seek _ _ h := { h with input := fun hf => by simp [hi] at hf }
  app _ _ h _ := { h with output := fun hf => by simp [ho] at hf }
  close _ h _ := h.closeOut hc ho
  freq _ _ _ h := { h with }
  clearF _ h := { h with }
  store _ _ h := { h with }
  dropT _ h := { h with }
  storeC _ _ h := { h with }
  dropC _ h := { h with }
  eos _ _ h := { h with }
  dst _ _ h := { h with }
  res _ _ h := { h with }

end

/-- Every command makes only the channel calls of its rule (R67). -/
theorem body_channelsKept (i : Instr) (s : State) : (bodyOf i s).Ends (ChannelsKept i s) := by
  have hs := ChannelsKept.refl i s
  cases i with
  | nop => exact hs
  | clr => exact { hs with }
  | rewind => exact rewindBody_ends (keptByIn_channelsKept rfl) hs
  | close => exact closeBody_ends (fun _ h => { h with }) (fun _ h _ => h.closeOut rfl rfl) hs
  | cntsym b => exact cntsymBody_ends hs (fun _ _ h _ => { h with }) b
  | count => exact countLoop_ends (keptByIn_channelsKept rfl) (fun _ _ h _ => { h with }) _ hs
  | build => exact buildBody_ends hs fun _ _ h _ => { h with }
  | wmagic => exact wmagicBody_ends (keptByOut_channelsKept rfl) hs
  | wtree => exact wtreeBody_ends (keptByOut_channelsKept rfl) hs
  | rmagic => exact rmagicBody_ends (keptByIn_channelsKept rfl) (fun _ _ h => { h with }) hs
  | rtree =>
    exact rtreeBody_ends (keptByIn_channelsKept rfl) { hs with } (fun _ _ h _ => { h with }) fun _ h => h
  | gencode => exact gencodeBody_ends hs fun _ _ => { hs with }
  | encsym a => exact encsymArgBody_ends (keptByOut_channelsKept rfl) a hs
  | encode => exact encodeBody_ends (keptByIn_channelsKept rfl) (keptByOut_channelsKept rfl) hs
  | decsym =>
    exact decsymBody_ends (keptByIn_channelsKept rfl) (fun _ h => { h with }) (fun _ h => { h with })
      (fun _ _ h => { h with }) hs
  | decode =>
    exact decodeBody_ends (keptByIn_channelsKept rfl) (keptByOut_channelsKept rfl) (fun _ h => { h with })
      (fun _ h => { h with }) (fun _ _ h => { h with }) hs
  | compress | decompress => exact (kept_channelsKept rfl rfl rfl).body _ (by simp) hs

theorem exec_channelsKept {i : Instr} {s t : State} (h : exec i s = .next t) : ChannelsKept i s t := by
  obtain ⟨u, hu, rfl | ⟨e, rfl⟩⟩ := (body_channelsKept i s).finish (exec_eq i s ▸ h)
  · exact { hu with }
  · exact { hu with }

/-- Settles O23: a command outside a list makes none of the channel calls that the list's commands make. -/
theorem channelsChangeOnlyByTheirCommands : Obligations.ChannelsChangeOnlyByTheirCommands := by
  intro i s t h
  obtain ⟨hin, hout, hclosed⟩ := exec_channelsKept h
  refine ⟨fun hl => hin (decide_eq_false hl), fun ha hl => hout ?_, fun hl => hclosed (decide_eq_false hl)⟩
  cases i <;> simp_all [Instr.changesOut]

/-! ### Stale codes -/

theorem buildBody_codeInvalid (s : State) : (buildBody s).Ends fun t => t.status.codeValid = false := by
  unfold buildBody
  split
  · rfl
  · trivial

/-- RTREE drops the table before its first read (R130). -/
theorem rtreeBody_codeInvalid (s : State) : (rtreeBody s).Ends fun t => t.status.codeValid = false :=
  have hin : KeptByIn fun t => t.status.codeValid = false := ⟨fun _ h => h, fun _ _ h _ => h⟩
  rtreeBody_ends hin rfl (fun _ _ h _ => h) fun _ h => h

theorem exec_codeInvalid {i : Instr} {s t : State} (hi : i = .build ∨ i = .rtree) (h : exec i s = .next t) :
    t.status.codeValid = false := by
  have hbody : (bodyOf i s).Ends fun t => t.status.codeValid = false := by
    rcases hi with rfl | rfl
    · exact buildBody_codeInvalid s
    · exact rtreeBody_codeInvalid s
  obtain ⟨u, hu, rfl | ⟨e, rfl⟩⟩ := hbody.finish (exec_eq i s ▸ h)
  · exact hu
  · exact hu

theorem withEncoder_noCode {s : State} {k : State → Res Unit} (h : s.status.codeValid = false) :
    withEncoder s k = .raise .noCode s := by
  rw [withEncoder, h, Bool.not_false, raiseIf_true]

theorem exec_encode_noCode {s : State} (h : s.status.codeValid = false) : exec .encode s = .next (s.failed 0x51 .noCode) := by
  rw [exec_eq]
  exact congrArg (Res.finish _) (withEncoder_noCode h)

theorem exec_encsym_noCode {s : State} {a : BitVec 9} (ha : a.toNat < 257) (h : s.status.codeValid = false) :
    exec (.encsym a) s = .next (s.failed 0x50 .noCode) := by
  rw [exec_eq, bodyOf, encsymArgBody, sym_of ha]
  exact congrArg (Res.finish _) (withEncoder_noCode h)

/-- Settles O48: either command ends with an invalid table, and the encoder checks for one first. -/
theorem staleCodesAreNotUsed : Obligations.StaleCodesAreNotUsed := by
  intro s t i a hi h ha
  have hstale := exec_codeInvalid hi h
  exact ⟨hstale, exec_encsym_noCode (Nat.lt_succ_of_le ha) hstale, exec_encode_noCode hstale⟩

end Sys2Proof.Machine
end

section
/-! Decoding and encoding agree, and the legal words are the encodings of the well-formed commands (30_encoding.md R80 to
R84). -/

namespace Sys2Proof

/-! ### The decoder and the encoder -/

theorem decode_eq_ok_iff {w : Word} {i : Instr} :
    decode w = .ok i ↔ fieldRsv w = 0 ∧ decodeOpc (fieldOpc w) (fieldArg w) = .ok i := by
  unfold decode
  split
  case isTrue hrsv => exact (and_iff_right hrsv).symm
  case isFalse hrsv => exact iff_of_false nofun fun h => hrsv h.1

theorem decodeOpc_opcode_operand {i : Instr} (hi : i.wf = true) : decodeOpc (opcode i) (operand i) = .ok i := by
  cases i with
  | cntsym b => exact ok_iff_withOperand.2 ⟨hi, rfl⟩
  | encsym a => exact ok_iff_withOperand.2 ⟨hi, rfl⟩
  | _ => rfl

theorem decode_encode {i : Instr} (hi : i.wf = true) : decode (encode i) = .ok i := by
  obtain ⟨hopc, harg, hrsv⟩ := Laws.Fields.of_fields i
  exact decode_eq_ok_iff.2 ⟨hrsv, hopc ▸ harg ▸ decodeOpc_opcode_operand hi⟩

theorem encode_eq_iff {w : Word} {i : Instr} :
    encode i = w ↔ fieldRsv w = 0 ∧ opcode i = fieldOpc w ∧ operand i = fieldArg w := by
  constructor
  · rintro rfl
    obtain ⟨hopc, harg, hrsv⟩ := Laws.Fields.of_fields i
    exact ⟨hrsv, hopc.symm, harg.symm⟩
  · rintro ⟨hrsv, hopc, harg⟩
    rw [word_eq w, hrsv, ← hopc, ← harg]
    rfl

/-- Settles O1: one way by the fields of the word, the other way by the fields of the command's own word. -/
theorem decodeAndEncodeAgree : Obligations.DecodeAndEncodeAgree := by
  intro w i
  constructor
  · intro h
    obtain ⟨hrsv, hopc⟩ := decode_eq_ok_iff.1 h
    obtain ⟨hwf, ho, ha⟩ := decodeOpc_ok hopc
    exact ⟨hwf, encode_eq_iff.2 ⟨hrsv, ho, ha⟩⟩
  · rintro ⟨hwf, rfl⟩
    exact decode_encode hwf

/-! ### The words of the opcode map -/

/-- `OPC | (operand << 8)`, as the table of R82 writes a word: the fields do not overlap, so the sum is their union. -/
theorem encode_eq_add (i : Instr) : encode i = (opcode i).setWidth 32 + ((operand i).setWidth 32 <<< 8) := by
  have ho := (opcode i).isLt
  have ha := (operand i).isLt
  have hword : (encode i).toNat = (operand i).toNat <<< 8 + (opcode i).toNat := by
    simp only [encode, BitVec.toNat_append, BitVec.toNat_ofNat, Nat.zero_mod, Nat.zero_shiftLeft, Nat.zero_or,
      Nat.shiftLeft_add_eq_or_of_lt ho]
  apply BitVec.eq_of_toNat_eq
  simp only [hword, BitVec.toNat_add, BitVec.toNat_shiftLeft, BitVec.toNat_setWidth, Nat.shiftLeft_eq]
  omega

/-- Settles O3: each word of the map is the encoding of its command, which is well formed. -/
theorem wordsOfTheOpcodeMap : Obligations.WordsOfTheOpcodeMap := by
  refine ⟨rfl, rfl, rfl, rfl, rfl, rfl, rfl, rfl, rfl, rfl, rfl, rfl, rfl, rfl, rfl, rfl, fun b => ?_, fun a ha => ?_⟩
  · have hwf : (Instr.cntsym (b.setWidth 9)).wf = true := by
      have := b.isLt
      simp only [Instr.wf, BitVec.toNat_setWidth, decide_eq_true_eq]
      omega
    have hword : encode (.cntsym (b.setWidth 9)) = 0x00000010 + (b.setWidth 32 <<< 8) := by
      rw [encode_eq_add, operand, BitVec.setWidth_setWidth (by decide)]
      rfl
    exact hword ▸ decode_encode hwf
  · have hword : encode (.encsym a) = 0x00000050 + (a.setWidth 32 <<< 8) := encode_eq_add _
    exact hword ▸ decode_encode (decide_eq_true ha)

end Sys2Proof

namespace Sys2Proof.Machine

/-! ### Legal words -/

/-- The commands without an operand, in the order of R82. -/
def plainCommands : List Instr :=
  [.nop, .clr, .rewind, .close, .count, .build, .wmagic, .wtree, .rmagic, .rtree, .gencode, .encode, .decsym, .decode,
   .compress, .decompress]

theorem plainCommands_wf_operand : ∀ i ∈ plainCommands, i.wf = true ∧ operand i = 0 := by decide

/-- R83, with the opcodes of its first case as those of the commands without an operand. -/
theorem legal_iff_fields {w : Word} : legal w = true ↔ fieldRsv w = 0 ∧
    ((∃ i ∈ plainCommands, opcode i = fieldOpc w ∧ fieldArg w = 0) ∨
      (fieldOpc w = 0x10 ∧ (fieldArg w).toNat ≤ 255) ∨ (fieldOpc w = 0x50 ∧ (fieldArg w).toNat ≤ 256)) := by
  have hopcodes : legal w = (fieldRsv w == 0 &&
      (((plainCommands.map opcode).contains (fieldOpc w) && fieldArg w == 0) ||
        (fieldOpc w == 0x10 && (fieldArg w).toNat ≤ 255) || (fieldOpc w == 0x50 && (fieldArg w).toNat ≤ 256))) := rfl
  simp only [hopcodes, Bool.and_eq_true, Bool.or_eq_true, beq_iff_eq, decide_eq_true_eq, List.contains_iff_mem,
    List.mem_map, or_assoc, ← exists_and_right, and_assoc]

theorem legal_iff_encode {w : Word} : legal w = true ↔ ∃ i : Instr, i.wf = true ∧ encode i = w := by
  simp only [legal_iff_fields, encode_eq_iff]
  constructor
  · rintro ⟨hrsv, ⟨i, hi, hopc, harg⟩ | ⟨hopc, hle⟩ | ⟨hopc, hle⟩⟩
    · obtain ⟨hwf, hzero⟩ := plainCommands_wf_operand i hi
      exact ⟨i, hwf, hrsv, hopc, hzero.trans harg.symm⟩
    · exact ⟨.cntsym (fieldArg w), decide_eq_true hle, hrsv, hopc.symm, rfl⟩
    · exact ⟨.encsym (fieldArg w), decide_eq_true hle, hrsv, hopc.symm, rfl⟩
  · rintro ⟨i, hwf, hrsv, hopc, harg⟩
    refine ⟨hrsv, ?_⟩
    cases i with
    | cntsym b => exact .inr (.inl ⟨hopc.symm, harg ▸ of_decide_eq_true hwf⟩)
    | encsym a => exact .inr (.inr ⟨hopc.symm, harg ▸ of_decide_eq_true hwf⟩)
    | _ => exact .inl ⟨_, by simp [plainCommands], hopc, harg.symm⟩

/-- Settles O2: the decoder reads a command exactly where the word is a well-formed command's encoding. -/
theorem legalWordsDecode : Obligations.LegalWordsDecode := fun w =>
  (exists_congr (decodeAndEncodeAgree w)).trans legal_iff_encode.symm

/-! ### Words that are not legal -/

theorem runWord_of_not_legal {w : Word} (hw : legal w = false) (s : State) :
    runWord w s = .next (s.failed (fieldOpc w) .illegal) := by
  unfold runWord
  cases hd : decode w with
  | ok i => exact absurd ((legalWordsDecode w).1 ⟨i, hd⟩) (Bool.eq_false_iff.1 hw)
  | error => rfl

/-- Settles O4: the Core's turn is its pending word's, and completion raises `ILLEGAL` with the word's opcode field. -/
theorem illegalWordRaisesIllegal : Obligations.IllegalWordRaisesIllegal := by
  intro s w hw hcmd hc
  have hturn : coreTurn s.turnTaken = runWord w s.turnTaken := by simp only [coreTurn, State.turnTaken, hcmd]
  rw [step_core hc, hturn, runWord_of_not_legal hw]
  rfl

end Sys2Proof.Machine
end

section
/-! CNTSYM and COUNT: what counting one unit does, and how the loop of COUNT ends at each of its stops (40_frequency.md
R100, R101). -/

namespace Sys2Proof.Machine

/-! ### Counting one byte -/

theorem countUnit_below {b : Byte} {s : State} (h : s.freqAt b ≠ s.params.cntMax) :
    countUnit b s = .ok () (s.setFreq b (s.freqAt b + 1)) := by
  rw [countUnit_eq, if_neg h]

theorem countUnit_full {b : Byte} {s : State} (h : s.freqAt b = s.params.cntMax) :
    countUnit b s = .raise .countOvf s := by
  rw [countUnit_eq, if_pos h]

/-- R100 for a legal operand. -/
theorem exec_cntsym {b : BitVec 9} (hb : b.toNat < 256) (s : State) :
    exec (.cntsym b) s = (countUnit (b.setWidth 8) s).finish 0x10 := by
  rw [exec_eq]
  exact congrArg (Res.finish 0x10) (raiseIf_neg (Nat.not_lt.2 (Nat.le_of_lt_succ hb)) ..)

/-- Settles O31: the operand is a byte, and counting it is R100's test and update. -/
theorem cntsymCounts : Obligations.CntsymCounts := by
  intro s b hb
  have hbyte : (b.setWidth 8).toNat = b.toNat := by
    rw [BitVec.toNat_setWidth, Nat.mod_eq_of_lt hb]
  have hcount : s.freqAt (b.setWidth 8) = s.freq[b.toNat] := by simp only [State.freqAt, hbyte]
  rw [exec_cntsym hb]
  constructor
  · intro hbelow
    rw [countUnit_below (hcount.trans_ne hbelow), Res.finish_ok, hcount]
    simp only [State.setFreq, hbyte]
  · intro hfull
    rw [countUnit_full (hcount.trans hfull), Res.finish_raise]

/-! ### The stops of COUNT -/

/-- `s` after COUNT has read and counted the units `us` (R101). -/
def State.counted (s : State) (us : List Byte) : State :=
  ((s.addCounts us).afterCalls us.length).seekIn (s.inCur + 8 * us.length)

theorem State.freqAt_counted (s : State) (us : List Byte) (b : Byte) :
    (s.counted us).freqAt b = s.freqAt b + us.count b :=
  State.freqAt_addCounts s us b

theorem State.counted_frame (s : State) (us : List Byte) : s.counted us =
    { s with freq := (s.addCounts us).freq, answers := s.answers.drop us.length, inCur := s.inCur + 8 * us.length,
             inpos := BitVec.ofNat 32 (s.inCur + 8 * us.length) } :=
  finalCount s us _ _

theorem State.inRest_counted {s : State} {us : List Byte} {rest : Bits} (h : s.inRest = bytesToBits us ++ rest) :
    (s.counted us).inRest = rest := by
  have hafter := State.inRest_after h (bytesToBits_length us)
  rwa [State.counted_frame]

/-- The counted units are read and counted; the rest of COUNT's loop starts where they end. -/
theorem countBody_units {s : State} {us post : List Byte} (hi : s.Inv) (h : s.unitsLeft = us ++ post)
    (hok : s.OkFor us.length) (hfit : ∀ b, s.freqAt b + us.count b ≤ s.params.cntMax) :
    countBody s = countLoop (post.length + 1) (s.counted us) := by
  obtain ⟨tail, hrest, -⟩ := count_split hi
  rw [h, bytesToBits_append, List.append_assoc] at hrest
  rw [countBody, units_fuel h, countLoop_units hrest hok hfit hi.inpos]
  rfl

theorem countLoop_overflow {fuel : Nat} {s : State} {b : Byte} {rest : Bits} (hok : s.OkFor 1)
    (h : s.inRest = msbf 8 b.toNat ++ rest) (hfull : s.freqAt b = s.params.cntMax) :
    countLoop (fuel + 1) s = .raise .countOvf ((s.afterCalls 1).seekIn (s.inCur + 8)) := by
  have hunit : countUnit b ((s.afterCalls 1).seekIn (s.inCur + 8)) =
      .raise .countOvf ((s.afterCalls 1).seekIn (s.inCur + 8)) := countUnit_full hfull
  rw [countLoop, inRead_unit hok.head h]
  exact congrArg (Res.andThen · (countLoop fuel)) hunit

theorem countLoop_fail {fuel : Nat} {s : State} (h : s.FailsAt 0) :
    countLoop (fuel + 1) s = .raise .ioIn (s.afterCalls 1) := by
  rw [countLoop, inRead_fail (fail_head h)]

/-- R101 at a unit whose counter is full. -/
theorem countBody_overflow {s : State} {pre post : List Byte} {b : Byte} (hi : s.Inv)
    (h : s.unitsLeft = pre ++ b :: post) (hok : s.OkFor (pre.length + 1))
    (hfit : ∀ c, s.freqAt c + pre.count c ≤ s.params.cntMax) (hfull : s.freqAt b + pre.count b = s.params.cntMax) :
    countBody s = .raise .countOvf (((s.counted pre).afterCalls 1).seekIn (s.inCur + 8 * (pre.length + 1))) := by
  obtain ⟨tail, hrest, -⟩ := count_split hi
  rw [h, bytesToBits_append, bytesToBits_cons, List.append_assoc, List.append_assoc] at hrest
  have hnext : (s.counted pre).OkFor 1 := State.OkFor.congr hok.drop (by rw [State.counted_frame]; rfl)
  have hmax : (s.counted pre).freqAt b = (s.counted pre).params.cntMax := by
    rw [State.freqAt_counted, hfull, State.counted_frame]
  rw [countBody_units hi h (hok.mono (Nat.le_succ _)) hfit, countLoop_overflow hnext (State.inRest_counted hrest) hmax]
  rfl

/-- R101 at a failed read. -/
theorem countBody_fail {s : State} {pre post : List Byte} (hi : s.Inv) (h : s.unitsLeft = pre ++ post)
    (hf : s.FailsAt pre.length) (hfit : ∀ c, s.freqAt c + pre.count c ≤ s.params.cntMax) :
    countBody s = .raise .ioIn ((s.counted pre).afterCalls 1) := by
  have hnext : (s.counted pre).FailsAt 0 := by
    rw [State.counted_frame]
    exact failsAt_drop hf
  rw [countBody_units hi h hf.1 hfit, countLoop_fail hnext]

/-- Settles O32: COUNT counts the units before its stop, and then IN is exhausted, a counter is full or the read fails. -/
theorem countCountsUnits : Obligations.CountCountsUnits := by
  intro s hi
  refine ⟨fun hok hfit => ⟨_, freq_addCounts s s.unitsLeft, ?_⟩,
    fun pre b post h hok hfit hfull => ⟨_, freq_addCounts s pre, ?_⟩,
    fun pre post h hf hfit => ⟨_, freq_addCounts s pre, ?_⟩⟩
  · obtain ⟨tail, hrest, htail⟩ := count_split hi
    rw [exec_eq, bodyOf, countBody_ok hrest htail hok hfit hi.inpos, Res.finish_ok, finalCount]
  · rw [exec_eq, bodyOf, countBody_overflow hi h hok hfit hfull, Res.finish_raise, State.counted_frame]
    simp only [State.afterCalls, State.seekIn, List.drop_drop]
    rfl
  · rw [exec_eq, bodyOf, countBody_fail hi h hf hfit, Res.finish_raise, State.counted_frame]
    simp only [State.afterCalls, List.drop_drop]
    rfl

end Sys2Proof.Machine
end

section
/-! The built tree costs no more than any tree on its leaves (41_tree_builder.md R119): the bound on the merging, read on
the leaves' weights, against the depths of the other tree. -/

namespace Sys2Proof.Machine

/-- A tree's leaves as weights and depths, the form the exchange argument speaks of. -/
def leafDepths (w : Symbol → Nat) (t : Tree) : List (Nat × Nat) := t.paths.map fun sp => (w sp.1, sp.2.length)

theorem leafDepths_weights (w : Symbol → Nat) (t : Tree) : (leafDepths w t).map Prod.fst = t.symbols.map w := by
  simp [leafDepths, Tree.symbols_eq_paths]

theorem kraft_leafDepths (w : Symbol → Nat) (t : Tree) : kraft ((leafDepths w t).map Prod.snd) = 1 := by
  rw [leafDepths, List.map_map]
  exact kraft_tree t

theorem wcost_leafDepths (w : Symbol → Nat) (t : Tree) : wcost (leafDepths w t) = t.cost w := by
  rw [wcost, leafDepths, List.map_map]
  rfl

/-- The items before the merges are single leaves, which cost nothing and weigh what their symbol does. -/
theorem initialItems_leaf {freq : Vector Nat 256} {i : Item} (h : i ∈ initialItems freq) :
    i.w = wt (weightOf freq) i.t ∧ i.t.cost (weightOf freq) = 0 ∧ i.t.symbols.map (weightOf freq) = [i.w] := by
  obtain ⟨x, ht, hw⟩ := initialItems_mem h
  simp [ht, hw, wt, Tree.cost, Tree.paths, Tree.symbols]

theorem initialItems_weights (freq : Vector Nat 256) :
    ((weightedLeaves freq).map Prod.snd).map (weightOf freq) = (initialItems freq).map Item.w := by
  rw [← initialItems_symbols, List.map_flatMap, List.flatMap_congr fun i hi => (initialItems_leaf hi).2.2, List.map_eq_flatMap]

/-- The merging is bounded by every assignment of depths to the weights of the built tree's leaves that a tree could
have. -/
theorem buildTree_cost_le {freq : Vector Nat 256} {t : Tree} (ht : buildTree freq = some t) {L : List (Nat × Nat)}
    (hL : (L.map Prod.fst).Perm (t.symbols.map (weightOf freq))) (hk : kraft (L.map Prod.snd) ≤ 1) :
    t.cost (weightOf freq) ≤ wcost L := by
  obtain ⟨v, hv, hcost⟩ := mergeAll_cost (weightOf freq) (q := (initialItems freq).length) (initialItems_ne_nil freq)
    (Nat.le_succ (initialItems freq).length)
  obtain ⟨v', hv', hsym⟩ := buildTree_symbols freq
  obtain rfl : v = t := Option.some.inj (hv.symm.trans ht)
  obtain rfl : v' = v := Option.some.inj (hv'.symm.trans hv)
  obtain ⟨C, hC, hleast⟩ := hcost fun i hi => (initialItems_leaf hi).1
  have hzero : ((initialItems freq).map fun i => i.t.cost (weightOf freq)).sum = 0 := by
    rw [List.sum_eq_zero_iff]
    rintro _ hc
    obtain ⟨i, hi, rfl⟩ := List.mem_map.1 hc
    exact (initialItems_leaf hi).2.1
  rw [hC, hzero, Nat.zero_add]
  exact hleast L (hL.trans (initialItems_weights freq ▸ hsym.map _)) hk

/-- Settles O38: the other tree's depths are an assignment to the same weights with Kraft sum 1. -/
theorem buildIsOptimal : Obligations.BuildIsOptimal := by
  intro freq t u ht hu
  rw [← wcost_leafDepths _ u]
  refine buildTree_cost_le ht ?_ (kraft_leafDepths _ u).le
  rw [leafDepths_weights]
  exact hu.map _

end Sys2Proof.Machine
end

section
/-! BUILD on a state, the leaves it starts from and the rounds of the merging (41_tree_builder.md R110 to R117), with the
two smallest built trees (R115; 43_code_table.md R144). -/

namespace Sys2Proof.Machine

/-! ### BUILD and the leaves -/

/-- BUILD on a state whose counts give the tree `t` (R110). -/
theorem exec_build {s : State} {t : Tree} (h : buildTree s.freq = some t) :
    exec .build s = .next
      { s with tree := some t, nleaf := BitVec.ofNat 10 t.leaves, code := Vector.replicate 257 none,
               status := { s.status with treeValid := true, codeValid := false } }.done := by
  rw [exec_eq, bodyOf, buildBody_ok h]
  rfl

/-- Settles O33: the merging gives a tree for every content of FREQ. -/
theorem buildStoresTheTree : Obligations.BuildStoresTheTree := by
  intro s
  obtain ⟨t, ht, -⟩ := buildTree_spec s.freq
  exact ⟨t, ht, exec_build ht⟩

theorem weightedLeaves_length (freq : Vector Nat 256) :
    (weightedLeaves freq).length = 1 + (allBytes.filter fun b => 0 < freq[b.toNat]'b.isLt).length := by
  simp [weightedLeaves, Nat.add_comm]

/-- The symbols of R111, by their values. -/
theorem counted_symbol_iff {freq : Vector Nat 256} {x : Symbol} :
    (x = Config.sent ∨ ∃ b, x = byteSymbol b ∧ 0 < freq[b.toNat]'b.isLt) ↔
      x.val = 256 ∨ ∃ h : x.val < 256, 0 < freq[x.val]'h := by
  refine or_congr Fin.ext_iff ⟨?_, ?_⟩
  · rintro ⟨b, rfl, hb⟩
    exact ⟨b.isLt, hb⟩
  · rintro ⟨hx, hpos⟩
    exact ⟨⟨x.val, hx⟩, rfl, hpos⟩

/-- Settles O34: the leaves are those the merging starts from, and the bounds are R25's of any stored tree. -/
theorem builtTreeLeaves : Obligations.BuiltTreeLeaves := by
  intro freq t ht
  obtain ⟨u, hu, hinv, hnodup, hleaves, hmem⟩ := buildTree_spec freq
  obtain rfl : u = t := Option.some.inj (hu.symm.trans ht)
  exact ⟨hnodup, fun x => (hmem x).trans counted_symbol_iff, hleaves.trans (weightedLeaves_length freq), hinv.full,
    hinv.leaves, hinv.depth⟩

/-! ### The extraction order -/

theorem initialItems_numbers (freq : Vector Nat 256) :
    (initialItems freq).map Item.q = List.range (initialItems freq).length := by
  rw [initialItems_length, initialItems, List.map_map, List.range_eq_range']
  exact List.zipIdx_map_snd 0 _

theorem allBytes_ascending : allBytes.Pairwise fun a b => a.toNat < b.toNat := by
  refine List.pairwise_map.2 (List.pairwise_lt_range.imp_of_mem ?_)
  intro a b ha hb hab
  simp only [List.mem_range] at ha hb
  simp only [BitVec.toNat_ofNat]
  omega

/-- The leaves are inserted in ascending value, the sentinel last (R112). -/
theorem weightedLeaves_ascending (freq : Vector Nat 256) :
    ((weightedLeaves freq).map Prod.snd).Pairwise fun a b => a.val < b.val := by
  rw [weightedLeaves_symbols, List.pairwise_append]
  refine ⟨List.pairwise_map.2 (allBytes_ascending.filter _), List.pairwise_singleton _ _, fun x hx y hy => ?_⟩
  obtain ⟨b, -, rfl⟩ := List.mem_map.1 hx
  rw [List.mem_singleton.1 hy]
  exact b.isLt

/-- Between distinct insertion numbers the item extracted comes strictly before the rest (R112). -/
theorem extractMin_before {x y : Item} {xs : List Item} (hn : ((x :: xs).map Item.q).Nodup)
    (hy : y ∈ (extractMin x xs).2) : (extractMin x xs).1.before y = true := by
  have hd := ((extractMin_perm x xs).map Item.q).nodup_iff.2 hn
  rw [List.map_cons, List.nodup_cons] at hd
  exact Item.before_of_not_before ((extractMin_least x xs).1 y hy) fun e => hd.1 (e ▸ List.mem_map_of_mem hy)

/-- Settles O35: the extraction, the first items, and one round of the merging. -/
theorem extractionOrder : Obligations.ExtractionOrder := by
  refine ⟨fun x xs hn => ⟨extractMin_perm x xs, fun y hy => Item.before_iff.1 (extractMin_before hn hy)⟩,
    fun freq => ⟨initialItems_numbers freq, ?_, fun i hi => initialItems_mem hi⟩, fun fuel q x y rest hn hq => ?_,
    fun fuel q x => by rw [mergeAll], fun freq => rfl⟩
  · rw [initialItems_symbols]
    exact weightedLeaves_ascending freq
  · obtain ⟨a, b, pq, hp, ha, hb, hround⟩ := mergeAll_step hn hq
    exact ⟨a, b, pq, hp, fun z hz => Item.before_iff.1 (ha z hz), fun z hz => Item.before_iff.1 (hb z hz), hround⟩

/-! ### The two smallest built trees -/

theorem initialItems_of_none {freq : Vector Nat 256} (h : ∀ b : Byte, freq[b.toNat]'b.isLt = 0) :
    initialItems freq = [⟨1, 0, .leaf 256⟩] := by
  have hnone : (allBytes.filter fun b => 0 < freq[b.toNat]'b.isLt) = [] :=
    List.filter_eq_nil_iff.2 fun b _ => by simp [h b]
  rw [initialItems, weightedLeaves, hnone]
  rfl

/-- Settles O36: the sentinel is the only item, and the path to a root is empty. -/
theorem emptyCountsBuildTheSentinelLeaf : Obligations.EmptyCountsBuildTheSentinelLeaf := by
  intro s h
  have ht : buildTree s.freq = some (.leaf 256) := by rw [buildTree, initialItems_of_none h]; rfl
  refine ⟨exec_build ht, fun x => ?_⟩
  rw [genTable, genWalk, CodeTable.get_set]
  simp [CodeTable.empty, Vector.get_eq_getElem]

theorem initialItems_of_one {freq : Vector Nat 256} {b : Byte} (hb : 0 < freq[b.toNat]'b.isLt)
    (h : ∀ c : Byte, c ≠ b → freq[c.toNat]'c.isLt = 0) :
    initialItems freq = [⟨freq[b.toNat]'b.isLt, 0, .leaf (byteSymbol b)⟩, ⟨1, 1, .leaf 256⟩] := by
  have honly : ∀ c : Byte, 0 < freq[c.toNat]'c.isLt ↔ c = b := fun c =>
    ⟨fun hc => by_contra fun hne => hc.ne' (h c hne), fun e => e ▸ hb⟩
  have hone : (allBytes.filter fun c => 0 < freq[c.toNat]'c.isLt) = [b] := by
    simp only [honly]
    rw [List.filter_eq, List.count_eq_one_of_mem allBytes_nodup (mem_allBytes b)]
    rfl
  rw [initialItems, weightedLeaves, hone]
  rfl

/-- The merging of two items: the one that comes first is the left child (R112, R113). -/
theorem mergeAll_pair (fuel q : Nat) (x y : Item) :
    mergeAll (fuel + 1) q [x, y] = some (if y.before x then .node y.t x.t else .node x.t y.t) := by
  cases h : y.before x with
  | true => simp [mergeAll, extractMin, h]
  | false => simp [mergeAll, extractMin, h]

/-- Settles O37: the byte comes first on equal weights, the sentinel when it is lighter. -/
theorem oneByteBuilds : Obligations.OneByteBuilds := by
  intro freq b hb h
  rw [buildTree, initialItems_of_one hb h]
  refine (mergeAll_pair _ _ _ _).trans (congrArg some ?_)
  by_cases hone : freq[b.toNat]'b.isLt = 1
  · rw [if_pos hone, if_neg (by simp [Item.before, hone])]
  · rw [if_neg hone, if_pos (Item.before_iff.2 (.inl (by simp only; omega)))]

end Sys2Proof.Machine
end

section
/-! The magic word, written and read (42_tree_codec.md R120, R125). -/

namespace Sys2Proof.Machine

theorem wmagicBody_closed {s : State} (ho : s.status.oclosed = true) : wmagicBody s = .raise .outClosed s := by
  rw [wmagicBody, raiseIf_of_true ho]

theorem wmagicBody_fail {s : State} (ho : s.status.oclosed = false) (h : s.FailsAt 0) :
    wmagicBody s = .raise .ioOut (s.afterCalls 1) := by
  rw [wmagicBody, raiseIf_of_false ho, writeOr_fail (fail_head h)]

/-- Settles O39: a closed OUT, an answered and a failed write are the three ends of WMAGIC. -/
theorem wmagicWritesTheMagic : Obligations.WmagicWritesTheMagic := by
  intro s
  rw [exec_eq, bodyOf]
  refine ⟨fun ho => ?_, fun ho hok => ?_, fun ho hf => ?_⟩
  · rw [wmagicBody_closed ho]
    rfl
  · rw [wmagicBody_ok ho hok, Res.finish_ok, State.appendOut, msbf_length]
    rfl
  · rw [wmagicBody_fail ho hf]
    rfl

/-- R125 on 32 bits that are not the magic word. -/
theorem rmagicBody_bad {s : State} {v : Word} {rest : Bits} (h : s.inRest = msbf 32 v.toNat ++ rest) (hok : s.OkFor 1)
    (hv : v ≠ s.params.magic) :
    rmagicBody s = .raise .fmtMagicBad (((s.setDState .expectMagic).afterCalls 1).seekIn (s.inCur + 32)) := by
  have hread := readOr_ok (s := s.setDState .expectMagic) (short := .fmtMagicShort) (State.OkFor.head (k := 0) hok) h
    (msbf_length 32 v.toNat) (by decide)
  rw [bitsVal_ofNat_msbf] at hread
  rw [rmagicBody, hread, Res.bind_ok]
  exact raiseIf_pos hv ..

/-- R125 where the read itself raises. -/
theorem rmagicBody_of_read_raises {s s' : State} {e : Err}
    (h : readOr 32 .fmtMagicShort (s.setDState .expectMagic) = .raise e s') : rmagicBody s = .raise e s' := by
  rw [rmagicBody, h, Res.bind_raise]

/-- Settles O41: 32 bits are read and compared, or the read is short or fails. -/
theorem rmagicChecksTheMagic : Obligations.RmagicChecksTheMagic := by
  intro s
  rw [exec_eq, bodyOf]
  refine ⟨fun v rest h hok => ⟨fun hv => ?_, fun hv => ?_⟩, fun hlt hok => ?_, fun hf => ?_⟩
  · rw [rmagicBody_ok (hv ▸ h) hok]
    rfl
  · rw [rmagicBody_bad h hok hv]
    rfl
  · have hleft : (s.setDState .expectMagic).inLeft < 32 := s.inRest_length ▸ hlt
    rw [rmagicBody_of_read_raises (readOr_short (State.OkFor.head (k := 0) hok) hleft)]
    rfl
  · rw [rmagicBody_of_read_raises (readOr_fail (fail_head (s := s.setDState .expectMagic) hf))]
    rfl

end Sys2Proof.Machine
end

section
/-! WTREE and RTREE on a header (30_encoding.md R90, R91; 42_tree_codec.md R121, R130 to R135). -/

namespace Sys2Proof.Machine

/-! ### Writing a header -/

/-- R121 where the call after the first `k` fails. -/
theorem wtreeBody_fail {s : State} {t : Tree} {k : Nat} (hv : s.status.treeValid = true) (ht : s.tree = some t)
    (ho : s.status.oclosed = false) (hk : k < t.nodes + t.leaves) (hf : s.FailsAt k) :
    wtreeBody s = .raise .ioOut ((s.afterCalls (k + 1)).appendOut ((headerCalls t).take k).flatten) := by
  rw [wtreeBody, withTree_some hv ht, raiseIf_of_false ho, emitTree_eq_writeCalls,
    writeCalls_fail (headerCalls_length t ▸ hk) hf.1 hf.2]

/-- Settles O40: the calls of `emit` carry the header, whose length is R91's. -/
theorem wtreeWritesTheHeader : Obligations.WtreeWritesTheHeader := by
  intro s t hv ht ho
  have hlen : (ser t).length = 11 * t.leaves - 1 := Nat.eq_sub_of_add_eq (ser_length t)
  rw [exec_eq, bodyOf]
  refine ⟨hlen, fun hok => ?_, fun k hk hf => ?_, headerCalls_flatten t, headerCalls_length t⟩
  · rw [wtreeBody_ok hv ht ho hok, Res.finish_ok, State.appendOut, hlen]
    rfl
  · rw [wtreeBody_fail hv ht ho hk hf]
    rfl

/-! ### Reading a header -/

/-- Settles O42: `rd()` inverts `ser`, and the stored tree is not degenerate. -/
theorem rtreeReadsTheHeader : Obligations.RtreeReadsTheHeader := by
  intro s t rest ht h hok
  rw [exec_eq, bodyOf, rtreeBody_ok ht h hok]
  rfl

/-- RTREE inside `rd()`, after `k` channel calls and with `n` bits consumed (R130). -/
def State.rtreeAt (s : State) (k n : Nat) : State :=
  (((s.setDState .readHeader).dropTree.dropCode).afterCalls k).seekIn (s.inCur + n)

theorem State.rtreeAt_failed (s : State) (k n : Nat) (e : Err) :
    (s.rtreeAt k n).failed 0x33 e = s.rtreeFailed k n e := rfl

theorem State.rtreeAt_afterCalls (s : State) (k n : Nat) : (s.rtreeAt k n).afterCalls 1 = s.rtreeAt (k + 1) n := by
  rw [State.rtreeAt, State.seekIn_afterCalls, State.afterCalls_afterCalls]
  rfl

theorem State.rtreeAt_seekIn (s : State) (k m n : Nat) :
    (s.rtreeAt k m).seekIn ((s.rtreeAt k m).inCur + n) = s.rtreeAt k (m + n) := by
  rw [State.rtreeAt, State.seekIn_seekIn, State.seekIn_inCur, Nat.add_assoc]
  rfl

theorem State.inRest_rtreeAt {s : State} {bs rest : Bits} (k : Nat) (h : s.inRest = bs ++ rest) :
    (s.rtreeAt k bs.length).inRest = rest :=
  State.inRest_after (s := ((s.setDState .readHeader).dropTree.dropCode).afterCalls k) h rfl

theorem State.rtreeAt_okFor {s : State} {k j n : Nat} (h : s.OkFor (k + j)) : (s.rtreeAt k n).OkFor j :=
  State.OkFor.drop h

theorem State.rtreeAt_failsAt {s : State} {k n : Nat} (h : s.FailsAt k) : (s.rtreeAt k n).FailsAt 0 :=
  failsAt_drop (s := (s.setDState .readHeader).dropTree.dropCode) h

/-- A header's calls are control bits and 9-bit value fields (R67). -/
theorem headerCalls_width {t : Tree} {c : Bits} (h : c ∈ headerCalls t) : c.length = 1 ∨ c.length = 9 := by
  induction t with
  | leaf x =>
    simp only [headerCalls, List.mem_cons, List.not_mem_nil, or_false] at h
    rcases h with rfl | rfl
    · exact .inl rfl
    · exact .inr (msbf_length ..)
  | node l r hl hr =>
    simp only [headerCalls, List.mem_cons, List.mem_append] at h
    rcases h with rfl | h | h
    · exact .inl rfl
    · exact hl h
    · exact hr h

theorem readLeaf_of_read_raises {s s' : State} {e : Err} (h : readOr 9 .fmtTreeTrunc s = .raise e s') :
    readLeaf s = .raise e s' := by
  rw [readLeaf, h, Res.bind_raise]

/-- R131. -/
theorem readLeaf_bad {s : State} {v : BitVec 9} {post : Bits} (hok : s.OkFor 1) (h : s.inRest = msbf 9 v.toNat ++ post)
    (hv : 256 < v.toNat) : readLeaf s = .raise .fmtTreeSym ((s.afterCalls 1).seekIn (s.inCur + 9)) := by
  rw [readLeaf, readOr_ok (State.OkFor.head (k := 0) hok) h (msbf_length ..) (by decide), Res.bind_ok,
    bitsVal_ofNat_msbf, symbolOf_none.2 hv]

/-! ### What RTREE rejects -/

section
variable {s : State} {t : Tree} {k n : Nat} {c rest : Bits} {e : Err}

/-- RTREE ends where the `k`-th call of a header raises, be it a control bit or a value field. -/
theorem exec_rtree_of_call_raises (hi : s.Inv) (hc : (headerCalls t)[k]? = some c)
    (hcap : ((headerCalls t).take (k + 1)).countP (fun b => b.length = 1) ≤ Config.nodeCap)
    (h : s.inRest = ((headerCalls t).take k).flatten ++ rest) (hok : s.OkFor k)
    (hbit : c.length = 1 →
      readOr 1 .fmtTreeTrunc (s.rtreeAt k ((headerCalls t).take k).flatten.length) = .raise e (s.rtreeAt (k + 1) n))
    (hval : c.length = 9 →
      readLeaf (s.rtreeAt k ((headerCalls t).take k).flatten.length) = .raise e (s.rtreeAt (k + 1) n)) :
    exec .rtree s = .next (s.rtreeFailed (k + 1) n e) := by
  refine rtree_raise (s' := s.rtreeAt (k + 1) n)
    (readTree_cut hc hok h hi.inpos (Nat.le_refl _) (Nat.zero_add _ ▸ hcap) ?_)
  rcases headerCalls_width (List.mem_of_getElem? hc) with h1 | h9
  · rw [if_pos h1]
    exact congrArg (Res.bind · fun _ _ => .stuck) (hbit h1)
  · rw [if_neg (by omega)]
    exact congrArg (Res.bind · fun _ _ => .stuck) (hval h9)

/-- The same where the call's read raises, short or failed: it consumes nothing. -/
theorem exec_rtree_of_read_raises (hi : s.Inv) (hc : (headerCalls t)[k]? = some c)
    (hcap : ((headerCalls t).take (k + 1)).countP (fun b => b.length = 1) ≤ Config.nodeCap)
    (h : s.inRest = ((headerCalls t).take k).flatten ++ rest) (hok : s.OkFor k)
    (hr : readOr c.length .fmtTreeTrunc (s.rtreeAt k ((headerCalls t).take k).flatten.length) =
      .raise e ((s.rtreeAt k ((headerCalls t).take k).flatten.length).afterCalls 1)) :
    exec .rtree s = .next (s.rtreeFailed (k + 1) ((headerCalls t).take k).flatten.length e) := by
  rw [State.rtreeAt_afterCalls] at hr
  refine exec_rtree_of_call_raises hi hc hcap h hok (fun h1 => ?_) fun h9 => readLeaf_of_read_raises ?_
  · rwa [h1] at hr
  · rwa [h9] at hr

/-- R130: the header is cut inside its `k`-th call. -/
theorem exec_rtree_short (hi : s.Inv) (hc : (headerCalls t)[k]? = some c)
    (hcap : ((headerCalls t).take (k + 1)).countP (fun b => b.length = 1) ≤ Config.nodeCap)
    (h : s.inRest = ((headerCalls t).take k).flatten ++ rest) (hok : s.OkFor (k + 1)) (hlt : rest.length < c.length) :
    exec .rtree s = .next (s.rtreeFailed (k + 1) ((headerCalls t).take k).flatten.length .fmtTreeTrunc) :=
  exec_rtree_of_read_raises hi hc hcap h (hok.mono (Nat.le_succ k))
    (readOr_short (State.OkFor.head (k := 0) (State.rtreeAt_okFor hok)) (inLeft_of (State.inRest_rtreeAt k h) ▸ hlt))

/-- R130: the `k`-th call fails. -/
theorem exec_rtree_fail (hi : s.Inv) (hc : (headerCalls t)[k]? = some c)
    (hcap : ((headerCalls t).take (k + 1)).countP (fun b => b.length = 1) ≤ Config.nodeCap)
    (h : s.inRest = ((headerCalls t).take k).flatten ++ rest) (hf : s.FailsAt k) :
    exec .rtree s = .next (s.rtreeFailed (k + 1) ((headerCalls t).take k).flatten.length .ioIn) :=
  exec_rtree_of_read_raises hi hc hcap h hf.1 (readOr_fail (fail_head (State.rtreeAt_failsAt hf)))

/-- R131: the `k`-th call reads a value field that is no symbol. -/
theorem exec_rtree_badSymbol {v : BitVec 9} {post : Bits} (hi : s.Inv) (hc : (headerCalls t)[k]? = some c)
    (hcap : ((headerCalls t).take (k + 1)).countP (fun b => b.length = 1) ≤ Config.nodeCap)
    (h : s.inRest = ((headerCalls t).take k).flatten ++ (msbf 9 v.toNat ++ post)) (hok : s.OkFor (k + 1))
    (h9 : c.length = 9) (hv : 256 < v.toNat) :
    exec .rtree s = .next (s.rtreeFailed (k + 1) (((headerCalls t).take k).flatten.length + 9) .fmtTreeSym) := by
  refine exec_rtree_of_call_raises hi hc hcap h (hok.mono (Nat.le_succ k)) (fun h1 => by omega) fun _ => ?_
  rw [readLeaf_bad (State.rtreeAt_okFor hok) (State.inRest_rtreeAt k h) hv, State.rtreeAt_afterCalls]
  exact congrArg _ (State.rtreeAt_seekIn s (k + 1) _ 9)

/-- R132: the `k`-th call would start one node more than the cap. -/
theorem exec_rtree_overflow (hi : s.Inv) (hc : (headerCalls t)[k]? = some c) (h1 : c.length = 1)
    (hcap : ((headerCalls t).take k).countP (fun b => b.length = 1) = Config.nodeCap)
    (h : s.inRest = ((headerCalls t).take k).flatten ++ rest) (hok : s.OkFor k) :
    exec .rtree s = .next (s.rtreeFailed k ((headerCalls t).take k).flatten.length .fmtTreeOvf) :=
  rtree_raise (readTree_overflow hc h1 (Nat.zero_add _ ▸ hcap) hok h hi.inpos (Nat.le_refl _))

/-- R133: the header of a root leaf other than `SENT`. -/
theorem exec_rtree_degenerate {x : Symbol} (hx : x ≠ Config.sent) (h : s.inRest = ser (.leaf x) ++ rest)
    (hok : s.OkFor 2) : exec .rtree s = .next (s.rtreeFailed 2 10 .fmtTreeDegen) := by
  have hread : readTree Config.nodeCap 0 ((s.setDState .readHeader).dropTree.dropCode) =
      .ok (.leaf x, 1) (s.rtreeAt 2 10) :=
    readTree_ser (t := .leaf x) hok h (Nat.le_refl _) (by decide : 1 ≤ 513)
  have hdegen : (Tree.leaf x).degenerate = true := decide_eq_true hx
  rw [exec_eq, bodyOf, rtreeBody, hread, Res.bind_ok, raiseIf_of_true hdegen]
  rfl

end

/-- Settles O43: each way a header is cut or broken is the raise of the call that meets it. -/
theorem rtreeRejectsBadHeaders : Obligations.RtreeRejectsBadHeaders := by
  intro s hi
  refine ⟨fun t k c rest hc hcap h => ⟨fun hlt hok => ?_, fun hf => ?_, ?_⟩,
    fun t k c rest hc h1 hcap h hok => ?_, fun x rest hx h hok => ?_⟩
  · exact exec_rtree_short hi hc hcap h hok hlt
  · exact exec_rtree_fail hi hc hcap h hf
  · rintro v post h9 rfl hv hok
    exact exec_rtree_badSymbol hi hc hcap h hok h9 hv
  · exact exec_rtree_overflow hi hc h1 hcap h hok
  · exact exec_rtree_degenerate hx h hok

end Sys2Proof.Machine
end

section
/-! DECODE on a tree without the sentinel (42_tree_codec.md R134; 45_decoder.md R162). -/

namespace Sys2Proof.Machine

/-- In a storable tree only the sentinel can be the root (R25). -/
theorem path_ne_nil_of_ne_sent {t : Tree} (ht : t.degenerate = false) {a : Symbol × Bits} (ha : a ∈ t.paths)
    (hne : a.1 ≠ Config.sent) : a.2 ≠ [] := by
  obtain ⟨x, p⟩ := a
  obtain ⟨b, rfl⟩ := (symbol_cases x).resolve_left hne
  exact path_ne_nil ht ha

/-- Any bits are whole paths of the tree, one after another, and then run out inside a path. -/
theorem Tree.paths_then_short {t : Tree} (hne : ∀ a ∈ t.paths, a.2 ≠ []) (bs : Bits) :
    ∃ (xs : List (Symbol × Bits)) (rest p : Bits) (x : Symbol), (∀ a ∈ xs, a ∈ t.paths) ∧ xs.length ≤ bs.length ∧
      bs = xs.flatMap Prod.snd ++ rest ∧ (x, p) ∈ t.paths ∧ rest <+: p ∧ rest ≠ p := by
  induction hn : bs.length using Nat.strong_induction_on generalizing bs with
  | _ n ih =>
    subst hn
    rcases t.path_or_short bs with ⟨x, p, rest, hp, rfl⟩ | ⟨x, p, hp, hpre, hnep⟩
    · have hpos : 0 < p.length := List.length_pos_iff.2 (hne _ hp)
      have hlt : rest.length < (p ++ rest).length := by rw [List.length_append]; omega
      obtain ⟨xs, rest', q, y, hxs, hle, rfl, hq⟩ := ih rest.length hlt rest rfl
      refine ⟨(x, p) :: xs, rest', q, y, ?_, ?_, ?_, hq⟩
      · exact List.forall_mem_cons.2 ⟨hp, hxs⟩
      · exact Nat.succ_le_of_lt (hle.trans_lt hlt)
      · rw [List.flatMap_cons, List.append_assoc]
    · exact ⟨[], bs, p, x, by simp, Nat.zero_le _, rfl, hp, hpre, hnep⟩

/-- DECODE of whole paths of symbols other than the sentinel, and then bits that run out inside a path (R162). -/
theorem decodeBody_short {s : State} {t : Tree} {xs : List (Symbol × Bits)} {rest p : Bits} {x : Symbol} (hi : s.Inv)
    (ht : s.tree = some t) (ho : s.status.oclosed = false) (hr : s.Reliable)
    (hxs : ∀ a ∈ xs, a ∈ t.paths ∧ a.1 ≠ Config.sent) (hle : xs.length ≤ s.inLeft)
    (h : s.inRest = xs.flatMap Prod.snd ++ rest) (hp : (x, p) ∈ t.paths) (hpre : rest <+: p) (hne : rest ≠ p) :
    decodeBody s = .raise .fmtDataTrunc
      (((s.startDecode.decoded xs).afterCalls (rest.length + 1)).seekIn
        ((s.startDecode.decoded xs).inCur + rest.length)) := by
  have hrest : (s.startDecode.decoded xs).inRest = rest := State.inRest_decoded (s := s.startDecode) h
  have hrel : (s.startDecode.decoded xs).Reliable := reliable_congr hr _ rfl
  have hwalk := walk_short hp (hrel.okFor _) (hrest ▸ hpre) (hrest ▸ hne) rfl
  rw [inLeft_of hrest] at hwalk
  obtain ⟨f, hf⟩ : ∃ f, s.inLeft + 1 = xs.length + 1 + f := ⟨s.inLeft - xs.length, by omega⟩
  rw [decodeBody, withTree_some (inv_tv hi ht) ht, raiseIf_of_false ho, hf]
  exact decodeLoop_walk_raises (s := s.startDecode) hxs h (hr.okFor _) hi.inpos hwalk

/-- Settles O53: every bit of IN is of a path, and no path is the sentinel's. -/
theorem decodeWithoutSentinelTruncates : Obligations.DecodeWithoutSentinelTruncates := by
  intro s t hi ht hsent ho hr
  have hne : ∀ a ∈ t.paths, a.1 ≠ Config.sent := fun a ha e =>
    hsent (Tree.symbols_eq_paths t ▸ List.mem_map.2 ⟨a, ha, e⟩)
  obtain ⟨xs, rest, p, x, hxs, hle, hrest, hp, hpre, hnep⟩ :=
    Tree.paths_then_short (fun a ha => path_ne_nil_of_ne_sent (hi.treeOk t ht).root ha (hne a ha)) s.inRest
  have hall : s.inCur + (xs.flatMap Prod.snd).length + rest.length = s.inBits.length := by
    have hleft := inLeft_of hrest
    rw [State.inLeft, List.length_append] at hleft
    have hcur := hi.cursor
    omega
  have hbody := decodeBody_short hi ht ho hr (fun a ha => ⟨hxs a ha, hne a (hxs a ha)⟩)
    (s.inRest_length ▸ hle) hrest hp hpre hnep
  exact ⟨_, by rw [exec_eq, bodyOf, hbody, Res.finish_raise], rfl, rfl, rfl, hall, rfl, rfl⟩

end Sys2Proof.Machine
end

section
/-! The stored codes: the paths GENCODE keeps, and how much of the code space they fill (43_code_table.md R140 to R143). -/

namespace Sys2Proof.Machine

/-- Settles O44: a symbol's entry is the path of its last leaf. -/
theorem gencodeStoresThePaths : Obligations.GencodeStoresThePaths := by
  intro s t hv ht
  refine ⟨genTable t, genTable_get t, ?_⟩
  rw [exec_eq, bodyOf, gencodeBody_ok hv ht, Res.finish_ok]
  rfl

/-- A stored code is the path of a leaf of its symbol (R143). -/
theorem genTable_mem {t : Tree} {x : Symbol} {p : Bits} (h : (genTable t).get x = some p) : (x, p) ∈ t.paths :=
  lastPath_mem (genTable_get t x ▸ h)

/-! ### The code space: the sum over the code lengths -/

theorem lastPath_singleton (sp : Symbol × Bits) (x : Symbol) :
    lastPath [sp] x = if x = sp.1 then some sp.2 else none := by
  by_cases h : x = sp.1
  · simp [lastPath, h]
  · simp [lastPath, h, Ne.symm h]

/-- Where no symbol repeats, a sum over the symbols' last paths counts every path. -/
theorem sum_lastPath (f : Bits → Nat) {ps : List (Symbol × Bits)} (h : (ps.map Prod.fst).Nodup) :
    ∑ x : Symbol, (lastPath ps x).elim 0 f = (ps.map fun sp => f sp.2).sum := by
  induction ps with
  | nil => simp [lastPath]
  | cons sp ps ih =>
    obtain ⟨hsp, hps⟩ := List.nodup_cons.1 h
    have hsplit (x : Symbol) : (lastPath (sp :: ps) x).elim 0 f =
        (if x = sp.1 then f sp.2 else 0) + (lastPath ps x).elim 0 f := by
      rw [← List.singleton_append, lastPath_append, lastPath_singleton]
      cases hl : lastPath ps x with
      | none => by_cases hx : x = sp.1 <;> simp [hx]
      | some p =>
        have hx : x ≠ sp.1 := fun e => hsp (e ▸ List.mem_map_of_mem (lastPath_mem hl))
        simp [hx]
    simp only [hsplit, Finset.sum_add_distrib, ih hps, Finset.sum_ite_eq', Finset.mem_univ, if_true,
      List.map_cons, List.sum_cons]

/-- The Kraft sum of depths up to `n`, counted in units of `2^-n`. -/
theorem sum_two_pow_sub {n : Nat} {ds : List Nat} (h : ∀ d ∈ ds, d ≤ n) :
    ((ds.map fun d => 2 ^ (n - d)).sum : ℕ) = (2 ^ n * kraft ds : ℚ) := by
  rw [kraft, ← List.sum_map_mul_left, Nat.cast_list_sum, List.map_map]
  refine congrArg List.sum (List.map_congr_left fun d hd => ?_)
  rw [Function.comp_apply, Nat.cast_pow, Nat.cast_ofNat, pow_sub₀ _ two_ne_zero (h d hd), one_div, inv_pow]

/-- The leaves of a tree no deeper than `n` fill a space of `2^n` words. -/
theorem Tree.sum_two_pow_paths {t : Tree} {n : Nat} (h : t.height ≤ n) :
    (t.paths.map fun sp => 2 ^ (n - sp.2.length)).sum = 2 ^ n := by
  have hdepth : ∀ d ∈ t.paths.map fun sp => sp.2.length, d ≤ n := by
    rintro _ hd
    obtain ⟨sp, hsp, rfl⟩ := List.mem_map.1 hd
    exact (path_length_le hsp).trans h
  have hsum := sum_two_pow_sub hdepth
  rw [kraft_tree, mul_one, List.map_map] at hsum
  exact_mod_cast hsum

/-- Settles O45: the codes are paths of leaves, one of each leaf where the symbols are distinct. -/
theorem codesArePrefixFree : Obligations.CodesArePrefixFree := by
  intro t
  refine ⟨fun x y p q hx hy hpq => ?_, fun hnodup hheight => ?_⟩
  · exact (Tree.paths_prefix_free (genTable_mem hx) (genTable_mem hy) hpq).1
  · rw [← Tree.sum_two_pow_paths hheight,
      ← sum_lastPath (fun p => 2 ^ (256 - p.length)) (Tree.symbols_eq_paths t ▸ hnodup)]
    refine Finset.sum_congr rfl fun x _ => ?_
    rw [genTable_get]
    cases lastPath t.paths x with
    | none => rfl
    | some p => rfl

end Sys2Proof.Machine
end

section
/-! ENCSYM and ENCODE: the bits of one code, and how the loop of ENCODE ends at each of its stops (44_encoder.md R150,
R151). -/

namespace Sys2Proof.Machine

/-! ### One symbol -/

theorem exec_encsym {a : BitVec 9} (h : a.toNat < 257) (s : State) :
    exec (.encsym a) s = (encsymBody ⟨a.toNat, h⟩ s).finish 0x50 := by
  rw [exec_eq, bodyOf, encsymArgBody, sym_of h]
  rfl

theorem writeCode_none {s : State} {x : Symbol} (h : s.codeAt x = none) : writeCode x s = .raise .noSymbol s := by
  rw [writeCode, h]

/-- R150 at a failed write. -/
theorem encsymBody_fail {s : State} {x : Symbol} {bs : Bits} {k : Nat} (hv : s.status.codeValid = true)
    (ho : s.status.oclosed = false) (hc : s.codeAt x = some bs) (hk : k < bs.length) (hf : s.FailsAt k) :
    encsymBody x s = .raise .ioOut ((s.afterCalls (k + 1)).appendOut (bs.take k)) := by
  rw [encsymBody, withEncoder_ok hv ho, writeCode_fail hc hk hf.1 hf.2]

theorem State.appendOut_take (s : State) {bs : Bits} {k : Nat} (hk : k ≤ bs.length) : s.appendOut (bs.take k) =
    { s with outBits := s.outBits ++ bs.take k, outpos := s.outpos + BitVec.ofNat 32 k } := by
  rw [State.appendOut, List.length_take_of_le hk]

/-- Settles O46: the code is written bit by bit, and a call that fails leaves the bits before it. -/
theorem encsymWritesTheCode : Obligations.EncsymWritesTheCode := by
  intro s a h bs hv ho hc
  replace hc : s.codeAt ⟨a.toNat, h⟩ = some bs := hc
  refine ⟨fun hok => ?_, fun k hk hf => ?_⟩
  · rw [exec_encsym h, encsymBody_ok hv ho hc hok, Res.finish_ok]
    rfl
  · rw [exec_encsym h, encsymBody_fail hv ho hc hk hf, Res.finish_raise, State.appendOut_take _ hk.le]
    rfl

/-! ### The stops of ENCODE -/

/-- `s` after ENCODE has read the units `us` and written their codes `bs` (R151). -/
def State.encoded (s : State) (us : List Byte) (bs : Bits) : State :=
  ((s.afterCalls (us.length + bs.length)).appendOut bs).seekIn (s.inCur + 8 * us.length)

/-- `s` after ENCODE has in addition read one unit more, whose code is not yet written. -/
def State.encodedThenRead (s : State) (us : List Byte) (bs : Bits) : State :=
  ((s.afterCalls (us.length + bs.length + 1)).appendOut bs).seekIn (s.inCur + 8 * (us.length + 1))

theorem State.encoded_afterCalls (s : State) (us : List Byte) (bs : Bits) (k : Nat) : (s.encoded us bs).afterCalls k =
    ((s.afterCalls (us.length + bs.length + k)).appendOut bs).seekIn (s.inCur + 8 * us.length) := by
  rw [State.encoded, State.seekIn_afterCalls, State.afterCalls_appendOut, State.afterCalls_afterCalls]

theorem State.encoded_read (s : State) (us : List Byte) (bs : Bits) :
    ((s.encoded us bs).afterCalls 1).seekIn ((s.encoded us bs).inCur + 8) = s.encodedThenRead us bs := by
  rw [State.encoded_afterCalls, State.seekIn_seekIn]
  rfl

/-- A write of the unit's code that fails after `k` bits. -/
theorem State.encodedThenRead_cut (s : State) (us : List Byte) (bs : Bits) {c : Bits} {k : Nat} (hk : k ≤ c.length) :
    ((s.encodedThenRead us bs).afterCalls (k + 1)).appendOut (c.take k) =
      { s with outBits := s.outBits ++ bs ++ c.take k, outpos := s.outpos + BitVec.ofNat 32 (bs.length + k),
               inCur := s.inCur + 8 * (us.length + 1), inpos := BitVec.ofNat 32 (s.inCur + 8 * (us.length + 1)),
               answers := s.answers.drop (us.length + bs.length + 1 + k + 1) } := by
  rw [State.encodedThenRead, State.seekIn_afterCalls, State.afterCalls_appendOut, State.afterCalls_afterCalls,
    State.appendOut_take _ hk, BitVec.ofNat_add bs.length k, ← BitVec.add_assoc]
  rfl

theorem State.encoded_okFor {s : State} {us : List Byte} {bs : Bits} {k : Nat}
    (h : s.OkFor (us.length + bs.length + k)) : (s.encoded us bs).OkFor k :=
  State.OkFor.drop h

theorem State.encoded_failsAt {s : State} {us : List Byte} {bs : Bits} {k : Nat}
    (h : s.FailsAt (us.length + bs.length + k)) : (s.encoded us bs).FailsAt k :=
  failsAt_drop h

theorem State.encodedThenRead_failsAt {s : State} {us : List Byte} {bs : Bits} {k : Nat}
    (h : s.FailsAt (us.length + bs.length + 1 + k)) : (s.encodedThenRead us bs).FailsAt k :=
  failsAt_drop h

theorem State.inRest_encoded {s : State} {us : List Byte} {bs rest : Bits} (h : s.inRest = bytesToBits us ++ rest) :
    (s.encoded us bs).inRest = rest :=
  State.inRest_after h (bytesToBits_length us)

theorem encodeLoop_fail {fuel : Nat} {s : State} (h : s.FailsAt 0) :
    encodeLoop (fuel + 1) s = .raise .ioIn (s.afterCalls 1) := by
  rw [encodeLoop, inRead_fail (fail_head h)]

theorem encodeLoop_unit {fuel : Nat} {s : State} {b : Byte} {rest : Bits} (hok : s.OkFor 1)
    (h : s.inRest = msbf 8 b.toNat ++ rest) : encodeLoop (fuel + 1) s =
      (writeCode (byteSymbol b) ((s.afterCalls 1).seekIn (s.inCur + 8))).andThen (encodeLoop fuel) := by
  rw [encodeLoop, inRead_unit (State.OkFor.head (k := 0) hok) h]

section
variable {s : State} {pre post : List Byte} {b : Byte} {bs : Bits} (hi : s.Inv) (hv : s.status.codeValid = true)
  (ho : s.status.oclosed = false) (hc : codesOf s.code (pre.map byteSymbol) = some bs)
include hi hv ho hc

/-- The units before the stop are read and their codes written; the rest of ENCODE's loop starts where they end. -/
theorem encodeBody_units (h : s.unitsLeft = pre ++ post) (hok : s.OkFor (pre.length + bs.length)) :
    encodeBody s = encodeLoop (post.length + 1) (s.encoded pre bs) := by
  obtain ⟨tail, hrest, -⟩ := count_split hi
  rw [h, bytesToBits_append, List.append_assoc] at hrest
  rw [encodeBody, withEncoder_ok hv ho, units_fuel h, encodeLoop_units hrest hc hok hi.inpos, State.encoded]

/-- R151 at a failed read, also the one at the end of IN. -/
theorem encodeBody_fail (h : s.unitsLeft = pre ++ post) (hf : s.FailsAt (pre.length + bs.length)) :
    encodeBody s = .raise .ioIn ((s.encoded pre bs).afterCalls 1) := by
  rw [encodeBody_units hi hv ho hc h hf.1, encodeLoop_fail (State.encoded_failsAt hf)]

/-- R151 at a unit whose code is not written to its end: the unit is consumed. -/
theorem encodeBody_of_code_raises {e : Err} {t : State} (h : s.unitsLeft = pre ++ b :: post)
    (hok : s.OkFor (pre.length + bs.length + 1))
    (hw : writeCode (byteSymbol b) (s.encodedThenRead pre bs) = .raise e t) : encodeBody s = .raise e t := by
  obtain ⟨tail, hrest, -⟩ := count_split hi
  rw [h, bytesToBits_append, bytesToBits_cons, List.append_assoc, List.append_assoc] at hrest
  rw [encodeBody_units hi hv ho hc h (hok.mono (Nat.le_succ _)),
    encodeLoop_unit (State.encoded_okFor hok) (State.inRest_encoded hrest), State.encoded_read, hw, Res.andThen_raise]

end

/-- Settles O47: the codes of the units before the stop are written, and then IN is exhausted, a unit has no code, the
read fails or a write inside a code fails. -/
theorem encodeWritesTheCodes : Obligations.EncodeWritesTheCodes := by
  intro s hi hv ho
  refine ⟨fun bs hc hok => ?_, fun pre b post bs h hc hnone hok => ?_, fun pre post bs h hc hf => ?_,
    fun pre b post bs c k h hc hcode hk hf => ?_⟩
  · obtain ⟨tail, hrest, htail⟩ := count_split hi
    rw [exec_eq, bodyOf, encodeBody_ok hv ho hrest htail hc hok hi.inpos, Res.finish_ok]
    rfl
  · have hw : writeCode (byteSymbol b) (s.encodedThenRead pre bs) = .raise .noSymbol (s.encodedThenRead pre bs) :=
      writeCode_none hnone
    rw [exec_eq, bodyOf, encodeBody_of_code_raises hi hv ho hc h hok hw, Res.finish_raise]
    rfl
  · rw [exec_eq, bodyOf, encodeBody_fail hi hv ho hc h hf, Res.finish_raise, State.encoded_afterCalls]
    rfl
  · have hread := State.encodedThenRead_failsAt hf
    have hw := writeCode_fail (s := s.encodedThenRead pre bs) hcode hk hread.1 hread.2
    have hok := hf.1.mono (Nat.le_add_right _ k)
    rw [exec_eq, bodyOf, encodeBody_of_code_raises hi hv ho hc h hok hw, Res.finish_raise,
      State.encodedThenRead_cut _ _ _ hk.le]
    rfl

end Sys2Proof.Machine
end

section
/-! DECSYM and DECODE: what the walk answers is what the command does with it (45_decoder.md R160 to R163). -/

namespace Sys2Proof.Machine

theorem State.inCur_add_inLeft {s : State} (hi : s.Inv) : s.inCur + s.inLeft = s.inBits.length :=
  Nat.add_sub_cancel' hi.cursor

/-! ### One symbol -/

theorem State.endDecode_startDecode (s : State) : s.startDecode.endDecode = s.endDecode := rfl

/-- The end of a decode leaves alone what the walk and `RESULT` changed. -/
theorem State.endDecode_setResult (s : State) (k c : Nat) (x : Symbol) :
    (((s.afterCalls k).seekIn c).setResult x).endDecode = ((s.endDecode.afterCalls k).seekIn c).setResult x := rfl

section
variable {s u : State} {t : Tree} {x : Symbol} (hi : s.Inv) (ht : s.tree = some t)
include hi ht

/-- R161 where the walk resolves a symbol. -/
theorem decsymBody_of_walk_ok (hw : walk t s.startDecode = .ok x u) :
    decsymBody s = .ok () (if x = Config.sent then (u.setResult x).endDecode else u.setResult x) := by
  rw [decsymBody, withTree_some (inv_tv hi ht) ht, hw, Res.bind_ok]

/-- R161 where the walk raises. -/
theorem decsymBody_of_walk_raises {e : Err} (hw : walk t s.startDecode = .raise e u) : decsymBody s = .raise e u := by
  rw [decsymBody, withTree_some (inv_tv hi ht) ht, hw, Res.bind_raise]

end

/-- Settles O49: the walk reads the whole path, runs out inside it, or meets a failed read on it. -/
theorem decsymResolvesASymbol : Obligations.DecsymResolvesASymbol := by
  intro s t x p hi ht hp
  refine ⟨fun rest h hok => ?_, fun hpre hne hok => ?_, fun k rest h hk hf => ?_⟩
  · have hwalk := walk_path (s := s.startDecode) hp hok h hi.inpos
    rw [exec_eq, bodyOf, decsymBody_of_walk_ok hi ht hwalk, Res.finish_ok]
    by_cases hx : x = 256
    · rw [if_pos (show x = Config.sent from hx), if_pos hx, decide_eq_true hx, State.endDecode_setResult,
        State.endDecode_startDecode]
      rfl
    · rw [if_neg (show x ≠ Config.sent from hx), if_neg hx, decide_eq_false hx]
      rfl
  · rw [State.inRest_length] at hok ⊢
    have hwalk := walk_short (s := s.startDecode) hp hok hpre hne hi.inpos
    rw [exec_eq, bodyOf, decsymBody_of_walk_raises hi ht hwalk, Res.finish_raise, ← State.inCur_add_inLeft hi]
    rfl
  · have hwalk := walk_fail (s := s.startDecode) hp hf.1 hf.2 hk h hi.inpos
    rw [exec_eq, bodyOf, decsymBody_of_walk_raises hi ht hwalk, Res.finish_raise]
    rfl

/-! ### DECODE up to the sentinel -/

/-- Settles O50. -/
theorem decodeEndsAtTheSentinel : Obligations.DecodeEndsAtTheSentinel := by
  intro s t xs p rest hi ht ho hxs hp h hok
  rw [exec_eq, bodyOf, decodeBody_ok hi ht ho hxs hp h hok, Res.finish_ok]

/-- Settles O52: the codes are paths of the tree's leaves, which DECODE resolves one after another. -/
theorem decodingInvertsEncoding : Obligations.DecodingInvertsEncoding := by
  intro s freq t xs codes y hi _ ht ho hr hcodes h
  obtain ⟨ps, p, rfl, hps, hp, rfl⟩ := codesOf_split hcodes
  refine ⟨_, decodeEndsAtTheSentinel s t ps p y hi ht ho hps hp h (hr.okFor _), ?_⟩
  exact ⟨rfl, rfl, rfl, rfl, rfl⟩

/-! ### DECODE up to an error -/

theorem decodeLoop_of_walk_raises {s u : State} {t : Tree} {e : Err} (hw : walk t s = .raise e u) (fuel : Nat) :
    decodeLoop t (fuel + 1) s = .raise e u := by
  rw [decodeLoop, hw, Res.bind_raise]

/-- R162 at a failed write: `RESULT` holds the symbol already. -/
theorem decodeLoop_of_write_fails {s u : State} {t : Tree} {x : Symbol} (hw : walk t s = .ok x u) (hx : x ≠ Config.sent)
    (hf : u.FailsAt 0) (fuel : Nat) : decodeLoop t (fuel + 1) s = .raise .ioOut ((u.afterCalls 1).setResult x) := by
  rw [decodeLoop, hw, Res.bind_ok]
  dsimp only
  rw [if_neg hx, writeOr_fail (s := u.setResult x) (fail_head hf), Res.andThen_raise]
  rfl

theorem State.inRest_bytesDecoded {s : State} {xs : List (Byte × Bits)} {rest : Bits}
    (h : s.inRest = xs.flatMap Prod.snd ++ rest) : (s.bytesDecoded xs).inRest = rest :=
  State.inRest_after (s := s) h rfl

theorem State.bytesDecoded_okFor {s : State} {xs : List (Byte × Bits)} {k : Nat}
    (h : s.OkFor ((xs.flatMap Prod.snd).length + xs.length + k)) : (s.bytesDecoded xs).OkFor k :=
  State.OkFor.drop h

theorem State.bytesDecoded_failsAt {s : State} {xs : List (Byte × Bits)} {k : Nat}
    (h : s.FailsAt ((xs.flatMap Prod.snd).length + xs.length + k)) : (s.bytesDecoded xs).FailsAt k :=
  failsAt_drop h

/-- `k` channel calls more and `n` bits more of IN, after the bytes `xs`. -/
theorem State.bytesDecoded_then_read (s : State) (xs : List (Byte × Bits)) (k n : Nat) :
    ((s.bytesDecoded xs).afterCalls k).seekIn ((s.bytesDecoded xs).inCur + n) =
      { s.bytesDecoded xs with
          inCur := s.inCur + (xs.flatMap Prod.snd).length + n,
          inpos := BitVec.ofNat 32 (s.inCur + (xs.flatMap Prod.snd).length + n),
          answers := s.answers.drop ((xs.flatMap Prod.snd).length + xs.length + k) } := by
  rw [← List.drop_drop]
  rfl

/-- The bytes `xs` are resolved and written, and DECODE's loop goes on from there. -/
theorem decodeBody_bytes {s : State} {t : Tree} {xs : List (Byte × Bits)} {rest : Bits} (hi : s.Inv) (ht : s.tree = some t)
    (ho : s.status.oclosed = false) (hxs : ∀ a ∈ xs, (byteSymbol a.1, a.2) ∈ t.paths)
    (h : s.inRest = xs.flatMap Prod.snd ++ rest) (hok : s.OkFor ((xs.flatMap Prod.snd).length + xs.length)) :
    ∃ fuel, decodeBody s = decodeLoop t (fuel + 1) (s.bytesDecoded xs) := by
  obtain ⟨f, hf⟩ := fuel_ex hi ht hxs h
  refine ⟨f, ?_⟩
  rw [← symsOf_flat] at h hok
  rw [← symsOf_len] at hok
  rw [decodeBody, withTree_some (inv_tv hi ht) ht, raiseIf_of_false ho, hf, Nat.add_assoc, Nat.add_comm 1 f,
    decodeLoop_symbols (s := s.startDecode) (symsOf_mem hxs) h hok hi.inpos, decoded_syms]

/-- Settles O51: after the bytes, the walk runs out or meets a failed read, or the write of its symbol fails. -/
theorem decodeStopsAtAnError : Obligations.DecodeStopsAtAnError := by
  intro s t xs x p rest hi ht ho hxs hp
  refine ⟨fun h hpre hne hok => ?_, fun k hk h hf => ?_, fun hx h hf => ?_⟩
  · obtain ⟨fuel, hbody⟩ := decodeBody_bytes hi ht ho hxs h (hok.mono (by omega))
    have hrest := State.inRest_bytesDecoded h
    have hleft := inLeft_of hrest
    have hwalk := walk_short hp (hleft ▸ State.bytesDecoded_okFor hok) (hrest ▸ hpre) (hrest ▸ hne) rfl
    have hall : s.inCur + (xs.flatMap Prod.snd).length + rest.length = s.inBits.length := by
      rw [← State.inCur_add_inLeft hi, inLeft_of h, List.length_append, Nat.add_assoc]
    rw [hleft, State.bytesDecoded_then_read, hall] at hwalk
    rw [exec_eq, bodyOf, hbody, decodeLoop_of_walk_raises hwalk, Res.finish_raise]
    rfl
  · obtain ⟨fuel, hbody⟩ := decodeBody_bytes hi ht ho hxs h (hf.1.mono (Nat.le_add_right _ k))
    obtain ⟨hok, hfail⟩ := State.bytesDecoded_failsAt hf
    have hwalk := walk_fail hp hok hfail hk (State.inRest_bytesDecoded h) rfl
    rw [State.bytesDecoded_then_read] at hwalk
    rw [exec_eq, bodyOf, hbody, decodeLoop_of_walk_raises hwalk, Res.finish_raise]
    rfl
  · obtain ⟨fuel, hbody⟩ := decodeBody_bytes hi ht ho hxs h (hf.1.mono (Nat.le_add_right _ p.length))
    have hwalk := walk_path hp (State.bytesDecoded_failsAt hf).1 (State.inRest_bytesDecoded h) rfl
    rw [exec_eq, bodyOf, hbody, decodeLoop_of_write_fails hwalk hx (failsAt_drop (State.bytesDecoded_failsAt hf)),
      Res.finish_raise, State.seekIn_afterCalls, State.afterCalls_afterCalls, State.bytesDecoded_then_read]
    rfl

end Sys2Proof.Machine
end

section
/-! The drivers on reliable channels: COMPRESS writes the stream of its input, DECOMPRESS reads it back
(46_drivers.md R170 to R172). -/

namespace Sys2Proof.Machine

/-! ### COMPRESS -/

/-- Settles O54: the state the nine sub-steps end in, the last of them the close with its padding. -/
theorem compressWritesTheStream : Obligations.CompressWritesTheStream := by
  intro s hi hr h0 ho hfit
  obtain ⟨f, tr, codes, k, S, hf, htr, hcodes, hbody, hS⟩ := compressBody_ok hi hr h0 ho hfit
  refine ⟨f, tr, codes, S.padBits, S.closeOut.done, hf, htr, hcodes, ?_,
    by rw [exec_eq, bodyOf, hbody, Res.finish_ok], ?_⟩
  · rw [padBits_length, padLength, hS]
    simp only [List.length_append, msbf_length, Nat.add_assoc]
  · rw [State.closeOut]
    generalize S.padBits = pad
    simp only [hS, State.done, List.append_assoc]

/-! ### DECOMPRESS -/

/-- Settles O56: the state the four sub-steps end in. -/
theorem decompressReadsAStream : Obligations.DecompressReadsAStream := by
  intro s t xs p rest hi hr ho ho8 ht hxs hp h
  obtain ⟨k, hbody⟩ := decompressBody_ok hi hr ho ho8 ht hxs hp h
  exact ⟨_, by rw [exec_eq, bodyOf, hbody, Res.finish_ok], rfl⟩

/-- On a built tree's header and the codes of a byte sequence, DECOMPRESS writes the sequence. -/
theorem decompress_codes {s : State} {freq : Vector Nat 256} {tr : Tree} {bytes : List Byte} {codes rest : Bits}
    (hi : s.Inv) (hr : s.Reliable) (ho : s.status.oclosed = false) (ho8 : s.outBits.length % 8 = 0)
    (htr : buildTree freq = some tr) (hcodes : codesOf (genTable tr) (bytes.map byteSymbol ++ [256]) = some codes)
    (h : s.inRest = msbf 32 s.params.magic.toNat ++ ser tr ++ codes ++ rest) :
    ∃ t, exec .decompress s = .next t ∧ t.status.err = s.status.err ∧ t.status.oclosed = true ∧
      t.outBits = s.outBits ++ bytesToBits bytes := by
  obtain ⟨tr', htr', hinv, -⟩ := buildTree_spec freq
  obtain rfl : tr' = tr := Option.some.inj (htr'.symm.trans htr)
  obtain ⟨xs, p, rfl, hxs, hp, rfl⟩ := codesOf_split hcodes
  obtain ⟨t, hexec, ht⟩ := decompressReadsAStream s tr' xs p rest hi hr ho ho8 hinv hxs hp
    (by simpa only [List.append_assoc] using h)
  exact ⟨t, hexec, congrArg (·.status.err) ht, congrArg (·.status.oclosed) ht, congrArg State.outBits ht⟩

/-! ### The round trip -/

theorem State.inRest_attach (s : State) (bytes : List Byte) :
    (s.attachIn bytes).attachOut.inRest = bytesToBits bytes := rfl

theorem State.unitsLeft_attach (s : State) (bytes : List Byte) : (s.attachIn bytes).attachOut.unitsLeft = bytes :=
  bitsToBytes_bytesToBits bytes

theorem inv_attach {s : State} (h : s.Inv) (bytes : List Byte) : (s.attachIn bytes).attachOut.Inv :=
  inv_attachOut (inv_attachIn h bytes)

theorem kept_reliable : Kept State.Reliable where
  calls := fun _ k h => reliable_congr h k rfl
  seek := fun _ _ h => h
  app := fun _ _ h _ => h
  close := fun _ h _ => h
  freq := fun _ _ _ h => h
  clearF := fun _ h => h
  store := fun _ _ h => h
  dropT := fun _ h => h
  storeC := fun _ _ h => h
  dropC := fun _ h => h
  eos := fun _ _ h => h
  dst := fun _ _ h => h
  res := fun _ _ h => h

/-- Reliable channels stay reliable across a command (R57). -/
theorem reliable_exec {i : Instr} {s t : State} (hi : i ≠ .clr) (hr : s.Reliable) (h : exec i s = .next t) :
    t.Reliable := by
  obtain ⟨u, hu, rfl | ⟨e, rfl⟩⟩ := exec_kept kept_reliable i hi hr h
  · exact hu
  · exact hu

/-- Settles O58: the bytes of the closed OUT are the stream O54 gives, whose codes DECOMPRESS reads back. -/
theorem roundTripIsLossless : Obligations.RoundTripIsLossless := by
  intro s s1 t1 s2 bytes hi hr _ herr hfit hs1 hexec hs2
  obtain rfl : s1 = (s.attachIn bytes).attachOut := hs1
  obtain rfl : s2 = (t1.attachIn (bitsToBytes t1.outBits)).attachOut := hs2
  have hi1 := inv_attach hi bytes
  have hr1 : (s.attachIn bytes).attachOut.Reliable := hr
  have hunits := s.unitsLeft_attach bytes
  obtain ⟨f, tr, codes, pad, u, -, htr, hcodes, -, hu, hstream⟩ :=
    compressWritesTheStream _ hi1 hr1 rfl rfl fun b => by rw [hunits]; exact hfit b
  obtain rfl : t1 = u := Host.Outcome.next.inj (hexec.symm.trans hu)
  have hi2 : t1.Inv := inv_exec hi1 hexec
  have hr2 : t1.Reliable := reliable_exec (i := .compress) nofun hr1 hexec
  have herr1 : t1.status.err = false := (congrArg (·.status.err) hstream).trans herr
  have hparams : t1.params = s.params := congrArg (·.params) hstream
  have hin : (t1.attachIn (bitsToBytes t1.outBits)).attachOut.inRest =
      msbf 32 t1.params.magic.toNat ++ ser tr ++ codes ++ pad := by
    rw [State.inRest_attach, bytesToBits_bitsToBytes _ (hi2.closed (congrArg (·.status.oclosed) hstream)), hparams]
    exact congrArg State.outBits hstream
  obtain ⟨t2, hexec2, herr2, hclosed, hout⟩ :=
    decompress_codes (inv_attach hi2 _) hr2 rfl rfl htr (hunits ▸ hcodes) hin
  have hbytes : t2.outBits = bytesToBits bytes := hout
  exact ⟨t2, hexec2, herr1, herr2.trans herr1, hclosed, hbytes, by rw [hbytes, bitsToBytes_bytesToBits]⟩

end Sys2Proof.Machine
end

section
/-! The control commands (47_control.md R180 to R183). -/

namespace Sys2Proof.Machine

/-- Settles O27: the pseudocode is empty. -/
theorem nopDoesNothing : Obligations.NopDoesNothing := by
  intro s
  rw [exec_eq, bodyOf, nopBody, Res.finish_ok]

/-- Settles O28: no update of the pseudocode writes a channel or OCLOSED. -/
theorem clrClears : Obligations.ClrClears := by
  intro s
  rw [exec_eq, bodyOf, clrBody, Res.finish_ok]
  rfl

/-! ### REWIND -/

/-- R182 where the call fails (R55). -/
theorem rewindBody_fail {s : State} (h : s.FailsAt 0) : rewindBody s = .raise .ioIn (s.afterCalls 1) := by
  rw [rewindBody, inRewind, State.takeAnswer_eq, fail_head h]

/-- Settles O29: an answered call moves the cursor to 0, and a failed one raises. -/
theorem rewindRewinds : Obligations.RewindRewinds := by
  intro s
  rw [exec_eq, bodyOf]
  refine ⟨fun hok => ?_, fun hf => ?_⟩
  · rw [rewindBody_ok hok, Res.finish_ok]
    rfl
  · rw [rewindBody_fail hf]
    rfl

/-! ### CLOSE -/

theorem closeBody_closed {s : State} (ho : s.status.oclosed = true) : closeBody s = .raise .outClosed s := by
  rw [closeBody, raiseIf_of_true ho]

/-- R183 where the call fails (R58). -/
theorem closeBody_fail {s : State} (ho : s.status.oclosed = false) (h : s.FailsAt 0) :
    closeBody s = .raise .ioOut (s.afterCalls 1) := by
  rw [closeBody, raiseIf_of_false ho, outClose, State.takeAnswer_eq, fail_head h]

/-- A padded bit string is whole bytes (R58). -/
theorem add_padLength_mod (n : Nat) : (n + padLength n) % 8 = 0 := by
  rw [padLength]
  omega

/-- Settles O30: a closed OUT, an answered and a failed call are the three ends of CLOSE, and the padding is of the next
draw. -/
theorem closeCloses : Obligations.CloseCloses := by
  intro s
  rw [exec_eq, bodyOf]
  refine ⟨fun ho => ?_, fun ho hok => ⟨s.padBits, padBits_length s, ?_, ?_⟩, fun ho hf => ?_⟩
  · rw [closeBody_closed ho]
    rfl
  · rw [List.length_append, padBits_length, add_padLength_mod]
  · rw [closeBody_ok ho hok, Res.finish_ok]
    rfl
  · rw [closeBody_fail ho hf]
    rfl

end Sys2Proof.Machine
end

section
/-! The step-by-step compression and decompression of R213: a driver's pseudocode is that of its sub-steps in a row, and the
changes of the state between them, completion and what CLR clears, commute with them (46_drivers.md R170, R171;
70_reset_and_hazards.md R213). -/

namespace Sys2Proof.Machine

/-! ### Commands in a row -/

/-- The pseudocode of the commands `is` one after another, without their completions. -/
def bodies : List Instr → State → Res Unit
  | [], s => .ok () s
  | i :: is, s => (bodyOf i s).andThen (bodies is)

/-- The pseudocode of `i` neither reads nor undoes what `f` changes. -/
def Commutes (f : State → State) (i : Instr) : Prop := ∀ s, bodyOf i (f s) = mapR f (bodyOf i s)

section
variable {f : State → State} {is : List Instr} {s t : State}

theorem bodies_commute (h : ∀ i ∈ is, Commutes f i) (s : State) : bodies is (f s) = mapR f (bodies is s) := by
  induction is generalizing s with
  | nil => rfl
  | cons i is ih =>
    obtain ⟨hi, his⟩ := List.forall_mem_cons.1 h
    rw [bodies, bodies, hi s]
    exact mapR_then (ih his)

theorem keptBy_noError (i : Instr) : KeptBy i fun t => t.status.err = false where
  calls := fun _ h => h
  seek := fun _ _ h _ => h
  append := fun _ _ h _ => h
  close := fun _ h _ => h
  setFreq := fun _ _ _ _ h => h
  clearFreq := fun _ _ h => h
  storeTree := fun _ _ _ h => h
  dropTree := fun _ _ h => h
  storeCode := fun _ _ _ h => h
  dropCode := fun _ _ h => h
  setEos := fun _ _ _ h => h
  setResult := fun _ _ _ h => h
  setDState := fun _ _ _ h => h

/-- Pseudocode enters no error but by `raise` (R195). -/
theorem bodyOf_noError {i : Instr} (he : s.status.err = false) (h : bodyOf i s = .ok () t) : t.status.err = false := by
  by_cases hi : i = .clr
  · subst hi
    obtain ⟨-, rfl⟩ := Res.ok.inj h
    rfl
  · have hend := (keptBy_noError i).body hi he
    rw [h] at hend
    exact hend

/-- Commands whose pseudocode takes no notice of a completion run as their pseudocode in a row does (R194, R213). -/
theorem runCommands_of_bodies {i : Instr} (hd : ∀ j ∈ is, Commutes State.done j) (he : s.status.err = false)
    (h : bodies (i :: is) s = .ok () t) : runCommands (i :: is) s = some t.done := by
  induction is generalizing i s t with
  | nil =>
    obtain ⟨u, hu, hrest⟩ := Res.andThen_eq_ok h
    obtain ⟨-, rfl⟩ := Res.ok.inj hrest
    have hdone : u.done.status.err = false := bodyOf_noError (t := u) he hu
    rw [runCommands, exec_eq, hu, Res.finish_ok]
    simp [hdone, runCommands]
  | cons j is ih =>
    obtain ⟨u, hu, hrest⟩ := Res.andThen_eq_ok h
    have hdone : u.done.status.err = false := bodyOf_noError (t := u) he hu
    have hnext : bodies (j :: is) u.done = .ok () t.done := by rw [bodies_commute hd, hrest]; rfl
    rw [runCommands, exec_eq, hu, Res.finish_ok]
    simp only [hdone, Bool.false_eq_true, if_false]
    exact (ih (List.forall_mem_cons.1 hd).2 hdone hnext :)

end

theorem Res.andThen_assoc (r : Res Unit) (f g : State → Res Unit) :
    (r.andThen f).andThen g = r.andThen fun s => (f s).andThen g := by
  cases r <;> rfl

theorem Res.andThen_pure (r : Res Unit) : (r.andThen fun s => .ok () s) = r := by
  cases r <;> rfl

/-! ### Decompression -/

/-- The sub-steps of DECOMPRESS (R171). -/
def decompressSteps : List Instr := [.rmagic, .rtree, .decode, .close]

theorem decompressBody_eq_bodies (s : State) : decompressBody s = bodies decompressSteps (s.setEos false) := by
  simp only [decompressBody, decompressSteps, bodies, Res.andThen_assoc, Res.andThen_pure]
  rfl

theorem decompressSteps_done : ∀ i ∈ decompressSteps, Commutes State.done i := by
  simp only [decompressSteps, List.forall_mem_cons, List.not_mem_nil, false_implies, implies_true, and_true]
  have h := decodeBlind_done
  exact ⟨DecodeBlind.rmagic h.toTableBlind h.dst, DecodeBlind.rtree h.toTableBlind h.dst, h.decode, h.closeB⟩

theorem raiseIf_eq_ok {c : Bool} {e : Err} {s u : State} {k : State → Res Unit} :
    raiseIf c e s k = .ok () u ↔ c = false ∧ k s = .ok () u := by
  cases c <;> simp

theorem withTree_eq_ok {s u : State} {k : Tree → State → Res Unit} : withTree s k = .ok () u ↔
    ∃ t, s.status.treeValid = true ∧ s.tree = some t ∧ k t s = .ok () u := by
  unfold withTree
  cases s.status.treeValid
  · simp
  · cases s.tree <;> simp

/-- What DECODE needs to end without an error, and what it then does (R162). -/
theorem decodeBody_eq_ok {s u : State} : decodeBody s = .ok () u ↔
    ∃ t, s.status.treeValid = true ∧ s.tree = some t ∧ s.status.oclosed = false ∧
      decodeLoop t (s.inLeft + 1) s.startDecode = .ok () u := by
  simp only [decodeBody, withTree_eq_ok, raiseIf_eq_ok]

/-- DECODE clears EOS before it reads anything, so that it may be cleared already (R162). -/
theorem decodeBody_setEos {s u : State} (h : decodeBody (s.setEos false) = .ok () u) : decodeBody s = .ok () u := by
  obtain ⟨t, hv, ht, ho, hloop⟩ := decodeBody_eq_ok.1 h
  exact decodeBody_eq_ok.2 ⟨t, hv, ht, ho, hloop⟩

/-- The EOS that DECOMPRESS clears first is cleared by its DECODE in any case (R162, R171). -/
theorem bodies_decompressSteps {s u : State} (h : bodies decompressSteps (s.setEos false) = .ok () u) :
    bodies decompressSteps s = .ok () u := by
  have hblind := tableBlind_setEos
  obtain ⟨a', ha', h⟩ := Res.andThen_eq_ok h
  obtain ⟨a, ha, rfl⟩ := mapR_ok_inv ((DecodeBlind.rmagic hblind (fun _ _ => rfl) s).symm.trans ha')
  obtain ⟨b', hb', h⟩ := Res.andThen_eq_ok h
  obtain ⟨b, hb, rfl⟩ := mapR_ok_inv ((DecodeBlind.rtree hblind (fun _ _ => rfl) a).symm.trans hb')
  obtain ⟨c, hc, h⟩ := Res.andThen_eq_ok h
  simp only [decompressSteps, bodies, bodyOf, ha, hb, decodeBody_setEos hc, Res.andThen_ok]
  exact h

/-- Settles O59: DECOMPRESS is its four sub-steps in a row after EOS is cleared, and completions between them change nothing
they read. -/
theorem decompressEqualsItsSteps : Obligations.DecompressEqualsItsSteps := by
  intro s t he h hok
  obtain ⟨u, hu, rfl⟩ := finish_ok_inv (exec_eq .decompress s ▸ h) hok
  have hsteps := bodies_decompressSteps ((decompressBody_eq_bodies s).symm.trans hu)
  exact runCommands_of_bodies (List.forall_mem_cons.1 decompressSteps_done).2 he hsteps

/-! ### Compression -/

/-- The sub-steps of COMPRESS from BUILD on (R170). -/
def compressSteps : List Instr := [.build, .rewind, .wmagic, .wtree, .gencode, .encode, .encsym 256, .close]

theorem compressBody_eq_bodies (s : State) : compressBody s = bodies (.count :: compressSteps) s.clearFreq := by
  simp only [compressBody, compressSteps, bodies, Res.andThen_assoc, Res.andThen_pure]
  rfl

theorem TableBlind.compressSteps_commute {f : State → State} (h : TableBlind f) :
    ∀ i ∈ .count :: compressSteps, Commutes f i := by
  simp only [compressSteps, List.forall_mem_cons, List.not_mem_nil, false_implies, implies_true, and_true]
  exact ⟨h.count, h.build, h.rewind, h.wmagic, h.wtree, h.gencode, h.encode, h.encsym Config.sent, h.closeB⟩

/-- What CLR clears but the tables: `RESULT`, DSTATE, EOS, OVR and the error fields (R181). -/
def State.clearResult (s : State) : State := { s.clearError.setEos false |>.setDState .idle with result := 0 }

/-- What CLR clears but `FREQ` (R181). -/
def State.clearBuilt (s : State) : State := s.dropTree.dropCode.clearResult

theorem clrBody_eq (s : State) : clrBody s = .ok () s.clearFreq.clearBuilt := rfl

/-- No sub-step of COMPRESS reads or writes these fields. -/
theorem tableBlind_clearResult : TableBlind State.clearResult where
  ans _ := rfl
  cur _ := rfl
  bits _ := rfl
  par _ := rfl
  freq _ := rfl
  ocl _ := rfl
  pad _ := rfl
  calls _ _ := rfl
  seek _ _ := rfl
  app _ _ := rfl
  close _ := rfl
  setf _ _ _ := rfl
  tree _ := rfl
  tv _ := rfl
  code _ := rfl
  cv _ := rfl
  storeT _ _ := rfl
  storeC _ _ := rfl
  dropT _ := rfl
  dropC _ := rfl

/-- Counting reads neither tree nor codes (R101). -/
theorem channelBlind_clearBuilt : ChannelBlind State.clearBuilt where
  ans _ := rfl
  cur _ := rfl
  bits _ := rfl
  par _ := rfl
  freq _ := rfl
  ocl _ := rfl
  pad _ := rfl
  calls _ _ := rfl
  seek _ _ := rfl
  app _ _ := rfl
  close _ := rfl
  setf _ _ _ := rfl

/-- BUILD overwrites the tree and drops the codes, whatever they were (R110). -/
theorem buildBody_clearBuilt (s : State) : buildBody s.clearBuilt = mapR State.clearResult (buildBody s) := by
  have hfreq : s.clearBuilt.freq = s.freq := rfl
  unfold buildBody
  rw [hfreq]
  cases buildTree s.freq <;> rfl

/-- After CLR the sub-steps end as COMPRESS does, but for what CLR clears (R170, R181). -/
theorem bodies_clr_compressSteps {s u : State} (h : compressBody s = .ok () u) :
    bodies (.clr :: .count :: compressSteps) s = .ok () u.clearResult := by
  have hblind := tableBlind_clearResult
  obtain ⟨a, ha, h⟩ := Res.andThen_eq_ok ((compressBody_eq_bodies s).symm.trans h)
  have hcount : countBody s.clearFreq.clearBuilt = .ok () a.clearBuilt := by
    rw [channelBlind_clearBuilt.count, show countBody s.clearFreq = _ from ha]
    rfl
  have hrest : bodies compressSteps a.clearBuilt = mapR State.clearResult (bodies compressSteps a) := by
    rw [compressSteps, bodies, bodies, bodyOf, buildBody_clearBuilt]
    exact mapR_then (bodies_commute (List.forall_mem_cons.1 (List.forall_mem_cons.1 hblind.compressSteps_commute).2).2)
  rw [bodies, bodyOf, clrBody_eq, Res.andThen_ok, bodies, bodyOf, hcount, Res.andThen_ok, hrest, h]
  rfl

/-- Settles O60: BUILD is the first sub-step that looks at what CLR drops, and overwrites it. -/
theorem compressEqualsItsSteps : Obligations.CompressEqualsItsSteps := by
  intro s t he h hok
  obtain ⟨u, hu, rfl⟩ := finish_ok_inv (exec_eq .compress s ▸ h) hok
  have herr : u.status.err = false := hok
  have hsteps := bodies_clr_compressSteps hu
  refine ⟨u.clearResult.done, runCommands_of_bodies decodeBlind_done.compressSteps_commute he hsteps, ?_⟩
  simp [State.clearResult, State.done, State.clearError, State.setEos, State.setDState, herr]

end Sys2Proof.Machine
end

section
/-! The errors of the commands: the precondition checks in order (60_exceptions.md R193), and those COMPRESS can raise
(46_drivers.md R170; 60_exceptions.md R191). -/

namespace Sys2Proof.Machine

/-! ### The checks of R193 -/

section
variable {s : State}

theorem withTree_noTree {k : Tree → State → Res Unit} (hv : s.status.treeValid = false) :
    withTree s k = .raise .noTree s := by
  rw [withTree, hv, if_neg Bool.false_ne_true]

theorem withEncoder_closed {k : State → Res Unit} (hv : s.status.codeValid = true) (ho : s.status.oclosed = true) :
    withEncoder s k = .raise .outClosed s := by
  rw [withEncoder, raiseIf_of_false (by simp [hv]), raiseIf_of_true ho]

/-- The checks WTREE and DECODE share: the tree, then OUT. -/
theorem withTree_closed {t : Tree} {k : Tree → State → Res Unit} (hv : s.status.treeValid = true) (ht : s.tree = some t)
    (ho : s.status.oclosed = true) :
    (withTree s fun t s => raiseIf s.status.oclosed .outClosed s (k t)) = .raise .outClosed s := by
  rw [withTree_some hv ht, raiseIf_of_true ho]

theorem encsymBody_noSymbol {x : Symbol} (hv : s.status.codeValid = true) (ho : s.status.oclosed = false)
    (hc : s.codeAt x = none) : encsymBody x s = .raise .noSymbol s := by
  rw [encsymBody, withEncoder_ok hv ho, writeCode_none hc]

/-- A command whose pseudocode raises at once has no effect but the error (R195). -/
theorem exec_of_raise {i : Instr} {e : Err} (h : bodyOf i s = .raise e s) : exec i s = .next (s.failed (opcode i) e) := by
  rw [exec_eq, h, Res.finish_raise]

theorem exec_encsym_of_raise {a : BitVec 9} (ha : a.toNat < 257) {e : Err}
    (h : encsymBody ⟨a.toNat, ha⟩ s = .raise e s) : exec (.encsym a) s = .next (s.failed 0x50 e) := by
  rw [exec_encsym ha, h, Res.finish_raise]

end

/-- Settles O26: each check raises at once where those before it pass. -/
theorem preconditionsInOrder : Obligations.PreconditionsInOrder := by
  intro s
  refine ⟨?wmagic, ?wtreeNoTree, ?wtreeClosed, ?gencode, ?encsym, ?encodeNoCode, ?encodeClosed, ?decsym, ?decodeNoTree,
    ?decodeClosed, ?close⟩
  case wmagic => exact fun ho => exec_of_raise (i := .wmagic) (wmagicBody_closed ho)
  case wtreeNoTree => exact fun hv => exec_of_raise (i := .wtree) (by rw [bodyOf, wtreeBody, withTree_noTree hv])
  case wtreeClosed => exact fun t hv ht ho => exec_of_raise (i := .wtree) (withTree_closed hv ht ho)
  case gencode => exact fun hv => exec_of_raise (i := .gencode) (by rw [bodyOf, gencodeBody, withTree_noTree hv])
  case encsym =>
    exact fun a ha => ⟨fun hv => exec_encsym_of_raise ha (withEncoder_noCode hv),
      fun hv ho => exec_encsym_of_raise ha (withEncoder_closed hv ho),
      fun hv ho hc => exec_encsym_of_raise ha (encsymBody_noSymbol hv ho hc)⟩
  case encodeNoCode => exact exec_encode_noCode
  case encodeClosed => exact fun hv ho => exec_of_raise (i := .encode) (withEncoder_closed hv ho)
  case decsym => exact fun hv => exec_of_raise (i := .decsym) (by rw [bodyOf, decsymBody, withTree_noTree hv])
  case decodeNoTree => exact fun hv => exec_of_raise (i := .decode) (by rw [bodyOf, decodeBody, withTree_noTree hv])
  case decodeClosed => exact fun t hv ht ho => exec_of_raise (i := .decode) (withTree_closed hv ht ho)
  case close => exact fun ho => exec_of_raise (i := .close) (closeBody_closed ho)

/-! ### The errors of COMPRESS -/

/-- The errors COMPRESS can raise (R191). -/
def compressErrs : List Err := [.countOvf, .noSymbol, .outClosed, .ioIn, .ioOut]

/-- COMPRESS, with no error so far and the tree built. -/
structure TreeReady (t : State) : Prop where
  err       : t.status.err = false
  treeValid : t.status.treeValid = true
  tree      : t.tree.isSome

/-- COMPRESS, with no error so far and the code table made. -/
structure CodeReady (t : State) : Prop where
  err       : t.status.err = false
  codeValid : t.status.codeValid = true

section
variable {s : State}

theorem keptByIn_treeReady : KeptByIn TreeReady := ⟨fun _ h => { h with }, fun _ _ h _ => { h with }⟩

theorem keptByOut_treeReady : KeptByOut TreeReady := ⟨fun _ h => { h with }, fun _ _ h _ => { h with }⟩

theorem keptByIn_codeReady : KeptByIn CodeReady := ⟨fun _ h => { h with }, fun _ _ h _ => { h with }⟩

theorem keptByOut_codeReady : KeptByOut CodeReady := ⟨fun _ h => { h with }, fun _ _ h _ => { h with }⟩

theorem countBody_errs (he : s.status.err = false) :
    Sat (countBody s) (fun t => t.status.err = false) fun e _ => e ∈ compressErrs :=
  countLoop_sat ⟨fun _ h => h, fun _ _ h _ => h⟩ (fun _ _ _ h => h) he (fun _ _ => by decide) fun _ _ => by decide

theorem buildBody_errs (he : s.status.err = false) : Sat (buildBody s) TreeReady fun e _ => e ∈ compressErrs := by
  obtain ⟨t, ht, -⟩ := buildTree_spec s.freq
  rw [buildBody_ok ht]
  exact ⟨he, rfl, rfl⟩

theorem rewindBody_errs (h : TreeReady s) : Sat (rewindBody s) TreeReady fun e _ => e ∈ compressErrs :=
  rewind_sat keptByIn_treeReady h fun _ _ => by decide

theorem wmagicBody_errs (h : TreeReady s) : Sat (wmagicBody s) TreeReady fun e _ => e ∈ compressErrs :=
  Sat.raiseIf (by decide) fun ho =>
    (writeOr_sat keptByOut_treeReady h ho fun _ _ => by decide).mono (fun _ ht => ht.1) fun _ _ he => he

theorem wtreeBody_errs (h : TreeReady s) : Sat (wtreeBody s) TreeReady fun e _ => e ∈ compressErrs :=
  withTree_sat h.treeValid h.tree fun _ _ => Sat.raiseIf (by decide) fun ho =>
    (emit_sat keptByOut_treeReady h ho fun _ _ => by decide).mono (fun _ ht => ht.1) fun _ _ he => he

theorem gencodeBody_errs (h : TreeReady s) : Sat (gencodeBody s) CodeReady fun e _ => e ∈ compressErrs :=
  withTree_sat h.treeValid h.tree fun _ _ => ⟨h.err, rfl⟩

/-- With a code table the encoder raises `OUT_CLOSED` or what it raises writing (R193). -/
theorem withEncoder_errs {k : State → Res Unit} (h : CodeReady s)
    (hk : s.status.oclosed = false →
      Sat (k s) (fun t => CodeReady t ∧ t.status.oclosed = false) fun e _ => e ∈ compressErrs) :
    Sat (withEncoder s k) CodeReady fun e _ => e ∈ compressErrs := by
  rw [withEncoder, raiseIf_of_false (by simp [h.codeValid])]
  exact Sat.raiseIf (by decide) fun ho => (hk ho).mono (fun _ ht => ht.1) fun _ _ he => he

theorem encodeBody_errs (h : CodeReady s) : Sat (encodeBody s) CodeReady fun e _ => e ∈ compressErrs :=
  withEncoder_errs h fun ho => encodeLoop_sat keptByIn_codeReady keptByOut_codeReady h ho (fun _ _ => by decide)
    (fun _ _ => by decide) fun _ _ => by decide

theorem encsymBody_errs {x : Symbol} (h : CodeReady s) : Sat (encsymBody x s) CodeReady fun e _ => e ∈ compressErrs :=
  withEncoder_errs h fun ho => writeCode_sat keptByOut_codeReady h ho (fun _ _ => by decide) fun _ _ => by decide

theorem closeBody_errs (h : CodeReady s) : Sat (closeBody s) CodeReady fun e _ => e ∈ compressErrs :=
  close_sat keptByOut_codeReady h (fun _ ht => { ht with }) (fun _ _ => by decide) fun _ _ => by decide

/-- BUILD and GENCODE make what the sub-steps after them check for, so that neither `NO_TREE` nor `NO_CODE` is raised. -/
theorem compressBody_errs (he : s.status.err = false) :
    Sat (compressBody s) CodeReady fun e _ => e ∈ compressErrs :=
  ((((((((countBody_errs (s := s.clearFreq) he).then fun _ => buildBody_errs).then fun _ => rewindBody_errs).then
    fun _ => wmagicBody_errs).then fun _ => wtreeBody_errs).then fun _ => gencodeBody_errs).then
    fun _ => encodeBody_errs).then fun _ => encsymBody_errs).then fun _ => closeBody_errs

end

/-- Settles O55, by the errors of the nine sub-steps. -/
theorem compressErrors : Obligations.CompressErrors := by
  intro s t he h herr
  have hbody := compressBody_errs he
  rcases Res.finish_eq_next (exec_eq .compress s ▸ h) with ⟨u, hu, rfl⟩ | ⟨e, u, hu, rfl⟩ <;>
    rw [show compressBody s = _ from hu] at hbody
  · exact absurd (hbody.err.symm.trans herr) Bool.false_ne_true
  · exact ⟨rfl, e, hbody, rfl⟩

end Sys2Proof.Machine
end

section
/-! What a step does with a write to `CMD`, a pending word and reset, and that nothing but an attach stops it
(60_exceptions.md R194; 70_reset_and_hazards.md R210, R219). -/

namespace Sys2Proof.Machine

/-! ### Acceptance -/

theorem memWrite_offCmd (w : Word) (s : State) : memWrite offCmd 4 w s = cmdWrite w s := by
  rw [memWrite, if_pos (by decide), if_pos rfl]

theorem cmdWrite_busy {s : State} (w : Word) (hb : s.status.busy = true) : cmdWrite w s = s.setOvr := by
  rw [cmdWrite, if_pos hb]

/-- While ERR = 1 only NOP and CLR are accepted. -/
theorem cmdWrite_dropped {s : State} {w : Word} (hb : s.status.busy = false) (he : s.status.err = true) (hnop : w ≠ 0)
    (hclr : w ≠ 1) : cmdWrite w s = s := by
  rw [cmdWrite, hb, he, decide_eq_true hnop, decide_eq_true hclr]
  rfl

theorem cmdWrite_accepted {s : State} {w : Word} (hb : s.status.busy = false)
    (h : s.status.err = false ∨ w = 0 ∨ w = 1) : cmdWrite w s = s.accept w := by
  rcases h with he | rfl | rfl
  · simp [cmdWrite, hb, he]
  · simp [cmdWrite, hb]
  · simp [cmdWrite, hb]

theorem State.CoreNext.not_host {s : State} (hc : s.CoreNext) (m : HostMove) (rest : List Turn) :
    s.script ≠ .host m :: rest := by
  rcases hc with h | ⟨_, h⟩ <;> simp [h]

/-- The Core's step on a pending word ends with BUSY = 0 and keeps no word (R194). -/
theorem step_pending_ends {s t : State} {w : Word} (hw : s.cmd = some w) (hc : s.CoreNext) (h : step s = .next t) :
    t.status.busy = false ∧ t.cmd = none := by
  cases step_cases h with
  | idle _ hn _ => exact absurd (hn.symm.trans hw) nofun
  | command _ i u _ _ _ hu ht =>
    subst ht
    exact finish_notbusy (t := u) (exec_eq i _ ▸ hu)
  | illegal _ _ _ _ ht =>
    subst ht
    exact ⟨rfl, rfl⟩
  | host m rest hs _ => exact absurd hs (hc.not_host m rest)

/-- Settles O6: the three ends of a write to `CMD`, and the Core's turn on a word by whether it decodes. -/
theorem commandAcceptance : Obligations.CommandAcceptance := by
  refine ⟨fun s w rest hs => ?_, fun s w hw hc => ⟨fun hl => ?_, fun hl => ?_, fun t h => ?_⟩⟩
  · have hstep : step s = .next (cmdWrite w { s with script := rest }) :=
      (step_memWrite hs).trans (congrArg _ (memWrite_offCmd w _))
    rw [hstep]
    exact ⟨fun hb => congrArg _ (cmdWrite_busy (s := { s with script := rest }) w hb),
      fun hb he hnop hclr => congrArg _ (cmdWrite_dropped (s := { s with script := rest }) hb he hnop hclr),
      fun hb h => congrArg _ (cmdWrite_accepted (s := { s with script := rest }) hb h)⟩
  · exact illegalWordRaisesIllegal s w hl hw hc
  · obtain ⟨i, hd⟩ := (legalWordsDecode w).2 hl
    exact ⟨i, hd, stepRunsTheDecodedCommand.1 s w i hw hd hc⟩
  · exact (step_pending_ends hw hc h).1

/-! ### Progress -/

/-- No command faults in a state of the invariant (R219). -/
theorem exec_completes (i : Instr) {s : State} (hi : s.Inv) : ∃ t, exec i s = .next t := by
  rw [exec_eq]
  cases hb : bodyOf i s with
  | ok => exact ⟨_, rfl⟩
  | raise => exact ⟨_, rfl⟩
  | stuck => exact absurd hb (body_ne_stuck i hi)

/-- The Core's turn answers a next state: its pending command's, the error of an illegal word, or the same state. -/
theorem step_core_next {s : State} (hi : s.Inv) (hc : s.CoreNext) : ∃ t, step s = .next t := by
  obtain ⟨hdecoded, hidle, -⟩ := stepRunsTheDecodedCommand
  cases hw : s.cmd with
  | none => exact ⟨_, hidle s hw hc⟩
  | some w =>
    cases hl : legal w with
    | false => exact ⟨_, illegalWordRaisesIllegal s w hl hw hc⟩
    | true =>
      obtain ⟨i, hd⟩ := (legalWordsDecode w).2 hl
      obtain ⟨t, ht⟩ := exec_completes i (s := s.turnTaken) (inv_script hi _)
      exact ⟨_, by rw [hdecoded s w i hw hd hc, ht, recordPass]⟩

/-- Settles O19: the step answers a next state, and every end of a command clears BUSY. -/
theorem acceptedCommandsComplete : Obligations.AcceptedCommandsComplete := by
  intro s w hi hw hc
  obtain ⟨t, ht⟩ := step_core_next hi hc
  exact ⟨t, ht, step_pending_ends hw hc ht⟩

theorem HostMove.attaches_iff {m : HostMove} : m.attaches = true ↔ m = .attachOut ∨ ∃ bytes, m = .attachIn bytes := by
  cases m <;> simp [HostMove.attaches]

/-- Settles O20: the Core's turn goes on, and so does the host's but for the two refusals of an attach. -/
theorem stepsStopOnlyAtAttach : Obligations.StepsStopOnlyAtAttach := by
  intro s hi
  rcases s.coreNext_or_host with hc | ⟨m, rest, hs⟩
  · exact .inl (step_core_next hi hc)
  · rcases hostTurn_cases m { s with script := rest } with
      ⟨hm, hb, e⟩ | ⟨t, ht, ⟨hm, hb, henc, e⟩ | ⟨-, e⟩⟩ <;> rw [← step_host hs] at e
    · exact .inr ⟨m, rest, hs, HostMove.attaches_iff.1 hm, .inl ⟨e, hb⟩⟩
    · exact .inr ⟨m, rest, hs, HostMove.attaches_iff.1 hm, .inr ⟨e, hb, t, ht, henc⟩⟩
    · exact .inl ⟨t, e⟩

/-! ### Reset -/

/-- Settles O15: reset is a move that attaches nothing, so its turn is `resetInput` whatever BUSY is. -/
theorem resetInput : Obligations.ResetInput := by
  intro s rest hs
  rw [step_host hs, hostTurn_of_not_attaches rfl, hostMove]
  rfl

end Sys2Proof.Machine
end
